-- ==== Sys2Proof/Word.lean ====
section
/-! DEFINITION. The word types of the transaction engine (00_scope.md R10): every value is unsigned. -/

namespace Sys2Proof

/-- A byte of system memory, a status or a reason code. -/
abbrev Byte := BitVec 8

/-- One 16-bit data beat of the device (20_memory.md R46). -/
abbrev Beat := BitVec 16

/-- A `u32` (00_scope.md R10). -/
abbrev Word := BitVec 32

/-- A `u64` (00_scope.md R10). -/
abbrev Dword := BitVec 64

end Sys2Proof
end

