-- ==== Sys2Proof/Machine/Records.lean ====
section
/-! DEFINITION. The records the state is made of (10_state.md R16 to R28, 30_encoding.md R56 and R65,
43_external_interfaces.md R141 to R158). Plain data. -/

namespace Sys2Proof.Machine

/-- A state cell that may not have been written since reset: the "no value" of 10_state.md R31. Reading an
`unwritten` cell records `F_UNWRITTEN` (R34); it is the spec's own state, not a missing reset value. -/
inductive Cell (α : Type) where
  | unwritten
  | holds (v : α)
  deriving DecidableEq, Repr, Inhabited

/-- `ORC.phase` (10_state.md R19). -/
inductive Phase where
  | idle
  | selected
  | armed
  | inflight
  | completed
  | abandoned
  deriving DecidableEq, Repr, Inhabited

/-- `ORC.op` (10_state.md R20): the direction of the open transaction. -/
inductive Direction where
  | read
  | write
  deriving DecidableEq, Repr, Inhabited

/-- A channel's direction (10_state.md R23). -/
inductive ChannelDir where
  | memToFifo
  | fifoToMem
  deriving DecidableEq, Repr, Inhabited

/-- The FIFO end of a channel (10_state.md R23, R25). -/
inductive FifoName where
  | cmd
  | data
  deriving DecidableEq, Repr, Inhabited

/-- The two hardware channels (10_state.md R23). -/
inductive ChannelId where
  | chA
  | chB
  deriving DecidableEq, Repr, Inhabited

/-- A channel descriptor (10_state.md R23). `mem` is a natural: an address that reaches 2^32 does not wrap
(20_memory.md R40; log 14). -/
structure Channel where
  dir        : Cell ChannelDir
  mem        : Cell Nat
  fifo       : Cell FifoName
  remaining  : Cell Nat
  autoStart  : Cell Bool
  configured : Bool
  started    : Bool
  busy       : Bool
  deriving DecidableEq, Repr, Inhabited

/-- A request record `{op, operands}` (30_encoding.md R56). The operands stand as 32-bit words in the order
of R58 to R62, a one-bit operand in a word of its own and a `u64` low half first (DESIGN CHOICE, log 9). -/
structure Request where
  op       : BitVec 4
  operands : List Word
  deriving DecidableEq, Repr, Inhabited

/-- The five words of a CommandPacket (30_encoding.md R66). -/
structure CommandPacket where
  w0 : Word
  w1 : Word
  w2 : Word
  w3 : Word
  w4 : Word
  deriving DecidableEq, Repr, Inhabited

/-- A response's payload (30_encoding.md R65). -/
inductive Payload where
  | checksum (v : Dword)
  | words (p : CommandPacket)
  | empty
  | reason (r : Byte)
  deriving DecidableEq, Repr, Inhabited

/-- A response record `{status, payload}` (30_encoding.md R65). -/
structure Response where
  status  : Byte
  payload : Payload
  deriving DecidableEq, Repr, Inhabited

/-- `ORC.faults` (10_state.md R21): the set of the four model faults of 60_exceptions.md R164, one bit each,
so that equal sets are equal data. -/
structure FaultSet where
  unwritten   : Bool
  misaligned  : Bool
  overlap     : Bool
  channelBusy : Bool
  deriving DecidableEq, Repr, Inhabited

/-- What W0 to W3 of a header carry (30_encoding.md R67 to R71): the flags RW, AS and BT, the address, the
wait count and the word count. -/
structure CaFields where
  read          : Bool
  registerSpace : Bool
  linearBurst   : Bool
  address       : Word
  waitCycles    : Word
  wordCount     : Word
  deriving DecidableEq, Repr, Inhabited

/-- Where the ideal SU stands in a command (43_external_interfaces.md R145). -/
inductive SuPhase where
  /-- fewer than four header words popped so far, oldest first -/
  | header (got : List Word)
  /-- W0 to W3 taken, W4 awaited -/
  | command (ca : CaFields)
  /-- a read: `left` words to push, the next from device address `addr` -/
  | pushing (addr left : Nat)
  /-- a write: `left` words to pop, the next to device address `addr` -/
  | popping (addr left : Nat)
  /-- nothing beyond the weak contract R143 may be assumed -/
  | free
  deriving DecidableEq, Repr, Inhabited

/-- The arguments of the SU's initialization call (43_external_interfaces.md R142). 00_scope.md R8 gives their width
as the platform's, OPEN. DESIGN CHOICE, unsafe for a platform whose argument is no natural, such as a fractional clock
divisor: naturals of any size (log 33). -/
structure SuInit where
  dataPinBase  : Nat
  clockPin     : Nat
  clockDivisor : Nat
  deriving DecidableEq, Repr, Inhabited

/-- The signalling unit, the environment's state (log 20): its place in a command, the jump target and the
pin-direction mask of the last W4 it took as a control word (43_external_interfaces.md R144; which pops leave them as
they were is the model's, log 34), and how it was set up. -/
structure Su where
  phase    : SuPhase
  jump     : Cell (BitVec 16)
  pinDir   : Cell Byte
  initArgs : Option SuInit
  deriving DecidableEq, Repr, Inhabited

/-- What an SU bound only by the weak contract may do next (43_external_interfaces.md R143). -/
inductive SuAct where
  | hold
  | pop
  | push (v : Word)
  deriving DecidableEq, Repr, Inhabited

/-- One atomic move of one agent (43_external_interfaces.md R141, R158). -/
inductive Move where
  /-- ORC takes the request on the port (42_orchestrator.md R111) -/
  | orcTake
  /-- ORC takes the next of steps 2 to 5 (R118 to R121, R127 to R130) -/
  | orcAdvance
  /-- a channel moves one word (R150, R151) -/
  | channel (c : ChannelId)
  /-- the SU's next ideal step (R145), or a free one where R145 does not bind it -/
  | su
  /-- the SU pops a word, by the weak contract alone (R143(a)) -/
  | suPop
  /-- the SU pushes the draw `v`, by the weak contract alone (R143(b)) -/
  | suPush (v : Word)
  /-- the host puts a request by its table (R158) -/
  | put (r : Request)
  /-- a request reaches the port that the table gives the host no move for: a reserved op (30_encoding.md R63), or one
  in ABANDONED (42_orchestrator.md R133; DEDUCED, log 16, log 17) -/
  | present (r : Request)
  /-- the host takes the response (R158) -/
  | takeResponse
  /-- the host writes `mem[a] := v` (R158) -/
  | hostWrite (a v : Word)
  /-- the host reads `mem[a]` (R158) -/
  | hostRead (a : Word)
  /-- the host applies reset (R158, R176) -/
  | reset
  /-- the platform boots device, SU and FIFOs (R178, R179; log 23) -/
  | boot
  deriving DecidableEq, Repr, Inhabited

end Sys2Proof.Machine
end

