-- ==== Sys2Proof/Syntax.lean ====
section
/-! DEFINITION. The instructions: one constructor per row of spec/opcode_table.json. The five requests carry
the operands of 30_encoding.md R58 to R62; the eight CA kinds carry what W0 to W3 of a header say (R67 to R73);
the two control words carry W4's entry (R72). -/

namespace Sys2Proof

/-- One row of the opcode table each. -/
inductive Instr where
  /-- CHECKSUM (30_encoding.md R58, 40_checksum.md R84) -/
  | checksum (base count : Word) (seed : Dword)
  /-- ENCODE (30_encoding.md R59, 41_command_encoder.md R101) -/
  | encode (read registerSpace linearBurst : Bool)
      (address wordCount waitCycles entryOffsetRead entryOffsetWrite : Word)
  /-- READ (30_encoding.md R60, 42_orchestrator.md R114) -/
  | read (address wordCount rxbuf : Word)
  /-- WRITE (30_encoding.md R61, 42_orchestrator.md R124) -/
  | write (address wordCount srcbuf : Word)
  /-- ABANDON (30_encoding.md R62, 42_orchestrator.md R132) -/
  | abandon
  /-- CA_MEM_WRITE_WRAPPED (30_encoding.md R73) -/
  | caMemWriteWrapped (address waitCycles wordCount : Word)
  /-- CA_MEM_WRITE_LINEAR (30_encoding.md R73) -/
  | caMemWriteLinear (address waitCycles wordCount : Word)
  /-- CA_REG_WRITE_WRAPPED (30_encoding.md R73) -/
  | caRegWriteWrapped (address waitCycles wordCount : Word)
  /-- CA_REG_WRITE_LINEAR (30_encoding.md R73) -/
  | caRegWriteLinear (address waitCycles wordCount : Word)
  /-- CA_MEM_READ_WRAPPED (30_encoding.md R73) -/
  | caMemReadWrapped (address waitCycles wordCount : Word)
  /-- CA_MEM_READ_LINEAR (30_encoding.md R73) -/
  | caMemReadLinear (address waitCycles wordCount : Word)
  /-- CA_REG_READ_WRAPPED (30_encoding.md R73) -/
  | caRegReadWrapped (address waitCycles wordCount : Word)
  /-- CA_REG_READ_LINEAR (30_encoding.md R73) -/
  | caRegReadLinear (address waitCycles wordCount : Word)
  /-- CTRL_READ (30_encoding.md R72, 41_command_encoder.md R99) -/
  | ctrlRead (entry : BitVec 16)
  /-- CTRL_WRITE (30_encoding.md R72, 41_command_encoder.md R99) -/
  | ctrlWrite (entry : BitVec 16)
  deriving DecidableEq, Repr, Inhabited

end Sys2Proof
end

