-- ==== Sys2Proof/WellFormed.lean ====
section
/-! DEFINITION. Which instructions have an encoding. Operand widths are in the types; what is left is that a
header's word count is at least 1, since W3 holds it minus 1 and `0xFFFFFFFF` is no encoder output
(30_encoding.md R71, R75(f); 41_command_encoder.md R104). A request with a zero word count is well formed: the
block answers it with INVALID_REQUEST (60_exceptions.md R162). -/

namespace Sys2Proof

/-- The check, as a Bool. -/
def Instr.wellFormed : Instr → Bool
  | .checksum _ _ _ => true
  | .encode _ _ _ _ _ _ _ _ => true
  | .read _ _ _ => true
  | .write _ _ _ => true
  | .abandon => true
  | .caMemWriteWrapped _ _ wordCount => wordCount != 0
  | .caMemWriteLinear _ _ wordCount => wordCount != 0
  | .caRegWriteWrapped _ _ wordCount => wordCount != 0
  | .caRegWriteLinear _ _ wordCount => wordCount != 0
  | .caMemReadWrapped _ _ wordCount => wordCount != 0
  | .caMemReadLinear _ _ wordCount => wordCount != 0
  | .caRegReadWrapped _ _ wordCount => wordCount != 0
  | .caRegReadLinear _ _ wordCount => wordCount != 0
  | .ctrlRead _ => true
  | .ctrlWrite _ => true

end Sys2Proof
end

