-- ==== Sys2Proof/Decode.lean ====
section
/-! DEFINITION. The decoder, total on any words and rejecting by name, and after it the encoder, both written
from the tables of 30_encoding.md (R57 to R73). A word alone does not say whether it is a request, a header or a
control word, so the decoder is told the format, which is the table's own column (log 10). -/

namespace Sys2Proof

/-- The three formats of spec/opcode_table.json: a request record, W0 to W3 of a header, W4. -/
inductive Format where
  | request
  | packetCa
  | packetCtrl
  deriving DecidableEq, Repr, Inhabited

/-- Why words are no instruction; the last six are the reasons of `decodeCommand` (41_command_encoder.md R102). -/
inductive DecodeError where
  /-- a reserved op (30_encoding.md R63) -/
  | reservedOp (op : BitVec 4)
  /-- not as many words as the format has, or a one-bit operand that is not 0 or 1 -/
  | shape
  /-- `W0[31:16]` is not `0xFF00` -/
  | marker
  /-- `W1[15:3]` is not 0 -/
  | caReserved
  /-- `W4[15:8]` is not 0 -/
  | ctrlReserved
  /-- `W4[7:0]` is neither `0x00` nor `0xFF` -/
  | pinDir
  /-- `W4[7:0]` and `W0[15]` do not agree -/
  | directionMismatch
  /-- `W3` is `0xFFFFFFFF` -/
  | count
  deriving DecidableEq, Repr, Inhabited

/-! ## Request records (30_encoding.md R56 to R63) -/

/-- A one-bit operand from its word. -/
def bitOf (w : Word) : Option Bool :=
  if w = 0 then some false else if w = 1 then some true else none

/-- How many operand words each op has in the model's record layout (log 9). -/
def operandCount (op : BitVec 4) : Nat :=
  if op = 1 then 4 else if op = 2 then 8 else if op = 3 then 3 else if op = 4 then 3 else 0

def decodeChecksum : List Word → Except DecodeError Instr
  | [base, count, seedLo, seedHi] => .ok (.checksum base count (seedHi ++ seedLo))
  | _ => .error .shape

def decodeEncode : List Word → Except DecodeError Instr
  | [r, rs, lin, address, wordCount, waitCycles, er, ew] =>
    match bitOf r, bitOf rs, bitOf lin with
    | some r, some rs, some lin => .ok (.encode r rs lin address wordCount waitCycles er ew)
    | _, _, _ => .error .shape
  | _ => .error .shape

def decodeRead : List Word → Except DecodeError Instr
  | [address, wordCount, rxbuf] => .ok (.read address wordCount rxbuf)
  | _ => .error .shape

def decodeWrite : List Word → Except DecodeError Instr
  | [address, wordCount, srcbuf] => .ok (.write address wordCount srcbuf)
  | _ => .error .shape

def decodeAbandon : List Word → Except DecodeError Instr
  | [] => .ok .abandon
  | _ => .error .shape

/-- The op codes of 30_encoding.md R57; a reserved op is rejected before any operand is looked at (R63,
60_exceptions.md R166). -/
def decodeRequest (op : BitVec 4) (operands : List Word) : Except DecodeError Instr :=
  if op = 1 then decodeChecksum operands
  else if op = 2 then decodeEncode operands
  else if op = 3 then decodeRead operands
  else if op = 4 then decodeWrite operands
  else if op = 5 then decodeAbandon operands
  else .error (.reservedOp op)

/-! ## Header words (30_encoding.md R66 to R73) -/

/-- The CA kind of the three flags (30_encoding.md R73). -/
def caInstr (ca : Machine.CaFields) : Instr :=
  match ca.read, ca.registerSpace, ca.linearBurst with
  | false, false, false => .caMemWriteWrapped ca.address ca.waitCycles ca.wordCount
  | false, false, true  => .caMemWriteLinear ca.address ca.waitCycles ca.wordCount
  | false, true,  false => .caRegWriteWrapped ca.address ca.waitCycles ca.wordCount
  | false, true,  true  => .caRegWriteLinear ca.address ca.waitCycles ca.wordCount
  | true,  false, false => .caMemReadWrapped ca.address ca.waitCycles ca.wordCount
  | true,  false, true  => .caMemReadLinear ca.address ca.waitCycles ca.wordCount
  | true,  true,  false => .caRegReadWrapped ca.address ca.waitCycles ca.wordCount
  | true,  true,  true  => .caRegReadLinear ca.address ca.waitCycles ca.wordCount

/-- The fields W0 to W3 carry: 13 + 16 + 3 address bits (30_encoding.md R68, R69; 41_command_encoder.md R102). -/
def caFields (w0 w1 w2 w3 : Word) : Machine.CaFields where
  read          := w0.getLsbD 15
  registerSpace := w0.getLsbD 14
  linearBurst   := w0.getLsbD 13
  address       := w0.extractLsb' 0 13 ++ w1.extractLsb' 16 16 ++ w1.extractLsb' 0 3
  waitCycles    := w2
  wordCount     := w3 + 1

/-- W0 to W3 of a header. -/
def decodeCa (w0 w1 w2 w3 : Word) : Except DecodeError Instr :=
  if w0.extractLsb' 16 16 ≠ 0xFF00#16 then .error .marker
  else if w1.extractLsb' 3 13 ≠ 0#13 then .error .caReserved
  else if w3 = 0xFFFFFFFF#32 then .error .count
  else .ok (caInstr (caFields w0 w1 w2 w3))

/-- W4 (30_encoding.md R72). -/
def decodeCtrl (w4 : Word) : Except DecodeError Instr :=
  if w4.extractLsb' 8 8 ≠ 0#8 then .error .ctrlReserved
  else if w4.extractLsb' 0 8 = 0x00#8 then .ok (.ctrlRead (w4.extractLsb' 16 16))
  else if w4.extractLsb' 0 8 = 0xFF#8 then .ok (.ctrlWrite (w4.extractLsb' 16 16))
  else .error .pinDir

/-! ## The decoder -/

/-- The op word of a request: op in bits 3:0, the other bits 0 (log 9). -/
def decodeOpWord (opWord : Word) (operands : List Word) : Except DecodeError Instr :=
  if opWord.extractLsb' 4 28 = 0#28 then decodeRequest (opWord.extractLsb' 0 4) operands else .error .shape

/-- The instruction a list of words is, in the given format. -/
def decode : Format → List Word → Except DecodeError Instr
  | .request, opWord :: operands => decodeOpWord opWord operands
  | .packetCa, [w0, w1, w2, w3] => decodeCa w0 w1 w2 w3
  | .packetCtrl, [w4] => decodeCtrl w4
  | .request, [] => .error .shape
  | .packetCa, _ => .error .shape
  | .packetCtrl, _ => .error .shape

/-- A request record as the decoder's words. -/
def Machine.Request.words (r : Machine.Request) : List Word := r.op.setWidth 32 :: r.operands

/-! ## The encoder -/

/-- Which format an instruction has. -/
def Instr.format : Instr → Format
  | .checksum _ _ _ => .request
  | .encode _ _ _ _ _ _ _ _ => .request
  | .read _ _ _ => .request
  | .write _ _ _ => .request
  | .abandon => .request
  | .caMemWriteWrapped _ _ _ => .packetCa
  | .caMemWriteLinear _ _ _ => .packetCa
  | .caRegWriteWrapped _ _ _ => .packetCa
  | .caRegWriteLinear _ _ _ => .packetCa
  | .caMemReadWrapped _ _ _ => .packetCa
  | .caMemReadLinear _ _ _ => .packetCa
  | .caRegReadWrapped _ _ _ => .packetCa
  | .caRegReadLinear _ _ _ => .packetCa
  | .ctrlRead _ => .packetCtrl
  | .ctrlWrite _ => .packetCtrl

/-- A one-bit operand as a word. -/
def bitWord (b : Bool) : Word := if b then 1 else 0

/-- W0 to W3 from the tables of 30_encoding.md R68 to R71. -/
def encodeCa (ca : Machine.CaFields) : List Word :=
  [ 0xFF00#16 ++ BitVec.ofBool ca.read ++ BitVec.ofBool ca.registerSpace ++ BitVec.ofBool ca.linearBurst
      ++ ca.address.extractLsb' 19 13,
    ca.address.extractLsb' 3 16 ++ 0#13 ++ ca.address.extractLsb' 0 3,
    ca.waitCycles,
    ca.wordCount - 1 ]

/-- W4 from the table of 30_encoding.md R72. -/
def encodeCtrl (entry : BitVec 16) (pinDir : Byte) : List Word := [entry ++ 0#8 ++ pinDir]

/-- The words of a well-formed instruction. -/
def encode : Instr → List Word
  | .checksum base count seed => [1, base, count, seed.extractLsb' 0 32, seed.extractLsb' 32 32]
  | .encode r rs lin address wordCount waitCycles er ew =>
    [2, bitWord r, bitWord rs, bitWord lin, address, wordCount, waitCycles, er, ew]
  | .read address wordCount rxbuf => [3, address, wordCount, rxbuf]
  | .write address wordCount srcbuf => [4, address, wordCount, srcbuf]
  | .abandon => [5]
  | .caMemWriteWrapped a wait wc => encodeCa ⟨false, false, false, a, wait, wc⟩
  | .caMemWriteLinear a wait wc => encodeCa ⟨false, false, true, a, wait, wc⟩
  | .caRegWriteWrapped a wait wc => encodeCa ⟨false, true, false, a, wait, wc⟩
  | .caRegWriteLinear a wait wc => encodeCa ⟨false, true, true, a, wait, wc⟩
  | .caMemReadWrapped a wait wc => encodeCa ⟨true, false, false, a, wait, wc⟩
  | .caMemReadLinear a wait wc => encodeCa ⟨true, false, true, a, wait, wc⟩
  | .caRegReadWrapped a wait wc => encodeCa ⟨true, true, false, a, wait, wc⟩
  | .caRegReadLinear a wait wc => encodeCa ⟨true, true, true, a, wait, wc⟩
  | .ctrlRead entry => encodeCtrl entry 0x00
  | .ctrlWrite entry => encodeCtrl entry 0xFF

/-! ## Words numbered as the opcode table numbers them -/

/-- Word `k` of an instruction whose bits are `w`. -/
def tableWord (w k : Nat) : Word := BitVec.ofNat 32 (w / 2 ^ (32 * k))

/-- The format of a table word: a row of at most 8 bits is a request op; a longer one is a header where its
bits 31:16 are the marker, a request where it is an op code alone, and a control word otherwise (log 10). -/
def tableFormat (nbits w : Nat) : Format :=
  if nbits ≤ 8 then .request
  else if w / 2 ^ 16 % 2 ^ 16 = 0xFF00 then .packetCa
  else if 0 < w ∧ w < 16 then .request
  else .packetCtrl

/-- The whole instruction's words, with operand words of zeros above the row's bits. A request's op is bits 3:0 of
its row. -/
def tableWords (nbits w : Nat) : List Word :=
  match tableFormat nbits w with
  | .request =>
    BitVec.ofNat 32 (w % 16)
      :: (List.range (operandCount (BitVec.ofNat 4 w))).map (fun k => tableWord w (k + 1))
  | .packetCa => (List.range 4).map (tableWord w)
  | .packetCtrl => [tableWord w 0]

/-- The instruction the decoder reads from a row of the opcode table. -/
def decodeTableWord (nbits w : Nat) : Option Instr :=
  match decode (tableFormat nbits w) (tableWords nbits w) with
  | .ok i => some i
  | .error _ => none

end Sys2Proof
end

