-- ==== Sys2Proof/Config.lean ====
section
/-! DEFINITION. The configuration record CFG and the parameters of 00_scope.md R8, and the free values: what
the spec leaves open is an opaque constant, so that nothing can be proved about its value (logs 1, 2, 3, 13,
19, 21, 22). -/

namespace Sys2Proof

/-- Byte order of system memory, OPEN (00_scope.md R8, 20_memory.md R38). -/
inductive ByteOrder where
  | little
  | big
  deriving DecidableEq, Repr, Inhabited

/-- `BEAT_ORDER`, OPEN (00_scope.md R8, 43_external_interfaces.md R157). -/
inductive BeatOrder where
  | lowFirst
  | highFirst
  deriving DecidableEq, Repr, Inhabited

/-- A range of `words` 32-bit words from byte address `base`. -/
structure MemRange where
  base  : Nat
  words : Nat
  deriving DecidableEq, Repr, Inhabited

/-- The configuration record `CFG` (10_state.md R26) with the other parameters of 00_scope.md R8. -/
structure Cfg where
  entryRead     : Word
  entryWrite    : Word
  waitCycles    : Word
  regSpace      : Bool
  linearBurst   : Bool
  xferSeed      : Dword
  txbufBase     : Word
  txbufWords    : Nat
  fifoDepthCmd  : Nat
  fifoDepthData : Nat
  deviceWords   : Nat
  /-- `MEM_ADMITTED`, as the aligned words of these ranges (20_memory.md R40) -/
  memAdmitted   : List MemRange
  sysByteOrder  : ByteOrder
  beatOrder     : BeatOrder
  suInit        : Machine.SuInit
  deriving DecidableEq, Repr, Inhabited

/-- `WC_FIELD_BITS` (00_scope.md R8, 92_eei_decisions.md D30). -/
def Config.wcFieldBits : Nat := 32

/-! The platform's parameters, OPEN (00_scope.md R8). -/

opaque Config.entryRead : Word
opaque Config.entryWrite : Word
opaque Config.waitCycles : Word
opaque Config.xferSeed : Dword
opaque Config.txbufPlace : Nat
opaque Config.txbufExtraWords : Nat
opaque Config.fifoExtraCmd : Nat
opaque Config.fifoExtraData : Nat
opaque Config.deviceWords : Nat
opaque Config.memAdmittedElsewhere : List MemRange
opaque Config.sysByteOrder : ByteOrder
opaque Config.beatOrder : BeatOrder
opaque Config.suInit : Machine.SuInit

/-- The word index of TXBUF: any that leaves room for five words below 2^32. -/
def Config.txbufIndex : Nat := Config.txbufPlace % (2 ^ 30 - 4)

/-- `TXBUF_WORDS`: any count of at least 5 that ends at or below 2^32. -/
def Config.txbufWords : Nat := 5 + Config.txbufExtraWords % (2 ^ 30 - 4 - Config.txbufIndex)

/-- The instance of the platform: every value the bounds of 00_scope.md R8 allow and no other. `REG_SPACE` and
`LINEAR_BURST` have the values R8 gives. -/
def Cfg.ofPlatform : Cfg where
  entryRead     := Config.entryRead
  entryWrite    := Config.entryWrite
  waitCycles    := Config.waitCycles
  regSpace      := false
  linearBurst   := true
  xferSeed      := Config.xferSeed
  txbufBase     := BitVec.ofNat 32 (4 * Config.txbufIndex)
  txbufWords    := Config.txbufWords
  fifoDepthCmd  := 1 + Config.fifoExtraCmd
  fifoDepthData := 1 + Config.fifoExtraData
  deviceWords   := Config.deviceWords
  memAdmitted   := ⟨4 * Config.txbufIndex, Config.txbufWords⟩ :: Config.memAdmittedElsewhere
  sysByteOrder  := Config.sysByteOrder
  beatOrder     := Config.beatOrder
  suInit        := Config.suInit

/-! Free values. -/

/-- Whose move is next where `State.agenda` does not say (00_scope.md R6, 93_implementation_defined.md I24). -/
opaque Config.freeMove : Nat → Machine.Move

/-- What an SU bound only by the weak contract does next (43_external_interfaces.md R143, I16, I20). -/
opaque Config.freeSuAct : Nat → Machine.SuAct

/-- CMD_FIFO after a reset, before it is cut to capacity (10_state.md R33, I17). -/
opaque Config.resetCmdFifo : Nat → List Word

/-- DATA_FIFO after a reset, before it is cut to capacity (10_state.md R33, I17). -/
opaque Config.resetDataFifo : Nat → List Word

/-- System memory outside TXBUF that nothing has written (10_state.md R31, I18). -/
opaque Config.powerOnByte : Nat → Byte

/-- TXBUF bytes nothing has written since the reset with the given draw (70_reset_and_hazards.md R176, I18). -/
opaque Config.txbufByte : Nat → Nat → Byte

/-- Device beats nothing has written since the boot with the given draw (43_external_interfaces.md R157, I19). -/
opaque Config.deviceBeat : Nat → Nat → Beat

end Sys2Proof
end

