-- ==== Sys2Proof/Machine/State.lean ====
section
/-! DEFINITION. The state of the transaction engine (10_state.md R16), the environment's state beside it
(43_external_interfaces.md R145, R157), the model's own fields, and the state after reset (R31). Plain data. -/

namespace Sys2Proof.Machine

/-- The model faults of 60_exceptions.md R164. A step that meets one RECORDS it in `ORC.faults` and answers a
next state, as the spec says ("a mark the model records"); no step of this model ends in a fault outcome. Each is
safe: the request concerned takes no further step (log 5, log 6). -/
inductive Fault where
  /-- `F_UNWRITTEN`: a step reads an unwritten cell (R34); any accessor of a `Cell`, and `start` (R149). Safe. -/
  | unwritten
  /-- `F_MISALIGNED`: a memory access at an address not a multiple of 4 (R37); `memRead`, `memWrite`. Safe. -/
  | misaligned
  /-- `F_OVERLAP`: READ or WRITE accepted with a buffer over the TXBUF words in use (R42); their meanings. Safe. -/
  | overlap
  /-- `F_CHANNEL_BUSY`: `configure` on a busy channel (R148); step 2 of READ and WRITE. Safe. -/
  | channelBusy
  deriving DecidableEq, Repr

/-- Why a step has no meaning. -/
inductive Refusal where
  /-- raised by `exec` for an instruction without a meaning; none is left without one. Safe. -/
  | notModelled (mnemonic : String)
  /-- raised by the fetch of a request whose operands are not those its op has. A request record has exactly the
  operands of 30_encoding.md R58 to R62 and no move puts another on the port, so only states no run reaches raise it.
  Safe (log 26). -/
  | malformedRequest (op : BitVec 4)
  deriving DecidableEq, Repr

/-- The checksum engine's registers (10_state.md R17). -/
structure Ck where
  sum1 : Cell Word
  sum2 : Cell Word
  deriving DecidableEq, Repr

/-- The orchestrator: phase, request latches and fault set (10_state.md R19 to R21). -/
structure Orc where
  phase  : Phase
  op     : Cell Direction
  addr   : Cell Word
  wc     : Cell Word
  n      : Cell Nat
  buf    : Option Word
  result : Cell Dword
  faults : FaultSet
  deriving DecidableEq, Repr

/-- The machine's state. -/
structure State where
  /-- `CFG`, which no step writes (10_state.md R26; log 1) -/
  cfg       : Cfg
  ck        : Ck
  orc       : Orc
  chA       : Channel
  chB       : Channel
  /-- `CS_N` (10_state.md R24): `true` is 1, deselected -/
  csN       : Bool
  /-- `CMD_FIFO`, oldest entry first (10_state.md R25) -/
  cmdFifo   : List Word
  /-- `DATA_FIFO`, oldest entry first (10_state.md R25) -/
  dataFifo  : List Word
  /-- system memory: the bytes written so far, addresses strictly rising (log 12, log 13) -/
  mem       : List Host.Cell
  /-- the request port (10_state.md R28) -/
  reqPort   : Option Request
  /-- the response port (10_state.md R28) -/
  respPort  : Option Response
  /-- the mark `REFUSED_OP(op)` (30_encoding.md R63) -/
  refusedOp : Option (BitVec 4)
  /-- the environment: the signalling unit (log 20) -/
  su        : Su
  /-- the environment: the device's written beats, addresses strictly rising (43_external_interfaces.md R157) -/
  dev       : List (Nat × Beat)
  /-- the model's own: the range (base, words) the host may not touch until the response is taken (log 15) -/
  owned     : Option (Nat × Nat)
  /-- the model's own: the moves already chosen (log 3) -/
  agenda    : List Move
  /-- the model's own: the index of the next free draw -/
  draws     : Nat
  /-- the model's own: the draw behind unlisted TXBUF bytes (log 13) -/
  txEpoch   : Nat
  /-- the model's own: the draw behind unlisted device beats (log 22) -/
  devEpoch  : Nat
  deriving DecidableEq, Repr

/-! ## Reset values (10_state.md R31) -/

/-- `ORC.faults = {}`. -/
def FaultSet.none : FaultSet := ⟨false, false, false, false⟩

def Ck.reset : Ck := ⟨.unwritten, .unwritten⟩

def Orc.reset : Orc where
  phase  := .idle
  op     := .unwritten
  addr   := .unwritten
  wc     := .unwritten
  n      := .unwritten
  buf    := Option.none
  result := .unwritten
  faults := FaultSet.none

def Channel.reset : Channel where
  dir        := .unwritten
  mem        := .unwritten
  fifo       := .unwritten
  remaining  := .unwritten
  autoStart  := .unwritten
  configured := false
  started    := false
  busy       := false

/-- The SU as reset leaves it: not set up, so bound by the weak contract alone (log 20). -/
def Su.unset : Su := ⟨.free, .unwritten, .unwritten, Option.none⟩

/-- The machine right after reset (10_state.md R31). The FIFO contents are free values within capacity (R33);
memory and device list nothing. -/
def State.reset : State where
  cfg       := Cfg.ofPlatform
  ck        := Ck.reset
  orc       := Orc.reset
  chA       := Channel.reset
  chB       := Channel.reset
  csN       := true
  cmdFifo   := (Config.resetCmdFifo 0).take Cfg.ofPlatform.fifoDepthCmd
  dataFifo  := (Config.resetDataFifo 0).take Cfg.ofPlatform.fifoDepthData
  mem       := []
  reqPort   := Option.none
  respPort  := Option.none
  refusedOp := Option.none
  su        := Su.unset
  dev       := []
  owned     := Option.none
  agenda    := []
  draws     := 1
  txEpoch   := 0
  devEpoch  := 0

end Sys2Proof.Machine
end

