-- ==== Sys2Proof/Machine/Ops.lean ====
section
/-! DEFINITION. The shared operations: sorted tables, system memory (20_memory.md), the FIFOs (R53), chip select
(43_external_interfaces.md R146), the ports (30_encoding.md R56, R65), and the two ways an operation goes wrong:
`raise InvalidRequest` and `fault F` (00_scope.md R12). There is no trap entry and no return (60_exceptions.md
R167): raising InvalidRequest is the block's one reported error. -/

namespace Sys2Proof.Machine

/-! ## Sorted tables: memory and the device's beats -/

/-- What a table lists at a key. -/
def Table.read? {β : Type} : List (Nat × β) → Nat → Option β
  | [], _ => none
  | (k, v) :: t, a => if a = k then some v else Table.read? t a

/-- The table with `v` at `a`, keys still rising. -/
def Table.write {β : Type} : List (Nat × β) → Nat → β → List (Nat × β)
  | [], a, v => [(a, v)]
  | (k, w) :: t, a, v =>
    if a < k then (a, v) :: (k, w) :: t
    else if a = k then (a, v) :: t
    else (k, w) :: Table.write t a v

/-- The table without the keys from `lo` to below `hi`. -/
def Table.erase {β : Type} (t : List (Nat × β)) (lo hi : Nat) : List (Nat × β) :=
  t.filter (fun c => !(decide (lo ≤ c.1) && decide (c.1 < hi)))

/-- Keys strictly rising. -/
abbrev Table.Sorted {β : Type} (t : List (Nat × β)) : Prop := (t.map Prod.fst).Pairwise (· < ·)

/-- The canonical form of system memory: addresses strictly rising. An unlisted address holds no value of the
table's, so no entry can equal what one reads as, and equal memories are equal data (log 13). -/
abbrev Memory.wf (m : List Host.Cell) : Prop := Table.Sorted m

/-! ## What one access of an agent can come to -/

/-- An access gives a value; or it is not enabled and its agent has no step (20_memory.md R40, R53); or it
records a fault and has no other effect (R37, 10_state.md R34). -/
inductive Access (α : Type) where
  | ok (v : α)
  | stuck
  | marked (f : Fault)
  deriving DecidableEq, Repr

/-- Accesses one after the other; the first that gives no value decides. -/
def Access.bind {α β : Type} (x : Access α) (g : α → Access β) : Access β :=
  match x with
  | .ok v => g v
  | .stuck => .stuck
  | .marked f => .marked f

/-- Reading a cell (10_state.md R34). -/
def Cell.read {α : Type} : Cell α → Access α
  | .holds v => .ok v
  | .unwritten => .marked .unwritten

/-! ## Faults (60_exceptions.md R164) -/

def FaultSet.add (f : Fault) (x : FaultSet) : FaultSet :=
  match f with
  | .unwritten => { x with unwritten := true }
  | .misaligned => { x with misaligned := true }
  | .overlap => { x with overlap := true }
  | .channelBusy => { x with channelBusy := true }

def FaultSet.has (f : Fault) (x : FaultSet) : Bool :=
  match f with
  | .unwritten => x.unwritten
  | .misaligned => x.misaligned
  | .overlap => x.overlap
  | .channelBusy => x.channelBusy

/-- `fault F` (00_scope.md R12): the mark, and nothing else. -/
def State.recordFault (f : Fault) (s : State) : State :=
  { s with orc := { s.orc with faults := s.orc.faults.add f } }

/-- The state an agent's atomic step leaves: where an access was stuck there is no step; where one recorded a
fault the step has no other effect (log 25, log 29). -/
def State.settle (s : State) : Access State → State
  | .ok t => t
  | .stuck => s
  | .marked f => s.recordFault f

/-! ## System memory (20_memory.md) -/

/-- The bytes of TXBUF (20_memory.md R36). -/
def inTxbuf (c : Cfg) (a : Nat) : Bool :=
  decide (c.txbufBase.toNat ≤ a) && decide (a < c.txbufBase.toNat + 4 * c.txbufWords)

/-- `MEM_ADMITTED` (20_memory.md R40): aligned addresses below 2^32 in one of its ranges. An address computed as
2^32 or more is outside; it does not wrap. -/
def admits (c : Cfg) (a : Nat) : Bool :=
  decide (a < 2 ^ 32) && decide (a % 4 = 0)
    && c.memAdmitted.any (fun r => decide (r.base ≤ a) && decide (a + 4 ≤ r.base + 4 * r.words))

/-- What an address that memory does not list reads as: a free value, fresh at each reset inside TXBUF
(10_state.md R31, 70_reset_and_hazards.md R176; log 13). -/
def State.unlistedByte (s : State) (a : Nat) : Byte :=
  if inTxbuf s.cfg a then Config.txbufByte s.txEpoch a else Config.powerOnByte a

/-- One byte of system memory. -/
def State.byteAt (s : State) (a : Nat) : Byte :=
  match Table.read? s.mem a with
  | some b => b
  | none => s.unlistedByte a

/-- Four bytes at rising addresses as a word, in the system's byte order (20_memory.md R38). -/
def wordOfBytes (o : ByteOrder) (b0 b1 b2 b3 : Byte) : Word :=
  match o with
  | .little => b3 ++ b2 ++ b1 ++ b0
  | .big => b0 ++ b1 ++ b2 ++ b3

/-- A word's four bytes at rising addresses (20_memory.md R38). -/
def bytesOfWord (o : ByteOrder) (v : Word) : List Byte :=
  match o with
  | .little => [v.extractLsb' 0 8, v.extractLsb' 8 8, v.extractLsb' 16 8, v.extractLsb' 24 8]
  | .big => [v.extractLsb' 24 8, v.extractLsb' 16 8, v.extractLsb' 8 8, v.extractLsb' 0 8]

/-- The word at a byte address. -/
def State.wordAt (s : State) (a : Nat) : Word :=
  wordOfBytes s.cfg.sysByteOrder (s.byteAt a) (s.byteAt (a + 1)) (s.byteAt (a + 2)) (s.byteAt (a + 3))

/-- `count` words from a byte address on. -/
def State.wordsAt (s : State) (a count : Nat) : List Word :=
  (List.range count).map (fun i => s.wordAt (a + 4 * i))

/-- Bytes at rising addresses. -/
def Table.writeBytes : List Host.Cell → Nat → List Byte → List Host.Cell
  | m, _, [] => m
  | m, a, b :: bs => Table.writeBytes (Table.write m a b) (a + 1) bs

/-- The state with a word stored. -/
def State.pokeWord (s : State) (a : Nat) (v : Word) : State :=
  { s with mem := Table.writeBytes s.mem a (bytesOfWord s.cfg.sysByteOrder v) }

/-- The state with words stored from a byte address on, in order. -/
def State.pokeWords : State → Nat → List Word → State
  | s, _, [] => s
  | s, a, v :: vs => (s.pokeWord a v).pokeWords (a + 4) vs

/-- The check every access of ORC and the channels passes: alignment (20_memory.md R37), then `MEM_ADMITTED`
(R40). -/
def checkAccess (c : Cfg) (a : Nat) : Access Unit :=
  if a % 4 = 0 then (if admits c a then .ok () else .stuck) else .marked .misaligned

/-- `MemRead(a, 4)` (20_memory.md R37). -/
def memRead (s : State) (a : Nat) : Access Word :=
  (checkAccess s.cfg a).bind fun _ => .ok (s.wordAt a)

/-- `MemWrite(a, 4, v)` (20_memory.md R37). -/
def memWrite (s : State) (a : Nat) (v : Word) : Access State :=
  (checkAccess s.cfg a).bind fun _ => .ok (s.pokeWord a v)

/-- `MemRead` of `count` words in order. -/
def memReadWords (s : State) : Nat → Nat → Access (List Word)
  | _, 0 => .ok []
  | a, count + 1 =>
    (memRead s a).bind fun w => (memReadWords s (a + 4) count).bind fun ws => .ok (w :: ws)

/-- `MemWrite` of words in order. -/
def memWriteWords : State → Nat → List Word → Access State
  | s, _, [] => .ok s
  | s, a, v :: vs => (memWrite s a v).bind fun t => memWriteWords t (a + 4) vs

/-! ## FIFOs (10_state.md R25, 20_memory.md R53) -/

def State.fifo (s : State) : FifoName → List Word
  | .cmd => s.cmdFifo
  | .data => s.dataFifo

def fifoDepth (c : Cfg) : FifoName → Nat
  | .cmd => c.fifoDepthCmd
  | .data => c.fifoDepthData

def State.setFifo (s : State) (f : FifoName) (ws : List Word) : State :=
  match f with
  | .cmd => { s with cmdFifo := ws }
  | .data => { s with dataFifo := ws }

/-- A push is enabled only below capacity (20_memory.md R53). -/
def fifoRoom (s : State) (f : FifoName) : Access Unit :=
  if (s.fifo f).length < fifoDepth s.cfg f then .ok () else .stuck

/-- `FifoPush(F, v)`: appends where there is room (20_memory.md R53). -/
def fifoPush (s : State) (f : FifoName) (v : Word) : Access State :=
  (fifoRoom s f).bind fun _ => .ok (s.setFifo f (s.fifo f ++ [v]))

/-- `FifoPop(F)`: enabled only when an entry is there; removes and returns the oldest (20_memory.md R53). -/
def fifoPop (s : State) (f : FifoName) : Access (Word × State) :=
  match s.fifo f with
  | [] => .stuck
  | v :: rest => .ok (v, s.setFifo f rest)

/-! ## Chip select (43_external_interfaces.md R146) -/

/-- `select()`: CS_N to 0. -/
def State.select (s : State) : State := { s with csN := false }

/-- `deselect()`: CS_N to 1. -/
def State.deselect (s : State) : State := { s with csN := true }

/-! ## Ports -/

/-- Status OK (30_encoding.md R65). -/
def statusOk : Byte := 0x00

/-- Status INVALID_REQUEST (30_encoding.md R65). -/
def statusInvalid : Byte := 0x01

/-- The reason codes of 60_exceptions.md R162. -/
def reasonZeroWordcount : Byte := 0x01
def reasonMisalignedBuffer : Byte := 0x02
def reasonTooLong : Byte := 0x03
def reasonNotInFlight : Byte := 0x04

/-- `respond(status, payload)` (30_encoding.md R65). -/
def State.respond (status : Byte) (payload : Payload) (s : State) : State :=
  { s with respPort := some ⟨status, payload⟩ }

/-- The request leaves the port: it has been taken (42_orchestrator.md R111). -/
def State.takeRequest (s : State) : State := { s with reqPort := none }

/-- `raise InvalidRequest(reason)`, the one shared error operation (00_scope.md R12, 60_exceptions.md R162): the
request is taken and answered, and no other state changes. -/
def State.raiseInvalid (reason : Byte) (s : State) : State :=
  s.takeRequest.respond statusInvalid (.reason reason)

end Sys2Proof.Machine
end

