-- ==== Sys2Proof/Machine/Flags.lean ====
section
/-! DEFINITION. The status bits the block reads (10_state.md R27): the channels' finish flags and ORC.phase; and
when the orchestrator may step at all. The block has no arithmetic flags. -/

namespace Sys2Proof.Machine

/-- `finish(c)` (43_external_interfaces.md R152, 10_state.md R23). -/
def Channel.finish (c : Channel) : Bool := c.started && !c.busy

/-- The phases in which a transaction holds the device selected (10_state.md R35(a)). -/
def Phase.open : Phase → Bool
  | .idle => false
  | .selected => true
  | .armed => true
  | .inflight => true
  | .completed => true
  | .abandoned => false

/-- A mark after which the orchestrator takes no step until reset (log 5): `F_UNWRITTEN`, `F_MISALIGNED` and
`F_CHANNEL_BUSY` arise in a request under way, which goes no further (60_exceptions.md R164), and after
`REFUSED_OP` the model does not step further (R168). `F_OVERLAP` concerns a request already off the port, and
hinders no other (R164). -/
def State.halted (s : State) : Bool :=
  s.orc.faults.unwritten || s.orc.faults.misaligned || s.orc.faults.channelBusy || s.refusedOp.isSome

/-- When ORC takes any request: IDLE and an empty response port (42_orchestrator.md R111). -/
def State.accepting (s : State) : Bool :=
  !s.halted && decide (s.orc.phase = .idle) && s.respPort.isNone

/-- When ORC takes ABANDON besides (42_orchestrator.md R111, R132). -/
def State.abandonable (s : State) : Bool := !s.halted && decide (s.orc.phase = .inflight)

end Sys2Proof.Machine
end

