-- ==== Sys2Proof/Machine/Operands.lean ====
section
/-! DEFINITION. The operand forms of the requests: word counts, buffer ranges, and the checks at acceptance
(00_scope.md R13, 20_memory.md R42, R43, 42_orchestrator.md R113, R115, R125, 60_exceptions.md R166). -/

namespace Sys2Proof.Machine

/-- `N = wc div 2` (00_scope.md R13). -/
def payloadWords (wordCount : Word) : Nat := wordCount.toNat / 2

/-- A buffer base is a multiple of 4 (20_memory.md R43). -/
def aligned (base : Word) : Bool := decide (base.toNat % 4 = 0)

/-- Whether `la` bytes from `a` meet `lb` bytes from `b`; an empty range meets nothing (42_orchestrator.md R115). -/
def rangesOverlap (a la b lb : Nat) : Bool :=
  decide (0 < la) && decide (0 < lb) && decide (a < b + lb) && decide (b < a + la)

/-- How a READ or WRITE fares at acceptance. -/
inductive Verdict where
  | accept
  | reject (reason : Byte)
  | overlap
  deriving DecidableEq, Repr

/-- READ (42_orchestrator.md R113, R115): zero count, alignment, overlap with TXBUF words 0 to 4, in that order. -/
def validateRead (c : Cfg) (wordCount rxbuf : Word) : Verdict :=
  if wordCount = 0 then .reject reasonZeroWordcount
  else if !aligned rxbuf then .reject reasonMisalignedBuffer
  else if rangesOverlap rxbuf.toNat (4 * payloadWords wordCount) c.txbufBase.toNat 20 then .overlap
  else .accept

/-- WRITE (42_orchestrator.md R113, R125): zero count, alignment, length, overlap with TXBUF words 0 to 4+N, in
that order. -/
def validateWrite (c : Cfg) (wordCount srcbuf : Word) : Verdict :=
  if wordCount = 0 then .reject reasonZeroWordcount
  else if !aligned srcbuf then .reject reasonMisalignedBuffer
  else if c.txbufWords < 5 + payloadWords wordCount then .reject reasonTooLong
  else if rangesOverlap srcbuf.toNat (4 * payloadWords wordCount) c.txbufBase.toNat
      (4 * (5 + payloadWords wordCount)) then .overlap
  else .accept

end Sys2Proof.Machine
end

