-- ==== Sys2Proof/Machine/Channels.lean ====
section
/-! DEFINITION. The hardware channels (43_external_interfaces.md R147 to R154): configure, start, and the move of
one word. -/

namespace Sys2Proof.Machine

/-- A channel's descriptor. -/
def State.channel (s : State) : ChannelId → Channel
  | .chA => s.chA
  | .chB => s.chB

/-- The state with one channel's descriptor replaced. -/
def State.setChannel (s : State) (c : ChannelId) (x : Channel) : State :=
  match c with
  | .chA => { s with chA := x }
  | .chB => { s with chB := x }

/-- The descriptor `start` leaves (43_external_interfaces.md R149, R153): one with nothing to move is not busy. -/
def Channel.startWith (remaining : Nat) (x : Channel) : Channel :=
  { x with started := true, busy := decide (0 < remaining) }

/-- `start` of one channel: an unconfigured channel's `remaining` is an unwritten read (R149). -/
def startChannel (s : State) (c : ChannelId) : Access State :=
  if (s.channel c).configured then
    (s.channel c).remaining.read.bind fun r => .ok (s.setChannel c ((s.channel c).startWith r))
  else .marked .unwritten

/-- `start(S)`: every channel of the set in one atomic step (43_external_interfaces.md R149). -/
def startChannels : State → List ChannelId → Access State
  | s, [] => .ok s
  | s, c :: cs => (startChannel s c).bind fun t => startChannels t cs

/-- The descriptor `configure` writes, before any start (43_external_interfaces.md R147). -/
def configured (dir : ChannelDir) (mem : Nat) (fifo : FifoName) (transferCount : Nat) (autoStart : Bool) :
    Channel where
  dir        := .holds dir
  mem        := .holds mem
  fifo       := .holds fifo
  remaining  := .holds transferCount
  autoStart  := .holds autoStart
  configured := true
  started    := false
  busy       := false

/-- `configure(c, ...)` (43_external_interfaces.md R147): a busy channel records `F_CHANNEL_BUSY` and is left as it
was (R148); `autoStart` starts the channel in the same step (R154). The memory end and the FIFO end are given as
such, whichever of source and destination they are. -/
def configure (c : ChannelId) (dir : ChannelDir) (mem : Nat) (fifo : FifoName) (transferCount : Nat)
    (autoStart : Bool) (s : State) : State :=
  if (s.channel c).busy then s.recordFault .channelBusy
  else if autoStart then
    s.setChannel c ((configured dir mem fifo transferCount autoStart).startWith transferCount)
  else s.setChannel c (configured dir mem fifo transferCount autoStart)

/-- The descriptor after one word has moved (43_external_interfaces.md R150, R151). -/
def Channel.moved (mem remaining : Nat) (x : Channel) : Channel :=
  { x with mem := .holds (mem + 4), remaining := .holds (remaining - 1), busy := decide (0 < remaining - 1) }

/-- One word's move: from memory to the FIFO, enabled while the FIFO has room (43_external_interfaces.md R150);
or from the FIFO to memory, enabled while it holds an entry, where a stuck write pops nothing (R151). The cells are read
in the order of the pseudocode: the enabling condition first, then the address, then the count (log 32). -/
def moveWord (s : State) (c : ChannelId) : Access State :=
  (s.channel c).dir.read.bind fun dir =>
  (s.channel c).fifo.read.bind fun fifo =>
  match dir with
  | .memToFifo =>
    (fifoRoom s fifo).bind fun _ =>
    (s.channel c).mem.read.bind fun mem =>
    (memRead s mem).bind fun v => (fifoPush s fifo v).bind fun t =>
    (s.channel c).remaining.read.bind fun remaining =>
    .ok (t.setChannel c ((s.channel c).moved mem remaining))
  | .fifoToMem =>
    (fifoPop s fifo).bind fun vt =>
    (s.channel c).mem.read.bind fun mem =>
    (memWrite vt.2 mem vt.1).bind fun t =>
    (s.channel c).remaining.read.bind fun remaining =>
    .ok (t.setChannel c ((s.channel c).moved mem remaining))

/-- A channel's step; one that is not busy has none. -/
def channelStep (c : ChannelId) (s : State) : State :=
  if (s.channel c).busy then s.settle (moveWord s c) else s

end Sys2Proof.Machine
end

