-- ==== Sys2Proof/Machine/Checksum.lean ====
section
/-! DEFINITION. The ChecksumEngine (40_checksum.md) and the CHECKSUM request. -/

namespace Sys2Proof.Machine

/-- Two running sums (10_state.md R17). -/
abbrev Sums := Word × Word

/-- CK_SEED on the sums: `sum1` takes the low half (40_checksum.md R76, R77). -/
def sumsOfSeed (seed : Dword) : Sums := (seed.extractLsb' 0 32, seed.extractLsb' 32 32)

/-- CK_ACCUM on the sums: `sum2` adds the `sum1` just written; both wrap (40_checksum.md R78). -/
def sumsAccum (x : Sums) (w : Word) : Sums := (x.1 + w, x.2 + (x.1 + w))

/-- CK_RESULT on the sums: each reduced once, `sum2` in the high half (40_checksum.md R79). -/
def sumsResult (x : Sums) : Dword := (x.2 % 0xFFFFFFFF#32) ++ (x.1 % 0xFFFFFFFF#32)

/-- The sums after `words` from `seed`, in order (40_checksum.md R80). -/
def finalSums (words : List Word) (seed : Dword) : Sums := words.foldl sumsAccum (sumsOfSeed seed)

/-- `fletcher64(words, seed)` (40_checksum.md R80). -/
def fletcher64 (words : List Word) (seed : Dword) : Dword := sumsResult (finalSums words seed)

/-! ## The registers -/

/-- The registers holding two sums. -/
def Ck.ofSums (x : Sums) : Ck := ⟨.holds x.1, .holds x.2⟩

/-- CK_SEED (40_checksum.md R77). -/
def ckSeed (seed : Dword) : Ck := Ck.ofSums (sumsOfSeed seed)

/-- The sums the registers hold; reading an unwritten one records `F_UNWRITTEN` (10_state.md R34). -/
def Ck.sums (ck : Ck) : Access Sums :=
  ck.sum1.read.bind fun a => ck.sum2.read.bind fun b => .ok (a, b)

/-- CK_ACCUM (40_checksum.md R78). -/
def ckAccum (ck : Ck) (w : Word) : Access Ck :=
  ck.sums.bind fun x => .ok (Ck.ofSums (sumsAccum x w))

/-- CK_ACCUM of words in order. -/
def ckAccumAll : Ck → List Word → Access Ck
  | ck, [] => .ok ck
  | ck, w :: ws => (ckAccum ck w).bind fun ck' => ckAccumAll ck' ws

/-- CK_RESULT: reads, and does not write (40_checksum.md R79). -/
def ckResult (ck : Ck) : Access Dword := ck.sums.bind fun x => .ok (sumsResult x)

/-! ## CHECKSUM -/

/-- CHECKSUM (40_checksum.md R84): one step, in IDLE with the response port empty. The words are read before the
sums run over them, which nothing can tell from reading one at a time, as the step writes no memory. The range is
the host's duty until it takes the response (log 15). -/
def execChecksum (base count : Word) (seed : Dword) (s : State) : Host.Outcome State Fault Refusal :=
  .next <|
    if !s.accepting then s
    else if !aligned base then s.raiseInvalid reasonMisalignedBuffer
    else s.settle <|
      (memReadWords s base.toNat count.toNat).bind fun words =>
      (ckAccumAll (ckSeed seed) words).bind fun ck =>
      (ckResult ck).bind fun r =>
      .ok (State.respond statusOk (.checksum r)
        { s.takeRequest with ck := ck, owned := some (base.toNat, count.toNat) })

end Sys2Proof.Machine
end

