-- ==== Sys2Proof/Machine/Encoder.lean ====
section
/-! DEFINITION. The CommandEncoder (41_command_encoder.md): the CA field, `buildCommand`, the decoder of the
round-trip law, and the ENCODE request. -/

namespace Sys2Proof.Machine

/-- One flag bit as a 48-bit number. -/
def flagBit (b : Bool) : BitVec 48 := (BitVec.ofBool b).setWidth 48

/-- The CA field (41_command_encoder.md R92 to R94, R100). -/
def caField (read registerSpace linearBurst : Bool) (address : Word) : BitVec 48 :=
  (flagBit read <<< 47) ||| (flagBit registerSpace <<< 46) ||| (flagBit linearBurst <<< 45)
    ||| ((address.extractLsb' 3 29).setWidth 48 <<< 16) ||| (address.extractLsb' 0 3).setWidth 48

/-- W0 (41_command_encoder.md R95). -/
def packetW0 (ca : BitVec 48) : Word :=
  (0xFF00#32 <<< 16) ||| (ca.extractLsb' 16 32 >>> 16)

/-- W1 (41_command_encoder.md R96): from `ca_hi32` and the lane value `ca_lo32`. -/
def packetW1 (ca : BitVec 48) : Word :=
  (ca.extractLsb' 16 32 <<< 16) ||| (((ca.extractLsb' 0 16).setWidth 32 <<< 16) >>> 16)

/-- The pin-direction mask (41_command_encoder.md R99): inputs for a read, outputs for a write. -/
def pinMask (read : Bool) : Byte := if read then 0x00 else 0xFF

/-- W4 (41_command_encoder.md R99); entry bits above 15 are lost (R105). -/
def packetW4 (read : Bool) (entryOffsetRead entryOffsetWrite : Word) : Word :=
  ((if read then entryOffsetRead else entryOffsetWrite) <<< 16) ||| (pinMask read).setWidth 32

/-- `buildCommand` (41_command_encoder.md R100): W2 is the literal wait count (R97), W3 is `wordCount -32 1`
(R98). -/
def buildCommand (read registerSpace linearBurst : Bool)
    (address wordCount waitCycles entryOffsetRead entryOffsetWrite : Word) : CommandPacket where
  w0 := packetW0 (caField read registerSpace linearBurst address)
  w1 := packetW1 (caField read registerSpace linearBurst address)
  w2 := waitCycles
  w3 := wordCount - 1
  w4 := packetW4 read entryOffsetRead entryOffsetWrite

/-- The five words in the order they are staged and streamed (30_encoding.md R66, R74). -/
def CommandPacket.toList (p : CommandPacket) : List Word := [p.w0, p.w1, p.w2, p.w3, p.w4]

/-- What `decodeCommand` returns (41_command_encoder.md R102). -/
structure DecodedCommand where
  read          : Bool
  registerSpace : Bool
  linearBurst   : Bool
  address       : Word
  wordCount     : Word
  waitCycles    : Word
  entry         : BitVec 16
  mask          : Byte
  deriving DecidableEq, Repr

/-- `decodeCommand` (41_command_encoder.md R102), its checks in the order listed. A device of the spec for tests
and claims; the block does not contain it. -/
def decodeCommand (p : CommandPacket) : Except DecodeError DecodedCommand :=
  if p.w0.extractLsb' 16 16 ≠ 0xFF00#16 then .error .marker
  else if p.w1.extractLsb' 3 13 ≠ 0#13 then .error .caReserved
  else if p.w4.extractLsb' 8 8 ≠ 0#8 then .error .ctrlReserved
  else if p.w4.extractLsb' 0 8 ≠ 0x00#8 ∧ p.w4.extractLsb' 0 8 ≠ 0xFF#8 then .error .pinDir
  else if decide (p.w4.extractLsb' 0 8 = 0x00#8) ≠ p.w0.getLsbD 15 then .error .directionMismatch
  else if p.w3 = 0xFFFFFFFF#32 then .error .count
  else .ok
    { read          := p.w0.getLsbD 15
      registerSpace := p.w0.getLsbD 14
      linearBurst   := p.w0.getLsbD 13
      address       := p.w0.extractLsb' 0 13 ++ p.w1.extractLsb' 16 16 ++ p.w1.extractLsb' 0 3
      wordCount     := p.w3 + 1
      waitCycles    := p.w2
      entry         := p.w4.extractLsb' 16 16
      mask          := p.w4.extractLsb' 0 8 }

/-- ENCODE (41_command_encoder.md R101): one step, in IDLE with the response port empty; no channel, FIFO, memory
or CS_N is touched. -/
def execEncode (read registerSpace linearBurst : Bool)
    (address wordCount waitCycles entryOffsetRead entryOffsetWrite : Word) (s : State) :
    Host.Outcome State Fault Refusal :=
  .next <|
    if !s.accepting then s
    else if wordCount = 0 then s.raiseInvalid reasonZeroWordcount
    else s.takeRequest.respond statusOk (.words (buildCommand read registerSpace linearBurst address wordCount
      waitCycles entryOffsetRead entryOffsetWrite))

end Sys2Proof.Machine
end

