-- ==== Sys2Proof/Machine/Orchestrator.lean ====
section
/-! DEFINITION. The TransferOrchestrator (42_orchestrator.md): READ, WRITE and ABANDON as they are taken from the
port, and steps 2 to 5 of an open transaction. -/

namespace Sys2Proof.Machine

/-- `ORC.phase <- p`. -/
def State.setPhase (p : Phase) (s : State) : State := { s with orc := { s.orc with phase := p } }

/-- The header of a transaction: CFG's flags, wait count and entries (42_orchestrator.md R117, R126). -/
def transactionHeader (c : Cfg) (read : Bool) (address wordCount : Word) : CommandPacket :=
  buildCommand read c.regSpace c.linearBurst address wordCount c.waitCycles c.entryRead c.entryWrite

/-! ## READ, step 1 -/

/-- The latches READ writes (42_orchestrator.md R116). -/
def latchRead (address wordCount rxbuf : Word) (o : Orc) : Orc :=
  { o with
    op := .holds .read, addr := .holds address, wc := .holds wordCount,
    n := .holds (payloadWords wordCount), buf := some rxbuf }

/-- READ step 1 (42_orchestrator.md R116, R117): latch, stage the packet, select. -/
def readStep1 (address wordCount rxbuf : Word) (s : State) : Access State :=
  (memWriteWords s s.cfg.txbufBase.toNat (transactionHeader s.cfg true address wordCount).toList).bind fun t =>
  .ok (State.setPhase .selected (State.select
    { t.takeRequest with
      orc := latchRead address wordCount rxbuf t.orc
      owned := some (rxbuf.toNat, payloadWords wordCount) }))

/-- READ as ORC takes it (42_orchestrator.md R111 to R117). -/
def execRead (address wordCount rxbuf : Word) (s : State) : Host.Outcome State Fault Refusal :=
  .next <|
    if !s.accepting then s
    else match validateRead s.cfg wordCount rxbuf with
      | .reject reason => s.raiseInvalid reason
      | .overlap => s.takeRequest.recordFault .overlap
      | .accept => s.settle (readStep1 address wordCount rxbuf s)

/-! ## WRITE, step 1 -/

/-- The latches WRITE writes (42_orchestrator.md R125). -/
def latchWrite (address wordCount : Word) (o : Orc) : Orc :=
  { o with
    op := .holds .write, addr := .holds address, wc := .holds wordCount,
    n := .holds (payloadWords wordCount), buf := none }

/-- WRITE step 1 (42_orchestrator.md R125, R126): latch, stage header and payload, checksum the payload, select.
The payload is read before the staging; validation has shown that the two ranges do not meet, so nothing can tell
(DEDUCED, log 29). -/
def writeStep1 (address wordCount srcbuf : Word) (s : State) : Access State :=
  (memReadWords s srcbuf.toNat (payloadWords wordCount)).bind fun payload =>
  (memWriteWords s s.cfg.txbufBase.toNat
    ((transactionHeader s.cfg false address wordCount).toList ++ payload)).bind fun t =>
  (ckAccumAll (ckSeed s.cfg.xferSeed) payload).bind fun ck =>
  (ckResult ck).bind fun r =>
  .ok (State.setPhase .selected (State.select
    { t.takeRequest with
      ck := ck
      orc := { latchWrite address wordCount t.orc with result := .holds r } }))

/-- WRITE as ORC takes it (42_orchestrator.md R111 to R113, R124 to R126). -/
def execWrite (address wordCount srcbuf : Word) (s : State) : Host.Outcome State Fault Refusal :=
  .next <|
    if !s.accepting then s
    else match validateWrite s.cfg wordCount srcbuf with
      | .reject reason => s.raiseInvalid reason
      | .overlap => s.takeRequest.recordFault .overlap
      | .accept => s.settle (writeStep1 address wordCount srcbuf s)

/-! ## ABANDON -/

/-- ABANDON (42_orchestrator.md R132): in INFLIGHT it releases chip select and the transaction is abandoned, the
channels as they were; in IDLE it is INVALID_REQUEST; elsewhere it waits on the port (R111). -/
def execAbandon (s : State) : Host.Outcome State Fault Refusal :=
  .next <|
    if s.abandonable then
      State.respond statusOk .empty (State.setPhase .abandoned s.takeRequest.deselect)
    else if s.accepting then s.raiseInvalid reasonNotInFlight
    else s

/-! ## Steps 2 to 5 -/

/-- `ORC.buf` where a step needs an address: `none` there is no written address (log 8). -/
def Orc.bufAddress (o : Orc) : Access Word :=
  match o.buf with
  | some b => .ok b
  | none => .marked .unwritten

/-- READ step 2 (42_orchestrator.md R118): configure chA, then chB, both with `autoStart = 0`; a busy one stops the
step with `F_CHANNEL_BUSY` (43_external_interfaces.md R147, R148; log 24) before a latch is read (log 32). -/
def readStep2 (s : State) : Access State :=
  let a := configure .chA .memToFifo s.cfg.txbufBase.toNat .cmd 5 false s
  if s.chA.busy then .ok a
  else if s.chB.busy then .ok (a.recordFault .channelBusy)
  else
    s.orc.n.read.bind fun n =>
    s.orc.bufAddress.bind fun buf =>
    .ok ((configure .chB .fifoToMem buf.toNat .data n false a).setPhase .armed)

/-- WRITE step 2 (42_orchestrator.md R127): configure chA alone; a busy one stops the step before `ORC.n` is read
(43_external_interfaces.md R147; log 32). -/
def writeStep2 (s : State) : Access State :=
  if s.chA.busy then .ok (s.recordFault .channelBusy)
  else
    s.orc.n.read.bind fun n =>
    .ok ((configure .chA .memToFifo s.cfg.txbufBase.toNat .cmd (5 + n) false s).setPhase .armed)

/-- The channels a transaction starts in step 3 (42_orchestrator.md R119, R128). -/
def startedChannels : Direction → List ChannelId
  | .read => [.chA, .chB]
  | .write => [.chA]

/-- The channel step 4 watches (42_orchestrator.md R120, R129). -/
def watchedChannel : Direction → ChannelId
  | .read => .chB
  | .write => .chA

/-- Step 3 (42_orchestrator.md R119, R128). -/
def step3 (d : Direction) (s : State) : Access State :=
  (startChannels s (startedChannels d)).bind fun t => .ok (t.setPhase .inflight)

/-- Step 4 (42_orchestrator.md R120, R129): hold until the watched channel has finished. -/
def step4 (d : Direction) (s : State) : Access State :=
  if (s.channel (watchedChannel d)).finish then .ok (s.setPhase .completed) else .stuck

/-- The `n` words a READ received (42_orchestrator.md R121); for `n = 0` its loop reads neither memory nor
`ORC.buf`. -/
def receivedWords (s : State) (n : Nat) : Access (List Word) :=
  if n = 0 then .ok [] else s.orc.bufAddress.bind fun buf => memReadWords s buf.toNat n

/-- READ step 5 (42_orchestrator.md R121): deselect, checksum the received words, respond. -/
def readStep5 (s : State) : Access State :=
  s.orc.n.read.bind fun n =>
  (receivedWords s n).bind fun words =>
  (ckAccumAll (ckSeed s.cfg.xferSeed) words).bind fun ck =>
  (ckResult ck).bind fun r =>
  .ok (State.respond statusOk (.checksum r)
    { s.deselect with ck := ck, orc := { s.orc with result := .holds r, buf := none, phase := .idle } })

/-- WRITE step 5 (42_orchestrator.md R130): deselect, respond with the latched checksum. -/
def writeStep5 (s : State) : Access State :=
  s.orc.result.read.bind fun r =>
  .ok (State.respond statusOk (.checksum r) (State.setPhase .idle s.deselect))

/-- The step of an open transaction, by phase and direction (42_orchestrator.md R134, R138). IDLE and ABANDONED
have none. -/
def transactionStep (s : State) : Access State :=
  match s.orc.phase with
  | .idle => .stuck
  | .abandoned => .stuck
  | .selected => s.orc.op.read.bind fun d =>
    match d with
    | .read => readStep2 s
    | .write => writeStep2 s
  | .armed => s.orc.op.read.bind fun d => step3 d s
  | .inflight => s.orc.op.read.bind fun d => step4 d s
  | .completed => s.orc.op.read.bind fun d =>
    match d with
    | .read => readStep5 s
    | .write => writeStep5 s

/-- ORC's move on an open transaction; none once a mark stops it (60_exceptions.md R164; log 5). -/
def orcAdvance (s : State) : State := if s.halted then s else s.settle (transactionStep s)

end Sys2Proof.Machine
end

