-- ==== Sys2Proof/Machine/SignallingUnit.lean ====
section
/-! DEFINITION. The signalling unit and the device behind it (43_external_interfaces.md R142 to R145, R157): the
meanings of the CA and control words it takes, the data phase of the ideal SU, and the moves of an SU bound by the
weak contract alone. The SU touches CMD_FIFO, DATA_FIFO, DEV and its own state, nothing else (R143(c)). -/

namespace Sys2Proof.Machine

/-! ## The device (43_external_interfaces.md R157) -/

/-- A beat of the device; one that nothing has written is a free value. -/
def State.beatAt (s : State) (a : Nat) : Beat :=
  match Table.read? s.dev a with
  | some b => b
  | none => Config.deviceBeat s.devEpoch a

/-- Two consecutive beats as a word, in `BEAT_ORDER`. -/
def pack (o : BeatOrder) (b0 b1 : Beat) : Word :=
  match o with
  | .lowFirst => b1 ++ b0
  | .highFirst => b0 ++ b1

/-- The two beats of a word, the one at the lower address first: the inverse of `pack`. -/
def unpack (o : BeatOrder) (w : Word) : Beat × Beat :=
  match o with
  | .lowFirst => (w.extractLsb' 0 16, w.extractLsb' 16 16)
  | .highFirst => (w.extractLsb' 16 16, w.extractLsb' 0 16)

/-- The device word read as two beats from `a`. -/
def State.deviceWord (s : State) (a : Nat) : Word := pack s.cfg.beatOrder (s.beatAt a) (s.beatAt (a + 1))

/-- The device with a word's two beats stored from `a`. -/
def State.storeBeats (s : State) (a : Nat) (w : Word) : State :=
  { s with
    dev := Table.write (Table.write s.dev a (unpack s.cfg.beatOrder w).1) (a + 1) (unpack s.cfg.beatOrder w).2 }

/-! ## Commands -/

def State.setSuPhase (p : SuPhase) (s : State) : State := { s with su := { s.su with phase := p } }

/-- Whether the ideal SU of R145 is defined for a command: the mask agrees with RW, an even word count, memory
space, a linear burst, and every beat on the device. For any other nothing beyond R143 may be assumed (R145, R46,
91_not_in_source.md N11; log 21, log 22). DESIGN CHOICE, unsafe for an instance with more than 2^32 beats, which R8
does not rule out and which DEV's u32 keys (R157) cannot hold: there a command that passes beat 2^32 - 1 neither wraps
nor stops, and its further beats lie at the natural addresses from 2^32 on (log 22). -/
def idealFor (c : Cfg) (read : Bool) (ca : CaFields) : Bool :=
  decide (ca.read = read) && decide (ca.wordCount.toNat % 2 = 0) && decide (ca.wordCount ≠ 0)
    && !ca.registerSpace && ca.linearBurst
    && decide (ca.address.toNat + ca.wordCount.toNat ≤ c.deviceWords)

/-- The data phase after W4 (43_external_interfaces.md R145(b), (c)). -/
def dataPhase (c : Cfg) (read : Bool) : SuPhase → SuPhase
  | .command ca =>
    if idealFor c read ca then
      if read then .pushing ca.address.toNat (payloadWords ca.wordCount)
      else .popping ca.address.toNat (payloadWords ca.wordCount)
    else .free
  | .header _ => .free
  | .pushing _ _ => .free
  | .popping _ _ => .free
  | .free => .free

/-- The SU takes W0 to W3 of a header: it holds the command and awaits W4 (R145(a)). -/
def takeCa (ca : CaFields) (s : State) : State := s.setSuPhase (.command ca)

/-- The SU takes W4 of any command, ideal or not (43_external_interfaces.md R144): the jump target, the pin direction, and
the data phase. -/
def takeCtrl (read : Bool) (entry : BitVec 16) (s : State) : State :=
  { s with su := { s.su with
      jump := .holds entry, pinDir := .holds (pinMask read), phase := dataPhase s.cfg read s.su.phase } }

/-- CA_MEM_WRITE_WRAPPED (30_encoding.md R73). -/
def execCaMemWriteWrapped (address waitCycles wordCount : Word) (s : State) : Host.Outcome State Fault Refusal :=
  .next (takeCa ⟨false, false, false, address, waitCycles, wordCount⟩ s)

/-- CA_MEM_WRITE_LINEAR (30_encoding.md R73). -/
def execCaMemWriteLinear (address waitCycles wordCount : Word) (s : State) : Host.Outcome State Fault Refusal :=
  .next (takeCa ⟨false, false, true, address, waitCycles, wordCount⟩ s)

/-- CA_REG_WRITE_WRAPPED (30_encoding.md R73). -/
def execCaRegWriteWrapped (address waitCycles wordCount : Word) (s : State) : Host.Outcome State Fault Refusal :=
  .next (takeCa ⟨false, true, false, address, waitCycles, wordCount⟩ s)

/-- CA_REG_WRITE_LINEAR (30_encoding.md R73). -/
def execCaRegWriteLinear (address waitCycles wordCount : Word) (s : State) : Host.Outcome State Fault Refusal :=
  .next (takeCa ⟨false, true, true, address, waitCycles, wordCount⟩ s)

/-- CA_MEM_READ_WRAPPED (30_encoding.md R73). -/
def execCaMemReadWrapped (address waitCycles wordCount : Word) (s : State) : Host.Outcome State Fault Refusal :=
  .next (takeCa ⟨true, false, false, address, waitCycles, wordCount⟩ s)

/-- CA_MEM_READ_LINEAR (30_encoding.md R73). -/
def execCaMemReadLinear (address waitCycles wordCount : Word) (s : State) : Host.Outcome State Fault Refusal :=
  .next (takeCa ⟨true, false, true, address, waitCycles, wordCount⟩ s)

/-- CA_REG_READ_WRAPPED (30_encoding.md R73). -/
def execCaRegReadWrapped (address waitCycles wordCount : Word) (s : State) : Host.Outcome State Fault Refusal :=
  .next (takeCa ⟨true, true, false, address, waitCycles, wordCount⟩ s)

/-- CA_REG_READ_LINEAR (30_encoding.md R73). -/
def execCaRegReadLinear (address waitCycles wordCount : Word) (s : State) : Host.Outcome State Fault Refusal :=
  .next (takeCa ⟨true, true, true, address, waitCycles, wordCount⟩ s)

/-- CTRL_READ (30_encoding.md R72, 43_external_interfaces.md R144). -/
def execCtrlRead (entry : BitVec 16) (s : State) : Host.Outcome State Fault Refusal :=
  .next (takeCtrl true entry s)

/-- CTRL_WRITE (30_encoding.md R72, 43_external_interfaces.md R144). -/
def execCtrlWrite (entry : BitVec 16) (s : State) : Host.Outcome State Fault Refusal :=
  .next (takeCtrl false entry s)

/-! ## The SU's other moves -/

/-- The phase once a data word has moved; a command done, the SU takes the next header. -/
def dataPhaseNext (mk : Nat → Nat → SuPhase) (addr left : Nat) : SuPhase :=
  if left - 1 = 0 then .header [] else mk (addr + 2) (left - 1)

/-- A read's next word: pushed once DATA_FIFO has room (43_external_interfaces.md R145(b), (d)). -/
def suPushWord (addr left : Nat) (s : State) : State :=
  s.settle <| (fifoPush s .data (s.deviceWord addr)).bind fun t =>
    .ok (t.setSuPhase (dataPhaseNext .pushing addr left))

/-- A write's next word: popped once CMD_FIFO has one, and stored (43_external_interfaces.md R145(c), (d)). -/
def suPopWord (addr left : Nat) (s : State) : State :=
  s.settle <| (fifoPop s .cmd).bind fun vt =>
    .ok ((vt.2.storeBeats addr vt.1).setSuPhase (dataPhaseNext .popping addr left))

/-- What the weak contract lets an SU do, after which nothing beyond it may be assumed (43_external_interfaces.md
R143; log 21). DESIGN CHOICE, unsafe for a claim about the SU's jump target or pin direction: a weak pop leaves the two
as they were, though the word may be a command's W4 (log 34). -/
def suWeak (act : SuAct) (s : State) : State :=
  match act with
  | .hold => s
  | .pop => s.settle <| (fifoPop s .cmd).bind fun vt => .ok (vt.2.setSuPhase .free)
  | .push v => s.settle <| (fifoPush s .data v).bind fun t => .ok (t.setSuPhase .free)

/-- The next act of an SU that only R143 binds, a free value. -/
def suFree (s : State) : State := suWeak (Config.freeSuAct s.draws) { s with draws := s.draws + 1 }

end Sys2Proof.Machine
end

