-- ==== Sys2Proof/Machine/Dispatch.lean ====
section
/-! DEFINITION. One arm per instruction, each a direct call of its meaning. -/

namespace Sys2Proof.Machine

def exec (i : Instr) (s : State) : Host.Outcome State Fault Refusal :=
  match i with
  | .checksum base count seed => Sys2Proof.Machine.execChecksum base count seed s
  | .encode r rs lin a wc wait er ew => Sys2Proof.Machine.execEncode r rs lin a wc wait er ew s
  | .read a wc rxbuf => Sys2Proof.Machine.execRead a wc rxbuf s
  | .write a wc srcbuf => Sys2Proof.Machine.execWrite a wc srcbuf s
  | .abandon => Sys2Proof.Machine.execAbandon s
  | .caMemWriteWrapped a wait wc => Sys2Proof.Machine.execCaMemWriteWrapped a wait wc s
  | .caMemWriteLinear a wait wc => Sys2Proof.Machine.execCaMemWriteLinear a wait wc s
  | .caRegWriteWrapped a wait wc => Sys2Proof.Machine.execCaRegWriteWrapped a wait wc s
  | .caRegWriteLinear a wait wc => Sys2Proof.Machine.execCaRegWriteLinear a wait wc s
  | .caMemReadWrapped a wait wc => Sys2Proof.Machine.execCaMemReadWrapped a wait wc s
  | .caMemReadLinear a wait wc => Sys2Proof.Machine.execCaMemReadLinear a wait wc s
  | .caRegReadWrapped a wait wc => Sys2Proof.Machine.execCaRegReadWrapped a wait wc s
  | .caRegReadLinear a wait wc => Sys2Proof.Machine.execCaRegReadLinear a wait wc s
  | .ctrlRead entry => Sys2Proof.Machine.execCtrlRead entry s
  | .ctrlWrite entry => Sys2Proof.Machine.execCtrlWrite entry s

end Sys2Proof.Machine
end

