-- ==== Sys2Proof/Machine/HostMoves.lean ====
section
/-! DEFINITION. The host's moves (43_external_interfaces.md R158), the requests that reach the port outside its table
(log 16, log 17), reset (70_reset_and_hazards.md R176) and the platform's boot (R178, R179). A move that is not
enabled changes nothing (log 4). -/

namespace Sys2Proof.Machine

/-- A request of the five the host has moves for, with its op's operands (30_encoding.md R56 to R62). -/
def Request.known (r : Request) : Bool :=
  match decode .request r.words with
  | .ok _ => true
  | .error _ => false

/-- A record that may stand on the port: a known request, or one with a reserved op (30_encoding.md R56, R63; log
17). -/
def Request.puttable (r : Request) : Bool :=
  match decode .request r.words with
  | .ok _ => true
  | .error (.reservedOp _) => true
  | .error _ => false

/-- When the host may put a request: ABANDON whenever the port is empty; another only in IDLE with no response waiting
(43_external_interfaces.md R158). -/
def State.putEnabled (s : State) (r : Request) : Bool :=
  r.known && s.reqPort.isNone
    && (decide (r.op = 5) || (s.respPort.isNone && decide (s.orc.phase = .idle)))

def hostPut (r : Request) (s : State) : State :=
  if s.putEnabled r then { s with reqPort := some r } else s

/-- No transaction is open (42_orchestrator.md R136). -/
def Phase.noneOpen : Phase → Bool
  | .idle => true
  | .abandoned => true
  | .selected => false
  | .armed => false
  | .inflight => false
  | .completed => false

/-- When a request reaches the port outside the host's table: both ports empty and no transaction open, as for a put,
but with a reserved op too (30_encoding.md R63, 60_exceptions.md R168) and in ABANDONED too (42_orchestrator.md R133,
95_test_vectors.md P4, V-ORC-11; DEDUCED, log 16, log 17). -/
def State.presentEnabled (s : State) (r : Request) : Bool :=
  r.puttable && s.reqPort.isNone && s.respPort.isNone && s.orc.phase.noneOpen

def presentRequest (r : Request) (s : State) : State :=
  if s.presentEnabled r then { s with reqPort := some r } else s

/-- The host takes the response; its buffer is its own again unless the READ was abandoned (20_memory.md R41; log
15). -/
def hostTake (s : State) : State :=
  if s.respPort.isSome then
    { s with respPort := none, owned := if s.orc.phase = .abandoned then s.owned else none }
  else s

/-- The source range of a CHECKSUM waiting on the port (43_external_interfaces.md R158; log 15). -/
def pendingChecksum : Option Request → Option (Nat × Nat)
  | some ⟨op, base :: count :: _⟩ => if op = 1 then some (base.toNat, count.toNat) else none
  | some ⟨_, [_]⟩ => none
  | some ⟨_, []⟩ => none
  | none => none

/-- Whether the word at `a` meets a range of words. -/
def inWindow (a : Nat) : Option (Nat × Nat) → Bool
  | some (base, words) => rangesOverlap a 4 base (4 * words)
  | none => false

/-- The words the host may access: aligned, outside TXBUF, outside the owned range and outside a pending CHECKSUM's
source range (43_external_interfaces.md R158, 20_memory.md R41; log 18). -/
def State.hostMayAccess (s : State) (a : Word) : Bool :=
  aligned a && !rangesOverlap a.toNat 4 s.cfg.txbufBase.toNat (4 * s.cfg.txbufWords)
    && !inWindow a.toNat s.owned && !inWindow a.toNat (pendingChecksum s.reqPort)

/-- `mem[a] := v` (30_encoding.md R64). -/
def hostWrite (a v : Word) (s : State) : State :=
  if s.hostMayAccess a then s.pokeWord a.toNat v else s

/-- Reset (70_reset_and_hazards.md R176, 10_state.md R31). CFG, memory outside TXBUF, the SU and the device are not
touched; TXBUF and the FIFO contents become unspecified. -/
def applyReset (s : State) : State :=
  { s with
    ck        := Ck.reset
    orc       := Orc.reset
    chA       := Channel.reset
    chB       := Channel.reset
    csN       := true
    cmdFifo   := (Config.resetCmdFifo s.draws).take s.cfg.fifoDepthCmd
    dataFifo  := (Config.resetDataFifo s.draws).take s.cfg.fifoDepthData
    mem       := Table.erase s.mem s.cfg.txbufBase.toNat (s.cfg.txbufBase.toNat + 4 * s.cfg.txbufWords)
    reqPort   := none
    respPort  := none
    refusedOp := none
    owned     := none
    txEpoch   := s.draws
    draws     := s.draws + 1 }

/-- Boot may happen with nothing going on: IDLE, no request, both channels still (70_reset_and_hazards.md R179; log
23). -/
def State.bootEnabled (s : State) : Bool :=
  decide (s.orc.phase = .idle) && s.reqPort.isNone && !s.chA.busy && !s.chB.busy

/-- The platform's boot (70_reset_and_hazards.md R178, R179): the device reset, its contents unspecified; the SU
initialised with the platform's arguments and enabled; both FIFOs empty (log 23). -/
def platformBoot (s : State) : State :=
  if s.bootEnabled then
    { s with
      su       := ⟨.header [], .unwritten, .unwritten, some s.cfg.suInit⟩
      dev      := []
      devEpoch := s.draws
      cmdFifo  := []
      dataFifo := []
      draws    := s.draws + 1 }
  else s

end Sys2Proof.Machine
end

