-- ==== Sys2Proof/Machine/Fetch.lean ====
section
/-! DEFINITION. What a move comes to: an instruction to run, or a state, or a refusal by name. An instruction is
fetched from the request port when ORC takes a request (42_orchestrator.md R111, R112), and from CMD_FIFO when the
SU has popped a whole CA header or a control word (30_encoding.md R66, 43_external_interfaces.md R145(a); log 27). -/

namespace Sys2Proof.Machine

/-- What a move comes to. -/
inductive Fetched where
  | run (i : Instr) (s : State)
  | done (s : State)
  | refuse (r : Refusal)
  deriving DecidableEq, Repr

/-- ORC looks at its request port. A reserved op is taken and marked (30_encoding.md R63) where any request could be
taken; the meanings themselves hold where theirs cannot (R111). -/
def fetchRequest (s : State) : Fetched :=
  match s.reqPort with
  | none => .done s
  | some r =>
    match decode .request r.words with
    | .ok i => .run i s
    | .error (.reservedOp op) =>
      .done (if s.accepting then { s.takeRequest with refusedOp := some op } else s)
    | .error _ => if s.accepting then .refuse (.malformedRequest r.op) else .done s

/-- The SU with a header word popped: the fourth completes W0 to W3, which decode to a CA instruction or leave the
SU outside R145. -/
def fetchCa (got : List Word) (w : Word) (s : State) : Fetched :=
  if got.length < 3 then .done (s.setSuPhase (.header (got ++ [w])))
  else
    match decode .packetCa (got ++ [w]) with
    | .ok i => .run i s
    | .error _ => .done (s.setSuPhase .free)

/-- The SU with W4 popped: one that decodes is a control word's meaning. DESIGN CHOICE, unsafe for a claim about the
SU's jump target or pin direction: a malformed one (W4[15:8] not 0, or a mask other than 0x00 and 0xFF) leaves the two
as they were, where N11 leaves open what the SU does with it (log 34). -/
def fetchCtrl (w : Word) (s : State) : Fetched :=
  match decode .packetCtrl [w] with
  | .ok i => .run i s
  | .error _ => .done (s.setSuPhase .free)

/-- The SU's move (43_external_interfaces.md R145): a header word, a data word, or a free act. Each pop waits on
CMD_FIFO and each push on DATA_FIFO. -/
def fetchSu (s : State) : Fetched :=
  match s.su.phase with
  | .header got =>
    match s.cmdFifo with
    | [] => .done s
    | w :: rest => fetchCa got w { s with cmdFifo := rest }
  | .command _ =>
    match s.cmdFifo with
    | [] => .done s
    | w :: rest => fetchCtrl w { s with cmdFifo := rest }
  | .pushing addr left => .done (suPushWord addr left s)
  | .popping addr left => .done (suPopWord addr left s)
  | .free => .done (suFree s)

/-- One move of one agent. -/
def fetch : Move → State → Fetched
  | .orcTake, s => fetchRequest s
  | .orcAdvance, s => .done (orcAdvance s)
  | .channel c, s => .done (channelStep c s)
  | .su, s => fetchSu s
  | .suPop, s => .done (suWeak .pop s)
  | .suPush v, s => .done (suWeak (.push v) s)
  | .put r, s => .done (hostPut r s)
  | .present r, s => .done (presentRequest r s)
  | .takeResponse, s => .done (hostTake s)
  | .hostWrite a v, s => .done (hostWrite a v s)
  | .hostRead _, s => .done s
  | .reset, s => .done (applyReset s)
  | .boot, s => .done (platformBoot s)

/-- Whose move is next: the agenda's first, past its end a free value (log 3). -/
def nextMove (s : State) : Move :=
  match s.agenda with
  | m :: _ => m
  | [] => Config.freeMove s.draws

/-- The state with that choice spent. -/
def spendMove (s : State) : State :=
  match s.agenda with
  | _ :: rest => { s with agenda := rest }
  | [] => { s with draws := s.draws + 1 }

/-! ## Placing an instruction where the next move fetches it -/

/-- A request with operand words of zeros above the table's bits, and the move that takes it. -/
def placeRequest (w : Nat) (words : List Word) (s : State) : State :=
  { s with reqPort := some ⟨BitVec.ofNat 4 w, words.drop 1⟩, agenda := .orcTake :: s.agenda }

/-- A header: W0 to W2 popped already and W3 the oldest entry of CMD_FIFO. -/
def placeHeader (words : List Word) (s : State) : State :=
  { s.setSuPhase (.header (words.take 3)) with
    cmdFifo := words.drop 3 ++ s.cmdFifo.drop 1
    agenda := .su :: s.agenda }

/-- A control word as the oldest entry of CMD_FIFO, with a header of its direction and zero operand words before it
unless the SU already awaits W4. -/
def placeCtrl (w : Word) (s : State) : State :=
  { s with
    su := { s.su with
      phase := match s.su.phase with
        | .command ca => .command ca
        | .header _ => .command ⟨decide (w.extractLsb' 0 8 = 0#8), false, true, 0, 0, 1⟩
        | .pushing _ _ => .command ⟨decide (w.extractLsb' 0 8 = 0#8), false, true, 0, 0, 1⟩
        | .popping _ _ => .command ⟨decide (w.extractLsb' 0 8 = 0#8), false, true, 0, 0, 1⟩
        | .free => .command ⟨decide (w.extractLsb' 0 8 = 0#8), false, true, 0, 0, 1⟩ }
    cmdFifo := w :: s.cmdFifo.drop 1
    agenda := .su :: s.agenda }

/-- The instruction of a table word placed for the next move (log 11). -/
def placeTableWord (s : State) (nbits w : Nat) : State :=
  match tableFormat nbits w with
  | .request => placeRequest w (tableWords nbits w) s
  | .packetCa => placeHeader (tableWords nbits w) s
  | .packetCtrl => placeCtrl (tableWord w 0) s

end Sys2Proof.Machine
end

