-- ==== Sys2Proof/Machine/Step.lean ====
section
/-! DEFINITION. One step of the machine: one move of one agent (00_scope.md R6). -/

namespace Sys2Proof.Machine

def step (s : State) : Host.Outcome State Fault Refusal :=
  match fetch (nextMove s) (spendMove s) with
  | .run i t => exec i t
  | .done t => .next t
  | .refuse r => .refused r

/-- `s` with an instruction stored where `step` fetches its next one, and the move that runs it (log 11). -/
def State.withFetchWord (s : State) (nbits w : Nat) : State := placeTableWord s nbits w

end Sys2Proof.Machine
end

