-- ==== Sys2Proof/Safety.lean ====
section
/-! DEFINITION. What the claims are stated in: a well-formed instance, the state invariant, and a state without a
mark (10_state.md R21, R35). -/

namespace Sys2Proof

/-- The bounds 00_scope.md R8 puts on an instance. -/
structure Cfg.Wf (c : Cfg) : Prop where
  base_aligned : c.txbufBase.toNat % 4 = 0
  header_fits : 5 ≤ c.txbufWords
  below_top : c.txbufBase.toNat + 4 * c.txbufWords ≤ 2 ^ 32
  depth_cmd : 1 ≤ c.fifoDepthCmd
  depth_data : 1 ≤ c.fifoDepthData
  txbuf_admitted : ∀ i < c.txbufWords, Machine.admits c (c.txbufBase.toNat + 4 * i) = true

namespace Machine

/-- A channel descriptor as `configure`, `start` and the moves leave it: a started one is configured, a busy one is
started and has words to move, and a configured one has every field written, its own direction and FIFO, and an
aligned address. -/
structure Channel.Fits (dir : ChannelDir) (fifo : FifoName) (c : Channel) : Prop where
  busy_started : c.busy = true → c.started = true
  started_configured : c.started = true → c.configured = true
  written : c.configured = true → ∃ mem remaining autoStart,
    c.dir = .holds dir ∧ c.mem = .holds mem ∧ mem % 4 = 0 ∧ c.fifo = .holds fifo ∧
    c.remaining = .holds remaining ∧ c.autoStart = .holds autoStart ∧ (c.busy = true → 0 < remaining)

/-- The latches of a transaction that has been accepted (10_state.md R20). -/
structure Orc.Latched (o : Orc) : Prop where
  op_written : ∃ d, o.op = .holds d
  addr_written : ∃ a, o.addr = .holds a
  count_written : ∃ w, o.wc = .holds w ∧ w ≠ 0 ∧ o.n = .holds (payloadWords w)
  read_buffer : o.op = .holds .read → ∃ b, o.buf = some b ∧ b.toNat % 4 = 0
  write_result : o.op = .holds .write → o.buf = none ∧ ∃ r, o.result = .holds r

/-- The invariant of the machine: the configuration is an instance, memory and device are canonical, the FIFOs are
within capacity, the channels fit, chip select frames the open phases (10_state.md R35(a)), no buffer is retained in
IDLE (R35(b)), an accepted transaction's latches are written, an armed one's channels are configured and not
started, the port holds only what a host can put, no response stands while a transaction is open, and neither
`F_UNWRITTEN` nor `F_MISALIGNED` has been recorded (R34, 20_memory.md R37). -/
structure State.Inv (s : State) : Prop where
  cfg_wf : s.cfg.Wf
  mem_wf : Memory.wf s.mem
  dev_sorted : Table.Sorted s.dev
  cmd_within : s.cmdFifo.length ≤ s.cfg.fifoDepthCmd
  data_within : s.dataFifo.length ≤ s.cfg.fifoDepthData
  chA_fits : s.chA.Fits .memToFifo .cmd
  chB_fits : s.chB.Fits .fifoToMem .data
  cs_frames : s.csN = false ↔ s.orc.phase.open = true
  idle_no_buffer : s.orc.phase = .idle → s.orc.buf = none
  latched : s.orc.phase ≠ .idle → s.orc.Latched
  armed_configured : s.orc.phase = .armed → ∀ d, s.orc.op = .holds d →
    ∀ c ∈ startedChannels d, (s.channel c).configured = true ∧ (s.channel c).started = false
  port_puttable : ∀ r, s.reqPort = some r → r.puttable = true
  open_no_response : s.orc.phase.open = true → s.respPort = none
  never_unwritten : s.orc.faults.unwritten = false
  never_misaligned : s.orc.faults.misaligned = false

/-- No mark that stops the orchestrator (60_exceptions.md R164, R168; log 5). It holds wherever no fault and no
refusal is recorded, which is the premise R164 gives claims about a run, and under `F_OVERLAP` too. -/
def State.going (s : State) : Prop :=
  s.orc.faults.unwritten = false ∧ s.orc.faults.misaligned = false ∧ s.orc.faults.channelBusy = false ∧
    s.refusedOp = none

/-- When ORC takes a request (42_orchestrator.md R111): IDLE, the response port empty, no mark that stops
it. -/
def State.Ready (s : State) : Prop := s.going ∧ s.orc.phase = .idle ∧ s.respPort = none

/-- The words from a byte address on are in `MEM_ADMITTED` (20_memory.md R40). -/
def AdmittedWords (c : Cfg) (a words : Nat) : Prop := ∀ i < words, admits c (a + 4 * i) = true

/-- Every byte of memory outside `len` bytes from `a` reads as before. -/
def State.SameBytesOutside (s t : State) (a len : Nat) : Prop :=
  ∀ b, b < a ∨ a + len ≤ b → t.byteAt b = s.byteAt b

/-- A READ or WRITE buffer of `N` words that does not meet the TXBUF words in use (20_memory.md R42). -/
def ClearOfTxbuf (c : Cfg) (buf : Word) (n words : Nat) : Prop :=
  n = 0 ∨ buf.toNat + 4 * n ≤ c.txbufBase.toNat ∨ c.txbufBase.toNat + 4 * words ≤ buf.toNat

/-- The four bytes of the word at `a` meet none of `words` words from `base`. -/
def WordClear (a base words : Nat) : Prop := words = 0 ∨ a + 4 ≤ base ∨ base + 4 * words ≤ a

/-- The words R158 gives the host (43_external_interfaces.md): an aligned word (log 18) outside TXBUF, outside the range
an accepted READ or CHECKSUM keeps (log 15), and outside the source range of a CHECKSUM that waits on the port. -/
structure State.HostsWord (s : State) (a : Word) : Prop where
  word_aligned : a.toNat % 4 = 0
  outside_txbuf : WordClear a.toNat s.cfg.txbufBase.toNat s.cfg.txbufWords
  outside_owned : ∀ base words, s.owned = some (base, words) → WordClear a.toNat base words
  outside_checksum : ∀ base count more, s.reqPort = some ⟨1, base :: count :: more⟩ →
    WordClear a.toNat base.toNat count.toNat

/-- The moves of a WRITE from the host's put to its response, chA and the SU taking turns. -/
def writeMoves (address wc srcbuf : Word) : List Move :=
  [.put ⟨4, [address, wc, srcbuf]⟩, .orcTake, .orcAdvance, .orcAdvance]
    ++ (List.replicate (5 + wc.toNat / 2) [Move.channel .chA, .su]).flatten
    ++ [.orcAdvance, .orcAdvance]

/-- The moves of a READ from the host's take of the response before to its own: chA and the SU taking turns over the
header, the SU and chB over the payload. -/
def readMoves (address wc rxbuf : Word) : List Move :=
  [.takeResponse, .put ⟨3, [address, wc, rxbuf]⟩, .orcTake, .orcAdvance, .orcAdvance]
    ++ (List.replicate 5 [Move.channel .chA, .su]).flatten
    ++ (List.replicate (wc.toNat / 2) [Move.su, .channel .chB]).flatten
    ++ [.orcAdvance, .orcAdvance]

/-- Two states that agree on everything of the block but its FIFOs: what the SU never touches (43_external_interfaces.md
R143(c)), and CFG. -/
structure State.SameBlock (s t : State) : Prop where
  cfg : t.cfg = s.cfg
  ck : t.ck = s.ck
  orc : t.orc = s.orc
  chA : t.chA = s.chA
  chB : t.chB = s.chB
  csN : t.csN = s.csN
  mem : t.mem = s.mem
  txEpoch : t.txEpoch = s.txEpoch
  reqPort : t.reqPort = s.reqPort
  respPort : t.respPort = s.respPort
  refusedOp : t.refusedOp = s.refusedOp
  owned : t.owned = s.owned

/-- Two states that agree on the environment: the SU and the device. -/
structure State.SameEnvironment (s t : State) : Prop where
  su : t.su = s.su
  dev : t.dev = s.dev
  devEpoch : t.devEpoch = s.devEpoch

end Machine
end Sys2Proof
end

