-- ==== Sys2Proof/Certificates/Slice0/Obligations.lean ====
section
/-! DEFINITION. The statements for the provers. Each docstring names the rule it formalises; a statement that rests
on a choice of the model says so and names the log entry. -/

open Sys2Proof Sys2Proof.Machine

/-! ## Reset and configuration -/

/-- 10_state.md R31, for the state right after power-on: every row of the table; the FIFO contents are any sequence
within capacity. -/
def Obligations.ResetStateFollowsTheTable : Prop :=
  State.reset.orc.phase = .idle ∧ State.reset.csN = true ∧ State.reset.orc.faults = ⟨false, false, false, false⟩ ∧
  State.reset.orc.op = .unwritten ∧ State.reset.orc.addr = .unwritten ∧ State.reset.orc.wc = .unwritten ∧
  State.reset.orc.n = .unwritten ∧ State.reset.orc.result = .unwritten ∧ State.reset.orc.buf = none ∧
  State.reset.ck = ⟨.unwritten, .unwritten⟩ ∧
  State.reset.chA = ⟨.unwritten, .unwritten, .unwritten, .unwritten, .unwritten, false, false, false⟩ ∧
  State.reset.chB = ⟨.unwritten, .unwritten, .unwritten, .unwritten, .unwritten, false, false, false⟩ ∧
  State.reset.cmdFifo.length ≤ State.reset.cfg.fifoDepthCmd ∧
  State.reset.dataFifo.length ≤ State.reset.cfg.fifoDepthData ∧
  State.reset.mem = [] ∧ State.reset.reqPort = none ∧ State.reset.respPort = none ∧
  State.reset.cfg = Cfg.ofPlatform

/-- 70_reset_and_hazards.md R176: reset is available in every state, sets the block to R31's values, stops the
channels, empties the ports, and touches neither memory outside TXBUF, nor CFG, nor the SU, nor the device. That a
refusal mark is cleared with the faults is the model's (log 5). -/
def Obligations.ResetMoveFromEveryState : Prop :=
  ∀ (s : State) (rest : List Move), s.agenda = .reset :: rest →
    ∃ t, step s = .next t ∧
      t.orc = State.reset.orc ∧ t.csN = true ∧ t.ck = State.reset.ck ∧
      t.chA = State.reset.chA ∧ t.chB = State.reset.chB ∧
      t.cmdFifo.length ≤ s.cfg.fifoDepthCmd ∧ t.dataFifo.length ≤ s.cfg.fifoDepthData ∧
      t.reqPort = none ∧ t.respPort = none ∧ t.refusedOp = none ∧
      t.cfg = s.cfg ∧ t.SameEnvironment s ∧ t.agenda = rest ∧
      (∀ a, inTxbuf s.cfg a = false → t.byteAt a = s.byteAt a)

/-- The state after reset meets the invariant. -/
def Obligations.ResetMeetsInvariant : Prop := State.reset.Inv

/-- From every state that meets the invariant, whatever agent moves, the machine answers a next state, and that
state meets the invariant: no step faults, refuses, reads an unwritten cell or misaligns an access (10_state.md R34,
R35(a), R35(b); 20_memory.md R37). -/
def Obligations.InvariantStatesStepToInvariantStates : Prop :=
  ∀ s : State, s.Inv → ∃ t, step s = .next t ∧ t.Inv

/-- 10_state.md R26: no step writes CFG. -/
def Obligations.ConfigurationIsNeverWritten : Prop :=
  ∀ s t : State, step s = .next t → t.cfg = s.cfg

/-- 60_exceptions.md R164: a fault is a mark and not a stop. No step ends in a fault, and the only refusal is that
of a request record with operands its op does not have (the model's, log 26). -/
def Obligations.OnlyMalformedRequestsStopTheMachine : Prop :=
  ∀ s : State, (∀ f, step s ≠ .fault f) ∧
    (∀ r, step s = .refused r → nextMove s = .orcTake ∧
      ∃ q, s.reqPort = some q ∧ q.puttable = false ∧ r = .malformedRequest q.op)

/-! ## The checksum engine -/

/-- 40_checksum.md R77, R78, R79, in numbers: the seed halves, the wrapping sums with `sum2` adding the new `sum1`,
and the result packed from the sums reduced mod 0xFFFFFFFF, the registers left alone. -/
def Obligations.ChecksumRegisterSteps : Prop :=
  (∀ seed : Dword, ∃ lo hi : Word, ckSeed seed = ⟨.holds lo, .holds hi⟩ ∧
    lo.toNat = seed.toNat % 2 ^ 32 ∧ hi.toNat = seed.toNat / 2 ^ 32) ∧
  (∀ a b w : Word, ∃ a' b' : Word, ckAccum ⟨.holds a, .holds b⟩ w = .ok ⟨.holds a', .holds b'⟩ ∧
    a'.toNat = (a.toNat + w.toNat) % 2 ^ 32 ∧ b'.toNat = (b.toNat + a'.toNat) % 2 ^ 32) ∧
  (∀ a b : Word, ∃ r : Dword, ckResult ⟨.holds a, .holds b⟩ = .ok r ∧
    r.toNat = (b.toNat % 0xFFFFFFFF) * 2 ^ 32 + a.toNat % 0xFFFFFFFF)

/-- 40_checksum.md R76, R80: over a whole sequence the raw sums are the seed halves plus the words, and plus the
words each counted once for every sum it has entered, mod 2^32; the result reduces them once. -/
def Obligations.FletcherClosedForm : Prop :=
  ∀ (ws : List Word) (seed : Dword),
    (finalSums ws seed).1.toNat = (seed.toNat % 2 ^ 32 + (ws.map BitVec.toNat).sum) % 2 ^ 32 ∧
    (finalSums ws seed).2.toNat =
      (seed.toNat / 2 ^ 32 + ws.length * (seed.toNat % 2 ^ 32)
        + ((List.range ws.length).map (fun i => (ws.length - i) * (ws.getD i 0).toNat)).sum) % 2 ^ 32 ∧
    (fletcher64 ws seed).toNat =
      ((finalSums ws seed).2.toNat % 0xFFFFFFFF) * 2 ^ 32 + (finalSums ws seed).1.toNat % 0xFFFFFFFF

/-- 40_checksum.md R82: the empty sequence gives the seed reduced half by half; order matters; chaining through the
result splits a sequence where neither raw sum is 0xFFFFFFFF, and fails for one where one is. -/
def Obligations.FletcherLaws : Prop :=
  (∀ seed : Dword, (fletcher64 [] seed).toNat =
    (seed.toNat / 2 ^ 32 % 0xFFFFFFFF) * 2 ^ 32 + seed.toNat % 2 ^ 32 % 0xFFFFFFFF) ∧
  fletcher64 [1, 2] 0 = 0x0000000400000003 ∧ fletcher64 [2, 1] 0 = 0x0000000500000003 ∧
  (∀ (a b : List Word) (seed : Dword),
    (finalSums a seed).1 ≠ 0xFFFFFFFF → (finalSums a seed).2 ≠ 0xFFFFFFFF →
      fletcher64 (a ++ b) seed = fletcher64 b (fletcher64 a seed)) ∧
  fletcher64 ([0xFFFFFFFF] ++ [1]) 0 ≠ fletcher64 [1] (fletcher64 [0xFFFFFFFF] 0)

/-- 40_checksum.md R84, where it completes: in IDLE with the response port empty and the range aligned and admitted,
CHECKSUM answers the checksum of the words there, the registers hold the last sums, and nothing else changes but the
port and the window the host keeps off (the model's field, log 15). -/
def Obligations.ChecksumCompletes : Prop :=
  ∀ (s : State) (base count : Word) (seed : Dword),
    s.Ready → base.toNat % 4 = 0 → AdmittedWords s.cfg base.toNat count.toNat →
      exec (.checksum base count seed) s = .next { s with
        ck := Ck.ofSums (finalSums (s.wordsAt base.toNat count.toNat) seed)
        reqPort := none
        respPort := some ⟨0x00, .checksum (fletcher64 (s.wordsAt base.toNat count.toNat) seed)⟩
        owned := some (base.toNat, count.toNat) }

/-! ## The command encoder -/

/-- 30_encoding.md R68 to R72 and 41_command_encoder.md R106, R107: every field of the five words. -/
def Obligations.PacketLayout : Prop :=
  ∀ (read rs lin : Bool) (address wc wait er ew : Word),
    let p := buildCommand read rs lin address wc wait er ew
    p.w0.extractLsb' 16 16 = 0xFF00#16 ∧ p.w0.getLsbD 15 = read ∧ p.w0.getLsbD 14 = rs ∧ p.w0.getLsbD 13 = lin ∧
    p.w0.extractLsb' 0 13 = address.extractLsb' 19 13 ∧
    p.w1.extractLsb' 16 16 = address.extractLsb' 3 16 ∧ p.w1.extractLsb' 3 13 = 0#13 ∧
    p.w1.extractLsb' 0 3 = address.extractLsb' 0 3 ∧
    p.w2 = wait ∧ (wc ≠ 0 → p.w3.toNat + 1 = wc.toNat) ∧
    p.w4.extractLsb' 16 16 = (if read then er else ew).extractLsb' 0 16 ∧
    p.w4.extractLsb' 8 8 = 0#8 ∧ p.w4.extractLsb' 0 8 = (if read then 0x00#8 else 0xFF#8)

/-- 41_command_encoder.md R103, the round-trip law. -/
def Obligations.EncoderRoundTrip : Prop :=
  ∀ (read rs lin : Bool) (address wc wait er ew : Word), wc ≠ 0 →
    decodeCommand (buildCommand read rs lin address wc wait er ew) =
      .ok { read := read, registerSpace := rs, linearBurst := lin, address := address, wordCount := wc,
            waitCycles := wait, entry := (if read then er else ew).extractLsb' 0 16,
            mask := if read then 0x00 else 0xFF }

/-- 30_encoding.md R75 with 41_command_encoder.md R102: the decoder rejects exactly the sequences of R75, and those
are exactly the ones no encoding of a word count of at least 1 produces. -/
def Obligations.DecoderRejectsExactlyNonOutputs : Prop :=
  ∀ p : CommandPacket,
    ((∃ e, decodeCommand p = .error e) ↔
      p.w0.extractLsb' 16 16 ≠ 0xFF00#16 ∨ p.w1.extractLsb' 3 13 ≠ 0#13 ∨ p.w4.extractLsb' 8 8 ≠ 0#8 ∨
      (p.w4.extractLsb' 0 8 ≠ 0x00#8 ∧ p.w4.extractLsb' 0 8 ≠ 0xFF#8) ∨
      ((p.w4.extractLsb' 0 8 = 0xFF#8 ∧ p.w0.getLsbD 15 = true) ∨
        (p.w4.extractLsb' 0 8 = 0x00#8 ∧ p.w0.getLsbD 15 = false)) ∨
      p.w3 = 0xFFFFFFFF#32) ∧
    ((∃ e, decodeCommand p = .error e) ↔
      ∀ (read rs lin : Bool) (address wc wait er ew : Word), wc ≠ 0 →
        buildCommand read rs lin address wc wait er ew ≠ p)

/-- 30_encoding.md R66, R73: a CommandPacket is the encoding of its CA kind followed by that of its control word, and
the control word is CTRL_READ exactly when RW is 1. -/
def Obligations.PacketIsHeaderThenControl : Prop :=
  ∀ (read rs lin : Bool) (address wc wait er ew : Word),
    (buildCommand read rs lin address wc wait er ew).toList =
      encode (caInstr ⟨read, rs, lin, address, wait, wc⟩) ++
        encode (if read then .ctrlRead (er.extractLsb' 0 16) else .ctrlWrite (ew.extractLsb' 0 16))

/-- 41_command_encoder.md R101, where it completes: the packet on the response port, and nothing else but the
request port changed. -/
def Obligations.EncodeCompletes : Prop :=
  ∀ (s : State) (read rs lin : Bool) (address wc wait er ew : Word), s.Ready → wc ≠ 0 →
    exec (.encode read rs lin address wc wait er ew) s = .next { s with
      reqPort := none
      respPort := some ⟨0x00, .words (buildCommand read rs lin address wc wait er ew)⟩ }

/-! ## Decoding -/

/-- Decoding the words of a well-formed instruction gives it back, for every row of the opcode table and every
operand. The layout of a request's operand words is the model's (log 9). -/
def Obligations.DecodeOfEncode : Prop :=
  ∀ i : Instr, i.wellFormed = true → decode i.format (encode i) = .ok i

/-- Words that decode are the words of the instruction they decode to, which is well formed and of that format: no
two encodings of one instruction, no reserved encoding accepted. For the CA and control words the layout is the spec's
(30_encoding.md R67 to R75); that of a request's operand words is the model's, as R56 gives a record none (log 9), and
so is telling the decoder its format (log 10). -/
def Obligations.EncodeOfDecode : Prop :=
  ∀ (f : Format) (ws : List Word) (i : Instr), decode f ws = .ok i →
    i.format = f ∧ i.wellFormed = true ∧ encode i = ws

/-- 30_encoding.md R57, R63: which op codes are reserved, whatever the operands. -/
def Obligations.ReservedOpCodes : Prop :=
  ∀ (op : BitVec 4) (operands : List Word),
    (decode .request (Request.words ⟨op, operands⟩) = .error (.reservedOp op)) ↔ (op = 0 ∨ 6 ≤ op.toNat)

/-- Header and control words written out from the spec's encodings (30_encoding.md R68, R69, R72; 95_test_vectors.md
V-ENC-03, V-ENC-06), and request words with the op codes of R57 and their operands in the model's layout (log 9), decode
to what they stand for. -/
def Obligations.SpecWordsDecode : Prop :=
  decode .request [0x3, 0x1234567D, 2, 0x20001000] = .ok (.read 0x1234567D 2 0x20001000) ∧
  decode .request [0x5] = .ok .abandon ∧
  decode .packetCa [0xFF00A246, 0x8ACF0005, 6, 1] = .ok (.caMemReadLinear 0x1234567D 6 2) ∧
  decode .packetCa [0xFF005FFF, 0xFFFF0007, 0xFFFFFFFF, 0xFFFFFFFE] =
    .ok (.caRegWriteWrapped 0xFFFFFFFF 0xFFFFFFFF 0xFFFFFFFF) ∧
  decode .packetCtrl [0x00070000] = .ok (.ctrlRead 7) ∧
  decode .packetCtrl [0x001100FF] = .ok (.ctrlWrite 0x11)

/-! ## Fetching -/

/-- ORC's move on a request that decodes is that request's meaning, after the move has left the agenda
(42_orchestrator.md R112; the agenda is the model's, log 3). -/
def Obligations.StepRunsTheRequestOnThePort : Prop :=
  ∀ (s : State) (rest : List Move) (r : Request) (i : Instr),
    s.agenda = .orcTake :: rest → s.reqPort = some r → decode .request r.words = .ok i →
      step s = exec i { s with agenda := rest }

/-- The SU's move that pops W3 runs the CA kind W0 to W3 encode; the move that pops W4 runs the control word
(43_external_interfaces.md R145(a); executing header words as instructions is the model's, log 27). -/
def Obligations.StepRunsTheCommandTheSuPops : Prop :=
  ∀ (s : State) (rest : List Move) (w : Word) (ws : List Word) (i : Instr),
    s.agenda = .su :: rest → s.cmdFifo = w :: ws →
      (∀ w0 w1 w2, s.su.phase = .header [w0, w1, w2] → decode .packetCa [w0, w1, w2, w] = .ok i →
        step s = exec i { s with agenda := rest, cmdFifo := ws }) ∧
      (∀ ca, s.su.phase = .command ca → decode .packetCtrl [w] = .ok i →
        step s = exec i { s with agenda := rest, cmdFifo := ws })

/-! ## Requests at acceptance -/

/-- 42_orchestrator.md R116, R117: READ step 1, with its frame. The window is the model's (log 15). -/
def Obligations.ReadIsAccepted : Prop :=
  ∀ (s : State) (address wc rxbuf : Word),
    s.Ready → wc ≠ 0 → rxbuf.toNat % 4 = 0 → ClearOfTxbuf s.cfg rxbuf (wc.toNat / 2) 5 →
    AdmittedWords s.cfg s.cfg.txbufBase.toNat 5 →
      ∃ t, exec (.read address wc rxbuf) s = .next t ∧
        t.orc = { s.orc with op := .holds .read, addr := .holds address, wc := .holds wc,
                             n := .holds (wc.toNat / 2), buf := some rxbuf, phase := .selected } ∧
        t.wordsAt s.cfg.txbufBase.toNat 5 =
          (buildCommand true s.cfg.regSpace s.cfg.linearBurst address wc s.cfg.waitCycles
            s.cfg.entryRead s.cfg.entryWrite).toList ∧
        s.SameBytesOutside t s.cfg.txbufBase.toNat 20 ∧
        t.csN = false ∧ t.reqPort = none ∧ t.respPort = none ∧ t.owned = some (rxbuf.toNat, wc.toNat / 2) ∧
        t = { s with orc := t.orc, mem := t.mem, csN := t.csN, reqPort := t.reqPort, owned := t.owned }

/-- 42_orchestrator.md R125, R126: WRITE step 1, with its frame. -/
def Obligations.WriteIsAccepted : Prop :=
  ∀ (s : State) (address wc srcbuf : Word),
    s.Ready → wc ≠ 0 → srcbuf.toNat % 4 = 0 → 5 + wc.toNat / 2 ≤ s.cfg.txbufWords →
    ClearOfTxbuf s.cfg srcbuf (wc.toNat / 2) (5 + wc.toNat / 2) →
    AdmittedWords s.cfg srcbuf.toNat (wc.toNat / 2) →
    AdmittedWords s.cfg s.cfg.txbufBase.toNat (5 + wc.toNat / 2) →
      ∃ t, exec (.write address wc srcbuf) s = .next t ∧
        t.orc = { s.orc with op := .holds .write, addr := .holds address, wc := .holds wc,
                             n := .holds (wc.toNat / 2), buf := none, phase := .selected,
                             result := .holds (fletcher64 (s.wordsAt srcbuf.toNat (wc.toNat / 2))
                               s.cfg.xferSeed) } ∧
        t.ck = Ck.ofSums (finalSums (s.wordsAt srcbuf.toNat (wc.toNat / 2)) s.cfg.xferSeed) ∧
        t.wordsAt s.cfg.txbufBase.toNat (5 + wc.toNat / 2) =
          (buildCommand false s.cfg.regSpace s.cfg.linearBurst address wc s.cfg.waitCycles
            s.cfg.entryRead s.cfg.entryWrite).toList ++ s.wordsAt srcbuf.toNat (wc.toNat / 2) ∧
        s.SameBytesOutside t s.cfg.txbufBase.toNat (4 * (5 + wc.toNat / 2)) ∧
        t.csN = false ∧ t.reqPort = none ∧ t.respPort = none ∧
        t = { s with orc := t.orc, ck := t.ck, mem := t.mem, csN := t.csN, reqPort := t.reqPort }

/-- 60_exceptions.md R162, R166 and 42_orchestrator.md R113, checks 1 to 3: each cause with its code, in the order of
the checks; the state is as it was but for the ports. -/
def Obligations.InvalidRequestsAreAnswered : Prop :=
  ∀ (s : State), s.Ready →
    (∀ address buf, exec (.read address 0 buf) s = .next { s with
      reqPort := none, respPort := some ⟨0x01, .reason 0x01⟩ }) ∧
    (∀ address buf, exec (.write address 0 buf) s = .next { s with
      reqPort := none, respPort := some ⟨0x01, .reason 0x01⟩ }) ∧
    (∀ read rs lin address wait er ew, exec (.encode read rs lin address 0 wait er ew) s = .next { s with
      reqPort := none, respPort := some ⟨0x01, .reason 0x01⟩ }) ∧
    (∀ address wc buf, wc ≠ 0 → buf.toNat % 4 ≠ 0 → exec (.read address wc buf) s = .next { s with
      reqPort := none, respPort := some ⟨0x01, .reason 0x02⟩ }) ∧
    (∀ address wc buf, wc ≠ 0 → buf.toNat % 4 ≠ 0 → exec (.write address wc buf) s = .next { s with
      reqPort := none, respPort := some ⟨0x01, .reason 0x02⟩ }) ∧
    (∀ base count seed, base.toNat % 4 ≠ 0 → exec (.checksum base count seed) s = .next { s with
      reqPort := none, respPort := some ⟨0x01, .reason 0x02⟩ }) ∧
    (∀ address wc buf, wc ≠ 0 → buf.toNat % 4 = 0 → s.cfg.txbufWords < 5 + wc.toNat / 2 →
      exec (.write address wc buf) s = .next { s with
        reqPort := none, respPort := some ⟨0x01, .reason 0x03⟩ }) ∧
    (exec .abandon s = .next { s with reqPort := none, respPort := some ⟨0x01, .reason 0x04⟩ })

/-- 20_memory.md R42 and 42_orchestrator.md R113, check 4: a buffer over the TXBUF words in use records `F_OVERLAP`
and has no other effect than that the request has been taken. That it leaves the port is the model's (log 5). -/
def Obligations.OverlappingBuffersAreMarked : Prop :=
  ∀ (s : State) (address wc buf : Word), s.Ready → wc ≠ 0 → buf.toNat % 4 = 0 →
    (¬ ClearOfTxbuf s.cfg buf (wc.toNat / 2) 5 →
      exec (.read address wc buf) s = .next { s with
        reqPort := none, orc := { s.orc with faults := { s.orc.faults with overlap := true } } }) ∧
    (5 + wc.toNat / 2 ≤ s.cfg.txbufWords → ¬ ClearOfTxbuf s.cfg buf (wc.toNat / 2) (5 + wc.toNat / 2) →
      exec (.write address wc buf) s = .next { s with
        reqPort := none, orc := { s.orc with faults := { s.orc.faults with overlap := true } } })

/-- 42_orchestrator.md R111: in any other state a request is not taken and nothing changes; ABANDON is taken in
INFLIGHT besides. Which marks stop ORC is the model's reading of R164 and R168 (log 5). -/
def Obligations.RequestsAreHeldElsewhere : Prop :=
  ∀ s : State, ¬ s.Ready →
    (∀ base count seed, exec (.checksum base count seed) s = .next s) ∧
    (∀ read rs lin address wc wait er ew, exec (.encode read rs lin address wc wait er ew) s = .next s) ∧
    (∀ address wc buf, exec (.read address wc buf) s = .next s) ∧
    (∀ address wc buf, exec (.write address wc buf) s = .next s) ∧
    (¬ (s.going ∧ s.orc.phase = .inflight) → exec .abandon s = .next s)

/-- 20_memory.md R40 at acceptance: a request one of whose accesses lies outside `MEM_ADMITTED` has no step; it stays
on the port and nothing changes. That the accesses before the one outside leave nothing behind either, such as the
header that a WRITE stages before it reads its payload (42_orchestrator.md R126), is the model's reading (DEDUCED and
unsafe, log 29). The READ clause, and the last, are about instances that R40 rules out, whose TXBUF is not admitted. -/
def Obligations.UnadmittedRequestsAreStuck : Prop :=
  ∀ s : State, s.Ready → s.cfg.txbufBase.toNat % 4 = 0 →
    (∀ base count seed, base.toNat % 4 = 0 → ¬ AdmittedWords s.cfg base.toNat count.toNat →
      exec (.checksum base count seed) s = .next s) ∧
    (∀ address wc buf, wc ≠ 0 → buf.toNat % 4 = 0 → ClearOfTxbuf s.cfg buf (wc.toNat / 2) 5 →
      ¬ AdmittedWords s.cfg s.cfg.txbufBase.toNat 5 → exec (.read address wc buf) s = .next s) ∧
    (∀ address wc buf, wc ≠ 0 → buf.toNat % 4 = 0 → 5 + wc.toNat / 2 ≤ s.cfg.txbufWords →
      ClearOfTxbuf s.cfg buf (wc.toNat / 2) (5 + wc.toNat / 2) →
      ¬ AdmittedWords s.cfg buf.toNat (wc.toNat / 2) → exec (.write address wc buf) s = .next s) ∧
    (∀ address wc buf, wc ≠ 0 → buf.toNat % 4 = 0 → 5 + wc.toNat / 2 ≤ s.cfg.txbufWords →
      ClearOfTxbuf s.cfg buf (wc.toNat / 2) (5 + wc.toNat / 2) →
      ¬ AdmittedWords s.cfg s.cfg.txbufBase.toNat (5 + wc.toNat / 2) → exec (.write address wc buf) s = .next s)

/-- 42_orchestrator.md R132 in INFLIGHT: chip select released, phase ABANDONED, an empty OK response, and channels,
FIFOs, latches and everything else as they were. -/
def Obligations.AbandonReleasesTheDevice : Prop :=
  ∀ s : State, s.going → s.orc.phase = .inflight →
    exec .abandon s = .next { s with
      reqPort := none
      respPort := some ⟨0x00, .empty⟩
      csN := true
      orc := { s.orc with phase := .abandoned } }

/-- 30_encoding.md R63, 60_exceptions.md R168: a reserved op is taken and marked, and nothing else changes. Taking it
from the port is the model's reading (log 5, log 17). -/
def Obligations.ReservedOpsAreRefusedByMark : Prop :=
  ∀ (s : State) (rest : List Move) (r : Request),
    s.agenda = .orcTake :: rest → s.reqPort = some r → (r.op = 0 ∨ 6 ≤ r.op.toNat) → s.Ready →
      step s = .next { s with agenda := rest, reqPort := none, refusedOp := some r.op }

/-! ## Steps 2 to 5 -/

/-- 42_orchestrator.md R118, R127: step 2 of READ configures chA and chB, step 2 of WRITE chA alone, each with
`autoStart = 0`. -/
def Obligations.StepTwoConfigures : Prop :=
  ∀ (s : State) (rest : List Move) (n : Nat), s.agenda = .orcAdvance :: rest → s.going →
    s.orc.phase = .selected → s.orc.n = .holds n → s.chA.busy = false →
    (∀ buf, s.orc.op = .holds .read → s.orc.buf = some buf → s.chB.busy = false →
      step s = .next { s with
        agenda := rest
        chA := ⟨.holds .memToFifo, .holds s.cfg.txbufBase.toNat, .holds .cmd, .holds 5, .holds false,
          true, false, false⟩
        chB := ⟨.holds .fifoToMem, .holds buf.toNat, .holds .data, .holds n, .holds false, true, false, false⟩
        orc := { s.orc with phase := .armed } }) ∧
    (s.orc.op = .holds .write →
      step s = .next { s with
        agenda := rest
        chA := ⟨.holds .memToFifo, .holds s.cfg.txbufBase.toNat, .holds .cmd, .holds (5 + n), .holds false,
          true, false, false⟩
        orc := { s.orc with phase := .armed } })

/-- 43_external_interfaces.md R148 at step 2 (42_orchestrator.md R118): a chA still busy records `F_CHANNEL_BUSY`, and
nothing else changes. -/
def Obligations.BusyChannelStopsStepTwo : Prop :=
  ∀ (s : State) (rest : List Move) (n : Nat) (d : Direction) (buf : Word),
    s.agenda = .orcAdvance :: rest → s.going → s.orc.phase = .selected → s.orc.n = .holds n →
    s.orc.op = .holds d → (d = .read → s.orc.buf = some buf) → s.chA.busy = true →
      step s = .next { s with
        agenda := rest, orc := { s.orc with faults := { s.orc.faults with channelBusy := true } } }

/-- 42_orchestrator.md R119, R128 with 43_external_interfaces.md R149, R153: step 3 starts READ's two channels, or
WRITE's one, in one step; one with nothing to move is not busy. -/
def Obligations.StepThreeStarts : Prop :=
  ∀ (s : State) (rest : List Move) (a : Nat), s.agenda = .orcAdvance :: rest → s.going →
    s.orc.phase = .armed → s.chA.configured = true → s.chA.remaining = .holds a →
    (∀ b, s.orc.op = .holds .read → s.chB.configured = true → s.chB.remaining = .holds b →
      step s = .next { s with
        agenda := rest
        chA := { s.chA with started := true, busy := decide (0 < a) }
        chB := { s.chB with started := true, busy := decide (0 < b) }
        orc := { s.orc with phase := .inflight } }) ∧
    (s.orc.op = .holds .write →
      step s = .next { s with
        agenda := rest
        chA := { s.chA with started := true, busy := decide (0 < a) }
        orc := { s.orc with phase := .inflight } })

/-- 42_orchestrator.md R120, R129 with 43_external_interfaces.md R152: step 4 waits for chB of a READ and chA of a
WRITE, and changes the phase alone. -/
def Obligations.StepFourWaitsForTheWatchedChannel : Prop :=
  ∀ (s : State) (rest : List Move) (d : Direction), s.agenda = .orcAdvance :: rest → s.going →
    s.orc.phase = .inflight → s.orc.op = .holds d →
    let watched := if d = .read then s.chB else s.chA
    (watched.started = true ∧ watched.busy = false →
      step s = .next { s with agenda := rest, orc := { s.orc with phase := .completed } }) ∧
    (¬ (watched.started = true ∧ watched.busy = false) → step s = .next { s with agenda := rest })

/-- 42_orchestrator.md R121, R130: step 5 deselects and responds; READ's checksums the received words first and
forgets the buffer. -/
def Obligations.StepFiveResponds : Prop :=
  ∀ (s : State) (rest : List Move), s.agenda = .orcAdvance :: rest → s.going → s.orc.phase = .completed →
    (∀ (n : Nat) (buf : Word), s.orc.op = .holds .read → s.orc.n = .holds n → s.orc.buf = some buf →
      AdmittedWords s.cfg buf.toNat n →
      step s = .next { s with
        agenda := rest
        csN := true
        ck := Ck.ofSums (finalSums (s.wordsAt buf.toNat n) s.cfg.xferSeed)
        orc := { s.orc with
          result := .holds (fletcher64 (s.wordsAt buf.toNat n) s.cfg.xferSeed), buf := none, phase := .idle }
        respPort := some ⟨0x00, .checksum (fletcher64 (s.wordsAt buf.toNat n) s.cfg.xferSeed)⟩ }) ∧
    (∀ r : Dword, s.orc.op = .holds .write → s.orc.result = .holds r →
      step s = .next { s with
        agenda := rest
        csN := true
        orc := { s.orc with phase := .idle }
        respPort := some ⟨0x00, .checksum r⟩ })

/-! ## Rules of the whole machine -/

/-- 42_orchestrator.md R138: every change of the phase is one of the table, made by its own event. -/
def Obligations.PhaseTransitionsAreTheTable : Prop :=
  ∀ s t : State, step s = .next t → t.orc.phase ≠ s.orc.phase →
    (nextMove s = .orcTake ∧ s.orc.phase = .idle ∧ t.orc.phase = .selected ∧
      ∃ r, s.reqPort = some r ∧ (r.op = 3 ∨ r.op = 4)) ∨
    (nextMove s = .orcAdvance ∧ s.orc.phase = .selected ∧ t.orc.phase = .armed) ∨
    (nextMove s = .orcAdvance ∧ s.orc.phase = .armed ∧ t.orc.phase = .inflight) ∨
    (nextMove s = .orcAdvance ∧ s.orc.phase = .inflight ∧ t.orc.phase = .completed ∧
      ∃ d, s.orc.op = .holds d ∧ (s.channel (watchedChannel d)).finish = true) ∨
    (nextMove s = .orcTake ∧ s.orc.phase = .inflight ∧ t.orc.phase = .abandoned ∧
      ∃ r, s.reqPort = some r ∧ r.op = 5) ∨
    (nextMove s = .orcAdvance ∧ s.orc.phase = .completed ∧ t.orc.phase = .idle) ∨
    (nextMove s = .reset ∧ t.orc.phase = .idle)

/-- 42_orchestrator.md R137: CS_N falls only when a READ or WRITE is accepted, and rises only at step 5, at ABANDON
and at reset. -/
def Obligations.ChipSelectIsFramed : Prop :=
  ∀ s t : State, step s = .next t →
    (s.csN = true → t.csN = false →
      nextMove s = .orcTake ∧ s.orc.phase = .idle ∧ t.orc.phase = .selected ∧
        ∃ r, s.reqPort = some r ∧ (r.op = 3 ∨ r.op = 4)) ∧
    (s.csN = false → t.csN = true →
      (nextMove s = .orcAdvance ∧ s.orc.phase = .completed ∧ t.orc.phase = .idle) ∨
      (nextMove s = .orcTake ∧ s.orc.phase = .inflight ∧ t.orc.phase = .abandoned) ∨
      nextMove s = .reset)

/-- 42_orchestrator.md R133: in ABANDONED the orchestrator takes no request and no step; only reset leaves it. A
request on the port stays there. -/
def Obligations.AbandonedIsTerminalUntilReset : Prop :=
  ∀ s t : State, s.orc.phase = .abandoned → step s = .next t → nextMove s ≠ .reset →
    t.orc.phase = .abandoned ∧ t.orc.buf = s.orc.buf ∧ t.orc.n = s.orc.n ∧ t.ck = s.ck ∧ t.csN = s.csN ∧
    (s.reqPort ≠ none → t.reqPort = s.reqPort) ∧ (t.respPort = s.respPort ∨ t.respPort = none)

/-- 10_state.md R21, 60_exceptions.md R164, R168: a mark once recorded stays until reset, and with one recorded the
orchestrator takes no step where the mark stops it. Which marks do is the model's reading (log 5). -/
def Obligations.MarksAreStickyAndHaltTheOrchestrator : Prop :=
  ∀ s t : State, step s = .next t → nextMove s ≠ .reset →
    (∀ f, s.orc.faults.has f = true → t.orc.faults.has f = true) ∧
    (∀ op, s.refusedOp = some op → t.refusedOp = some op) ∧
    (¬ s.going → (nextMove s = .orcTake ∨ nextMove s = .orcAdvance) → t = spendMove s)

/-- 10_state.md R34, 43_external_interfaces.md R149: a step that reads an unwritten cell records `F_UNWRITTEN` and has
no other effect: a latch that steps 2 to 5 need, an unconfigured channel that step 3 starts, a busy channel's
descriptor, a sum. What decides before the read comes first: a busy chA at step 2 (R147, R148), a full or empty FIFO
(R150, R151, 20_memory.md R53), an unadmitted address (R40). Only steps 2 to 5 and the channels' moves ever record it.
The model's readings, in states no run reaches: that a READ's `ORC.buf = none` counts as unwritten (log 8), that the
step has no other effect (log 25), and the order of the reads (log 32). -/
def Obligations.UnwrittenReadsAreMarked : Prop :=
  (∀ (s : State) (rest : List Move), s.agenda = .orcAdvance :: rest → s.going →
    ((s.orc.phase = .selected ∧ s.chA.busy = false ∧ s.chB.busy = false ∧ s.orc.op = .unwritten) ∨
      ((s.orc.phase = .armed ∨ s.orc.phase = .inflight ∨ s.orc.phase = .completed) ∧ s.orc.op = .unwritten) ∨
      (s.orc.phase = .selected ∧ s.orc.op = .holds .write ∧ s.chA.busy = false ∧ s.orc.n = .unwritten) ∨
      (s.orc.phase = .selected ∧ s.orc.op = .holds .read ∧ s.chA.busy = false ∧ s.chB.busy = false ∧
        (s.orc.n = .unwritten ∨ s.orc.buf = none)) ∨
      (s.orc.phase = .armed ∧ (s.chA.configured = false ∨ s.chA.remaining = .unwritten)) ∨
      (s.orc.phase = .armed ∧ s.orc.op = .holds .read ∧ (s.chB.configured = false ∨ s.chB.remaining = .unwritten)) ∨
      (s.orc.phase = .completed ∧ s.orc.op = .holds .read ∧
        (s.orc.n = .unwritten ∨ (s.orc.n ≠ .holds 0 ∧ s.orc.buf = none))) ∨
      (s.orc.phase = .completed ∧ s.orc.op = .holds .write ∧ s.orc.result = .unwritten)) →
    step s = .next { s with
      agenda := rest, orc := { s.orc with faults := { s.orc.faults with unwritten := true } } }) ∧
  (∀ (s : State) (rest : List Move) (d : Direction), s.agenda = .orcAdvance :: rest → s.going →
    s.orc.phase = .selected → s.orc.op = .holds d → s.chA.busy = true →
    step s = .next { s with
      agenda := rest, orc := { s.orc with faults := { s.orc.faults with channelBusy := true } } }) ∧
  (∀ (s : State) (rest : List Move) (c : ChannelId), s.agenda = .channel c :: rest → (s.channel c).busy = true →
    let marked := ({ s with
      agenda := rest, orc := { s.orc with faults := { s.orc.faults with unwritten := true } } } : State)
    let held := ({ s with agenda := rest } : State)
    ((s.channel c).dir = .unwritten ∨ (s.channel c).fifo = .unwritten → step s = .next marked) ∧
    (∀ (d : ChannelDir) (f : FifoName), (s.channel c).dir = .holds d → (s.channel c).fifo = .holds f →
      let enabled := (d = .memToFifo → (s.fifo f).length < fifoDepth s.cfg f) ∧ (d = .fifoToMem → s.fifo f ≠ [])
      (¬ enabled → step s = .next held) ∧
      (enabled → (s.channel c).mem = .unwritten → step s = .next marked) ∧
      (∀ m, enabled → (s.channel c).mem = .holds m →
        (m % 4 = 0 → admits s.cfg m = false → step s = .next held) ∧
        (admits s.cfg m = true → (s.channel c).remaining = .unwritten → step s = .next marked)))) ∧
  (∀ (ck : Ck) (w : Word), ck.sum1 = .unwritten ∨ ck.sum2 = .unwritten →
    ckAccum ck w = .marked .unwritten ∧ ckResult ck = .marked .unwritten) ∧
  (∀ s t : State, step s = .next t → s.orc.faults.unwritten = false → t.orc.faults.unwritten = true →
    nextMove s = .orcAdvance ∨ ∃ c, nextMove s = .channel c)

/-- 43_external_interfaces.md R143(a) to (c): whatever the SU does, in every state, it touches no memory, channel,
chip select, port, checksum or phase; CMD_FIFO loses at most its oldest entry and DATA_FIFO gains at most one, within
capacity. -/
def Obligations.SuKeepsTheWeakContract : Prop :=
  ∀ s t : State, (nextMove s = .su ∨ nextMove s = .suPop ∨ ∃ v, nextMove s = .suPush v) → step s = .next t →
    s.SameBlock t ∧
    (t.cmdFifo = s.cmdFifo ∨ ∃ w, s.cmdFifo = w :: t.cmdFifo) ∧
    (t.dataFifo = s.dataFifo ∨
      ∃ v, t.dataFifo = s.dataFifo ++ [v] ∧ s.dataFifo.length < s.cfg.fifoDepthData)

/-! ## Channels -/

/-- 43_external_interfaces.md R147, R148, R154: every form of `configure`. -/
def Obligations.ConfigureSetsTheDescriptor : Prop :=
  ∀ (s : State) (c : ChannelId) (dir : ChannelDir) (mem : Nat) (fifo : FifoName) (count : Nat) (auto : Bool),
    ((s.channel c).busy = true → configure c dir mem fifo count auto s = s.recordFault .channelBusy) ∧
    ((s.channel c).busy = false →
      configure c dir mem fifo count auto s = s.setChannel c
        ⟨.holds dir, .holds mem, .holds fifo, .holds count, .holds auto, true, auto, auto && decide (0 < count)⟩)

/-- 43_external_interfaces.md R150: a MEM_TO_FIFO channel's step, with its frame. That `mem` takes the value 2^32 after
the word at 0xFFFFFFFC, where R23 calls it a u32, is the model's reading of R40 (DEDUCED, log 14). -/
def Obligations.ChannelMovesAWordToItsFifo : Prop :=
  ∀ (s : State) (rest : List Move) (c : ChannelId) (m r : Nat) (f : FifoName),
    s.agenda = .channel c :: rest → (s.channel c).busy = true → (s.channel c).dir = .holds .memToFifo →
    (s.channel c).mem = .holds m → (s.channel c).fifo = .holds f → (s.channel c).remaining = .holds r → 0 < r →
    (s.fifo f).length < fifoDepth s.cfg f → admits s.cfg m = true →
      step s = .next ((State.setFifo { s with agenda := rest } f (s.fifo f ++ [s.wordAt m])).setChannel c
        { s.channel c with
          mem := .holds (m + 4), remaining := .holds (r - 1), busy := decide (r ≠ 1) })

/-- 43_external_interfaces.md R151: a FIFO_TO_MEM channel's step, with its frame: the oldest entry is stored at the
channel's address, four bytes, and no other byte changes. That `mem` takes the value 2^32 after the word at 0xFFFFFFFC,
where R23 calls it a u32, is the model's reading of R40 (DEDUCED, log 14). -/
def Obligations.ChannelMovesAWordToMemory : Prop :=
  ∀ (s : State) (rest : List Move) (c : ChannelId) (m r : Nat) (f : FifoName) (v : Word) (vs : List Word),
    s.agenda = .channel c :: rest → (s.channel c).busy = true → (s.channel c).dir = .holds .fifoToMem →
    (s.channel c).mem = .holds m → (s.channel c).fifo = .holds f → (s.channel c).remaining = .holds r → 0 < r →
    s.fifo f = v :: vs → admits s.cfg m = true →
      ∃ t, step s = .next t ∧ t.wordAt m = v ∧ s.SameBytesOutside t m 4 ∧ t.fifo f = vs ∧
        t.channel c = { s.channel c with
          mem := .holds (m + 4), remaining := .holds (r - 1), busy := decide (r ≠ 1) } ∧
        t = State.setChannel { (State.setFifo { s with agenda := rest } f vs) with mem := t.mem } c (t.channel c)

/-- 43_external_interfaces.md R150, R151 and 20_memory.md R40, R53: where a channel has no step, nothing changes: not
busy, whatever its descriptor holds; or busy with the FIFO full or empty, or the address not admitted, so that a stuck
write pops nothing. -/
def Obligations.ChannelsHold : Prop :=
  ∀ (s : State) (rest : List Move) (c : ChannelId), s.agenda = .channel c :: rest →
    ((s.channel c).busy = false → step s = .next { s with agenda := rest }) ∧
    (∀ (m r : Nat) (f : FifoName) (d : ChannelDir),
      (s.channel c).dir = .holds d → (s.channel c).mem = .holds m → (s.channel c).fifo = .holds f →
      (s.channel c).remaining = .holds r →
      ((d = .memToFifo ∧ fifoDepth s.cfg f ≤ (s.fifo f).length) ∨ (d = .fifoToMem ∧ s.fifo f = []) ∨
        (m % 4 = 0 ∧ admits s.cfg m = false)) →
        step s = .next { s with agenda := rest })

/-- 43_external_interfaces.md R152: a channel's finish flag stays true until the channel is next configured (step 2,
READ's for both channels and WRITE's for chA) or the block is reset. The invariant rules out states no run reaches. -/
def Obligations.FinishFlagsStay : Prop :=
  ∀ (s t : State) (c : ChannelId), s.Inv → (s.channel c).finish = true → step s = .next t →
    nextMove s ≠ .reset →
    ¬ (nextMove s = .orcAdvance ∧ s.orc.phase = .selected ∧ (c = .chA ∨ s.orc.op = .holds .read)) →
      (t.channel c).finish = true

/-! ## The signalling unit and the device -/

/-- 30_encoding.md R73: each of the eight CA kinds completes in every state; the SU holds the command's fields and
awaits W4, and nothing else changes. That the SU keeps the fields is the model's (log 20, log 27). -/
def Obligations.CaKindsComplete : Prop :=
  ∀ (s : State) (a wait wc : Word),
    let held := fun read rs lin => ({ s with su := { s.su with
      phase := .command ⟨read, rs, lin, a, wait, wc⟩ } } : State)
    exec (.caMemWriteWrapped a wait wc) s = .next (held false false false) ∧
    exec (.caMemWriteLinear a wait wc) s = .next (held false false true) ∧
    exec (.caRegWriteWrapped a wait wc) s = .next (held false true false) ∧
    exec (.caRegWriteLinear a wait wc) s = .next (held false true true) ∧
    exec (.caMemReadWrapped a wait wc) s = .next (held true false false) ∧
    exec (.caMemReadLinear a wait wc) s = .next (held true false true) ∧
    exec (.caRegReadWrapped a wait wc) s = .next (held true true false) ∧
    exec (.caRegReadLinear a wait wc) s = .next (held true true true)

/-- 43_external_interfaces.md R144, R145: with a header taken, both control words complete; W4's entry is the jump
target, the mask the pin direction, and nothing outside the SU changes. After an ideal command the data phase
follows; after any other (a mask that does not agree with RW, an odd count, register space, a wrapped burst, beats past
the device's last) the SU is bound by R143 alone. That the SU keeps these in fields of its own, that an SU outside R145
stays so until boot, what counts as outside it, and that R144's reading of W4 holds there too, are the model's readings
(log 20, log 21, log 22, log 34). -/
def Obligations.ControlWordsComplete : Prop :=
  ∀ (s : State) (entry : BitVec 16) (ca : CaFields), s.su.phase = .command ca →
    (∃ p, exec (.ctrlRead entry) s = .next { s with su := { s.su with
        jump := .holds entry, pinDir := .holds 0x00, phase := p } } ∧
      (ca.read = true ∧ ca.wordCount.toNat % 2 = 0 ∧ ca.wordCount ≠ 0 ∧ ca.registerSpace = false ∧
        ca.linearBurst = true ∧ ca.address.toNat + ca.wordCount.toNat ≤ s.cfg.deviceWords →
          p = .pushing ca.address.toNat (ca.wordCount.toNat / 2)) ∧
      (ca.read = false ∨ ca.wordCount.toNat % 2 = 1 ∨ ca.wordCount = 0 ∨ ca.registerSpace = true ∨
        ca.linearBurst = false ∨ s.cfg.deviceWords < ca.address.toNat + ca.wordCount.toNat →
          p = .free)) ∧
    (∃ p, exec (.ctrlWrite entry) s = .next { s with su := { s.su with
        jump := .holds entry, pinDir := .holds 0xFF, phase := p } } ∧
      (ca.read = false ∧ ca.wordCount.toNat % 2 = 0 ∧ ca.wordCount ≠ 0 ∧ ca.registerSpace = false ∧
        ca.linearBurst = true ∧ ca.address.toNat + ca.wordCount.toNat ≤ s.cfg.deviceWords →
          p = .popping ca.address.toNat (ca.wordCount.toNat / 2)) ∧
      (ca.read = true ∨ ca.wordCount.toNat % 2 = 1 ∨ ca.wordCount = 0 ∨ ca.registerSpace = true ∨
        ca.linearBurst = false ∨ s.cfg.deviceWords < ca.address.toNat + ca.wordCount.toNat →
          p = .free))

/-- 43_external_interfaces.md R145(a), (d) with 30_encoding.md R75: what each pop of a header leaves. The first three
words are kept; with the fourth the SU has the header's fields, or, for a malformed one, is bound by R143 alone, and so
for a malformed W4; an empty CMD_FIFO holds it. No other state changes. That the SU keeps the words, takes W0 to W3 and
W4 as two instructions, stays outside R145 after a malformed one, and keeps its jump target and pin direction through a
malformed W4, are the model's (log 20, log 21, log 27, log 34). -/
def Obligations.SuPopsTheHeader : Prop :=
  ∀ (s : State) (rest : List Move), s.agenda = .su :: rest →
    (∀ got, s.su.phase = .header got →
      (s.cmdFifo = [] → step s = .next { s with agenda := rest }) ∧
      (∀ w ws, s.cmdFifo = w :: ws → got.length < 3 →
        step s = .next { s with agenda := rest, cmdFifo := ws, su := { s.su with phase := .header (got ++ [w]) } })) ∧
    (∀ w0 w1 w2 w3 ws, s.su.phase = .header [w0, w1, w2] → s.cmdFifo = w3 :: ws →
      let fields : CaFields := ⟨w0.getLsbD 15, w0.getLsbD 14, w0.getLsbD 13,
        w0.extractLsb' 0 13 ++ w1.extractLsb' 16 16 ++ w1.extractLsb' 0 3, w2, w3 + 1⟩
      (w0.extractLsb' 16 16 ≠ 0xFF00#16 ∨ w1.extractLsb' 3 13 ≠ 0#13 ∨ w3 = 0xFFFFFFFF#32 →
        step s = .next { s with agenda := rest, cmdFifo := ws, su := { s.su with phase := .free } }) ∧
      (¬ (w0.extractLsb' 16 16 ≠ 0xFF00#16 ∨ w1.extractLsb' 3 13 ≠ 0#13 ∨ w3 = 0xFFFFFFFF#32) →
        step s = .next { s with agenda := rest, cmdFifo := ws, su := { s.su with phase := .command fields } })) ∧
    (∀ ca, s.su.phase = .command ca →
      (s.cmdFifo = [] → step s = .next { s with agenda := rest }) ∧
      (∀ w4 ws, s.cmdFifo = w4 :: ws →
        (w4.extractLsb' 8 8 ≠ 0#8 ∨ (w4.extractLsb' 0 8 ≠ 0x00#8 ∧ w4.extractLsb' 0 8 ≠ 0xFF#8)) →
          step s = .next { s with agenda := rest, cmdFifo := ws, su := { s.su with phase := .free } }))

/-- 43_external_interfaces.md R145(b), (d): one word of an ideal read's data phase. The SU's place in the command, from
one word to the next and back to a header after the last, is the model's field (log 20), and it counts device addresses
as naturals, past 2^32 - 1 too (log 22). -/
def Obligations.IdealSuPushesTheNextDeviceWord : Prop :=
  ∀ (s : State) (rest : List Move) (a left : Nat), s.agenda = .su :: rest →
    s.su.phase = .pushing a left → 0 < left →
    (s.dataFifo.length < s.cfg.fifoDepthData →
      step s = .next { s with
        agenda := rest
        dataFifo := s.dataFifo ++ [pack s.cfg.beatOrder (s.beatAt a) (s.beatAt (a + 1))]
        su := { s.su with phase := if left = 1 then .header [] else .pushing (a + 2) (left - 1) } }) ∧
    (s.cfg.fifoDepthData ≤ s.dataFifo.length → step s = .next { s with agenda := rest })

/-- 43_external_interfaces.md R145(c), (d): one word of an ideal write's data phase: its two beats are stored, and no
other beat changes. The SU's place in the command, from one word to the next and back to a header after the last, is the
model's field (log 20), and it counts device addresses as naturals, past 2^32 - 1 too (log 22). -/
def Obligations.IdealSuStoresTheNextPayloadWord : Prop :=
  ∀ (s : State) (rest : List Move) (a left : Nat), s.agenda = .su :: rest →
    s.su.phase = .popping a left → 0 < left →
    (∀ w ws, s.cmdFifo = w :: ws →
      ∃ t, step s = .next t ∧
        t = { s with
          agenda := rest, cmdFifo := ws, dev := t.dev
          su := { s.su with phase := if left = 1 then .header [] else .popping (a + 2) (left - 1) } } ∧
        pack s.cfg.beatOrder (t.beatAt a) (t.beatAt (a + 1)) = w ∧
        (∀ b, b ≠ a → b ≠ a + 1 → t.beatAt b = s.beatAt b)) ∧
    (s.cmdFifo = [] → step s = .next { s with agenda := rest })

/-- 43_external_interfaces.md R157: `unpack` is the inverse of `pack` in either beat order, and the beat at the lower
address lies where the order says. -/
def Obligations.PackAndUnpackAreInverse : Prop :=
  (∀ (o : BeatOrder) (w : Word), pack o (unpack o w).1 (unpack o w).2 = w) ∧
  (∀ (o : BeatOrder) (b0 b1 : Beat), unpack o (pack o b0 b1) = (b0, b1)) ∧
  (∀ b0 b1 : Beat, (pack .lowFirst b0 b1).toNat = b1.toNat * 2 ^ 16 + b0.toNat) ∧
  (∀ b0 b1 : Beat, (pack .highFirst b0 b1).toNat = b0.toNat * 2 ^ 16 + b1.toNat)

/-- The signalling unit's half of the round-trip law of 43_external_interfaces.md R157, for a payload that fits
DATA_FIFO: an ideal SU that takes a WRITE's stream and then a READ's header, for the same address and an even count on
the device, pushes exactly the payload, in either beat order and whatever the device held. The SU's fields, its states
between the pops and the words it executes are the model's (log 20, log 27). The whole block's round trip, for any
payload, is `WriteThenReadReturnsThePayload`. -/
def Obligations.IdealSuReadsBackWhatItWrote : Prop :=
  ∀ (s : State) (address wc wait wait' er ew er' ew' : Word) (payload : List Word),
    wc ≠ 0 → wc.toNat % 2 = 0 → payload.length = wc.toNat / 2 →
    address.toNat + wc.toNat ≤ s.cfg.deviceWords → payload.length ≤ s.cfg.fifoDepthData →
    s.su.phase = .header [] → s.dataFifo = [] →
    s.cmdFifo = (buildCommand false false true address wc wait er ew).toList ++ payload
      ++ (buildCommand true false true address wc wait' er' ew').toList →
    s.agenda = List.replicate (10 + 2 * payload.length) .su →
      ∃ t, core.run (10 + 2 * payload.length) s = .next t ∧
        t.dataFifo = payload ∧ t.cmdFifo = [] ∧ t.su.phase = .header [] ∧ s.SameBlock t

/-- The round-trip law of 43_external_interfaces.md R157 over the whole block: a WRITE of the words at `srcbuf` and then
a READ of the same address and count return those words at `rxbuf`, with the same checksum in both responses, for a
payload of any length that TXBUF holds and FIFOs of any depth, in either byte order and either beat order. The
interleaving is the one `writeMoves` and `readMoves` write out, in which the channels and the SU take turns; the SU's
states between its pops are the model's (log 3, log 20, log 27). -/
def Obligations.WriteThenReadReturnsThePayload : Prop :=
  ∀ (s : State) (address wc srcbuf rxbuf : Word),
    let n := wc.toNat / 2
    let payload := s.wordsAt srcbuf.toNat n
    s.cfg.Wf → s.cfg.regSpace = false → s.cfg.linearBurst = true →
    s.Ready → s.reqPort = none → s.chA.busy = false → s.chB.busy = false →
    s.su.phase = .header [] → s.cmdFifo = [] → s.dataFifo = [] →
    wc ≠ 0 → wc.toNat % 2 = 0 → address.toNat + wc.toNat ≤ s.cfg.deviceWords → 5 + n ≤ s.cfg.txbufWords →
    srcbuf.toNat % 4 = 0 → AdmittedWords s.cfg srcbuf.toNat n → ClearOfTxbuf s.cfg srcbuf n (5 + n) →
    rxbuf.toNat % 4 = 0 → AdmittedWords s.cfg rxbuf.toNat n → ClearOfTxbuf s.cfg rxbuf n 5 →
    s.agenda = writeMoves address wc srcbuf ++ readMoves address wc rxbuf →
      ∃ u t, core.run (writeMoves address wc srcbuf).length s = .next u ∧
        core.run (readMoves address wc rxbuf).length u = .next t ∧
        u.respPort = some ⟨0x00, .checksum (fletcher64 payload s.cfg.xferSeed)⟩ ∧
        t.respPort = some ⟨0x00, .checksum (fletcher64 payload s.cfg.xferSeed)⟩ ∧
        t.wordsAt rxbuf.toNat n = payload ∧ t.orc.phase = .idle ∧ t.csN = true ∧
        t.cmdFifo = [] ∧ t.dataFifo = [] ∧ t.su.phase = .header []

/-! ## The host -/

/-- 43_external_interfaces.md R158: the host's table, row by row: what each move does where the table enables it, and
that it changes nothing elsewhere. A record that is none of the five requests is no put. A host write is one of an
aligned word (log 18); the words it may write are those of `HostsWord`, in which the range kept for a READ and for an
accepted CHECKSUM is the model's field, kept after an ABANDON even when the response is taken (log 15). The last clause
is the model's, no row of the table: a reserved op, and a request in ABANDONED, may reach the port too (log 16, log
17). -/
def Obligations.HostMovesFollowTheTable : Prop :=
  ∀ (s : State) (rest : List Move),
    (∀ r, s.agenda = .put r :: rest →
      let enabled := (∃ i, decode .request r.words = .ok i) ∧ s.reqPort = none ∧
        (r.op = 5 ∨ (s.respPort = none ∧ s.orc.phase = .idle))
      (enabled → step s = .next { s with agenda := rest, reqPort := some r }) ∧
      (¬ enabled → step s = .next { s with agenda := rest })) ∧
    (s.agenda = .takeResponse :: rest →
      (s.respPort ≠ none → step s = .next { s with
        agenda := rest, respPort := none, owned := if s.orc.phase = .abandoned then s.owned else none }) ∧
      (s.respPort = none → step s = .next { s with agenda := rest })) ∧
    (∀ a v, s.agenda = .hostWrite a v :: rest →
      (s.HostsWord a → ∃ t, step s = .next t ∧ t.wordAt a.toNat = v ∧ s.SameBytesOutside t a.toNat 4 ∧
        t = { s with agenda := rest, mem := t.mem }) ∧
      (¬ s.HostsWord a → step s = .next { s with agenda := rest })) ∧
    (∀ a, s.agenda = .hostRead a :: rest → step s = .next { s with agenda := rest }) ∧
    (∀ r, s.agenda = .present r :: rest →
      let enabled := ((∃ i, decode .request r.words = .ok i) ∨ r.op = 0 ∨ 6 ≤ r.op.toNat) ∧ s.reqPort = none ∧
        s.respPort = none ∧ (s.orc.phase = .idle ∨ s.orc.phase = .abandoned)
      (enabled → step s = .next { s with agenda := rest, reqPort := some r }) ∧
      (¬ enabled → step s = .next { s with agenda := rest }))

/-- 20_memory.md R41: no host write changes a byte of TXBUF, of an accepted READ's receive range, or of an accepted
CHECKSUM's source range. The range is the model's field `owned`, set at acceptance and cleared as the response is taken
but kept after an ABANDON (log 15). -/
def Obligations.OwnedRangesAreNotTheHosts : Prop :=
  ∀ (s t : State) (a v : Word), nextMove s = .hostWrite a v → step s = .next t →
    (∀ b, inTxbuf s.cfg b = true → t.byteAt b = s.byteAt b) ∧
    (∀ base words b, s.owned = some (base, words) → base ≤ b → b < base + 4 * words → t.byteAt b = s.byteAt b)

/-- 70_reset_and_hazards.md R178, R179, steps 2 to 4, as the one move the model makes of them (log 23): with nothing
going on, the SU is initialised with the platform's arguments and ready for a header, the device's contents are fresh
and unspecified, both FIFOs are empty, and nothing of the block but them changes; otherwise nothing changes. The SU's
fields and the device's free values are the model's (log 20, log 22, log 30). -/
def Obligations.BootPreparesTheEnvironment : Prop :=
  ∀ (s : State) (rest : List Move), s.agenda = .boot :: rest →
    let enabled := s.orc.phase = .idle ∧ s.reqPort = none ∧ s.chA.busy = false ∧ s.chB.busy = false
    (enabled → step s = .next { s with
      agenda := rest, cmdFifo := [], dataFifo := []
      su := ⟨.header [], .unwritten, .unwritten, some s.cfg.suInit⟩
      dev := [], devEpoch := s.draws, draws := s.draws + 1 }) ∧
    (¬ enabled → step s = .next { s with agenda := rest })

/-! ## Memory and FIFOs -/

/-- 20_memory.md R37, R38, R40, R45: an aligned admitted word reads back as written, in either byte order, again and
again; no other byte changes; a misaligned access records `F_MISALIGNED`; an aligned one outside `MEM_ADMITTED` has
no step. -/
def Obligations.MemoryHoldsWords : Prop :=
  ∀ (s : State) (a : Nat) (v : Word),
    (admits s.cfg a = true →
      ∃ t, memWrite s a v = .ok t ∧ memRead t a = .ok v ∧ s.SameBytesOutside t a 4 ∧ t = { s with mem := t.mem } ∧
        (Memory.wf s.mem → Memory.wf t.mem)) ∧
    (a % 4 ≠ 0 → memRead s a = .marked .misaligned ∧ memWrite s a v = .marked .misaligned) ∧
    (a % 4 = 0 → admits s.cfg a = false → memRead s a = .stuck ∧ memWrite s a v = .stuck) ∧
    (2 ^ 32 ≤ a → admits s.cfg a = false)

/-- 20_memory.md R53: a push appends where there is room, a pop takes the oldest entry where there is one, and
otherwise each is stuck; the other FIFO is as it was. -/
def Obligations.FifosAreFirstInFirstOut : Prop :=
  ∀ (s : State) (f : FifoName) (v : Word),
    ((s.fifo f).length < fifoDepth s.cfg f → fifoPush s f v = .ok (s.setFifo f (s.fifo f ++ [v]))) ∧
    (fifoDepth s.cfg f ≤ (s.fifo f).length → fifoPush s f v = .stuck) ∧
    (∀ w ws, s.fifo f = w :: ws → fifoPop s f = .ok (w, s.setFifo f ws)) ∧
    (s.fifo f = [] → fifoPop s f = .stuck) ∧
    (∀ ws g, (s.setFifo f ws).fifo g = if g = f then ws else s.fifo g)

/-! ## Frames -/

/-- The frame of CHECKSUM, ENCODE and ABANDON, in every state: no byte of memory, no channel, no FIFO, no fault mark
and nothing of the environment changes; CHECKSUM alone writes the sums, and ABANDON alone chip select and phase. -/
def Obligations.RequestsThatMoveNoDataFrame : Prop :=
  ∀ (s t : State) (i : Instr), exec i s = .next t →
    ((∃ base count seed, i = .checksum base count seed) ∨
      (∃ read rs lin a wc wait er ew, i = .encode read rs lin a wc wait er ew) ∨ i = .abandon) →
    t.mem = s.mem ∧ (∀ a, t.byteAt a = s.byteAt a) ∧ t.chA = s.chA ∧ t.chB = s.chB ∧ t.cmdFifo = s.cmdFifo ∧
    t.dataFifo = s.dataFifo ∧ t.refusedOp = s.refusedOp ∧ s.SameEnvironment t ∧ t.cfg = s.cfg ∧
    t.agenda = s.agenda ∧ t.draws = s.draws ∧
    t.orc.op = s.orc.op ∧ t.orc.addr = s.orc.addr ∧ t.orc.wc = s.orc.wc ∧ t.orc.n = s.orc.n ∧
    t.orc.buf = s.orc.buf ∧ t.orc.result = s.orc.result ∧
    (t.orc.faults.unwritten = s.orc.faults.unwritten ∧ t.orc.faults.overlap = s.orc.faults.overlap ∧
      t.orc.faults.misaligned = s.orc.faults.misaligned ∧ t.orc.faults.channelBusy = s.orc.faults.channelBusy) ∧
    (i ≠ .abandon → t.csN = s.csN ∧ t.orc.phase = s.orc.phase) ∧
    ((∀ base count seed, i ≠ .checksum base count seed) → t.ck = s.ck ∧ t.owned = s.owned)

/-- The frame of READ and WRITE, in every state: the bytes stored are the TXBUF words of the packet, and of the
payload for WRITE; no channel, no FIFO and nothing of the environment changes; READ writes no sums. -/
def Obligations.TransfersFrame : Prop :=
  ∀ (s t : State) (address wc buf : Word),
    (exec (.read address wc buf) s = .next t →
      s.SameBytesOutside t s.cfg.txbufBase.toNat 20 ∧ t.ck = s.ck ∧ t.orc.result = s.orc.result ∧
      t.chA = s.chA ∧ t.chB = s.chB ∧ t.cmdFifo = s.cmdFifo ∧ t.dataFifo = s.dataFifo ∧
      t.refusedOp = s.refusedOp ∧ s.SameEnvironment t ∧ t.cfg = s.cfg ∧ t.agenda = s.agenda ∧ t.draws = s.draws) ∧
    (exec (.write address wc buf) s = .next t →
      s.SameBytesOutside t s.cfg.txbufBase.toNat (4 * (5 + payloadWords wc)) ∧ t.owned = s.owned ∧
      t.chA = s.chA ∧ t.chB = s.chB ∧ t.cmdFifo = s.cmdFifo ∧ t.dataFifo = s.dataFifo ∧
      t.refusedOp = s.refusedOp ∧ s.SameEnvironment t ∧ t.cfg = s.cfg ∧ t.agenda = s.agenda ∧ t.draws = s.draws)
end

