-- ==== Sys2Proof/Laws/State.lean ====
section
/-! SUPPORT. What each named update of the state leaves in each field, and the laws of accesses and marks. -/

namespace Sys2Proof.Machine

/-! ## recordFault -/

@[simp] theorem State.recordFault_cfg (f : Fault) (s : State) : (s.recordFault f).cfg = s.cfg := rfl
@[simp] theorem State.recordFault_ck (f : Fault) (s : State) : (s.recordFault f).ck = s.ck := rfl
@[simp] theorem State.recordFault_orc (f : Fault) (s : State) :
    (s.recordFault f).orc = { s.orc with faults := s.orc.faults.add f } := rfl
@[simp] theorem State.recordFault_chA (f : Fault) (s : State) : (s.recordFault f).chA = s.chA := rfl
@[simp] theorem State.recordFault_chB (f : Fault) (s : State) : (s.recordFault f).chB = s.chB := rfl
@[simp] theorem State.recordFault_csN (f : Fault) (s : State) : (s.recordFault f).csN = s.csN := rfl
@[simp] theorem State.recordFault_cmdFifo (f : Fault) (s : State) : (s.recordFault f).cmdFifo = s.cmdFifo := rfl
@[simp] theorem State.recordFault_dataFifo (f : Fault) (s : State) : (s.recordFault f).dataFifo = s.dataFifo := rfl
@[simp] theorem State.recordFault_mem (f : Fault) (s : State) : (s.recordFault f).mem = s.mem := rfl
@[simp] theorem State.recordFault_reqPort (f : Fault) (s : State) : (s.recordFault f).reqPort = s.reqPort := rfl
@[simp] theorem State.recordFault_respPort (f : Fault) (s : State) : (s.recordFault f).respPort = s.respPort := rfl
@[simp] theorem State.recordFault_refusedOp (f : Fault) (s : State) : (s.recordFault f).refusedOp = s.refusedOp := rfl
@[simp] theorem State.recordFault_su (f : Fault) (s : State) : (s.recordFault f).su = s.su := rfl
@[simp] theorem State.recordFault_dev (f : Fault) (s : State) : (s.recordFault f).dev = s.dev := rfl
@[simp] theorem State.recordFault_owned (f : Fault) (s : State) : (s.recordFault f).owned = s.owned := rfl
@[simp] theorem State.recordFault_agenda (f : Fault) (s : State) : (s.recordFault f).agenda = s.agenda := rfl
@[simp] theorem State.recordFault_draws (f : Fault) (s : State) : (s.recordFault f).draws = s.draws := rfl
@[simp] theorem State.recordFault_txEpoch (f : Fault) (s : State) : (s.recordFault f).txEpoch = s.txEpoch := rfl
@[simp] theorem State.recordFault_devEpoch (f : Fault) (s : State) : (s.recordFault f).devEpoch = s.devEpoch := rfl

/-! ## setPhase -/

@[simp] theorem State.setPhase_cfg (p : Phase) (s : State) : (s.setPhase p).cfg = s.cfg := rfl
@[simp] theorem State.setPhase_ck (p : Phase) (s : State) : (s.setPhase p).ck = s.ck := rfl
@[simp] theorem State.setPhase_orc (p : Phase) (s : State) : (s.setPhase p).orc = { s.orc with phase := p } := rfl
@[simp] theorem State.setPhase_chA (p : Phase) (s : State) : (s.setPhase p).chA = s.chA := rfl
@[simp] theorem State.setPhase_chB (p : Phase) (s : State) : (s.setPhase p).chB = s.chB := rfl
@[simp] theorem State.setPhase_csN (p : Phase) (s : State) : (s.setPhase p).csN = s.csN := rfl
@[simp] theorem State.setPhase_cmdFifo (p : Phase) (s : State) : (s.setPhase p).cmdFifo = s.cmdFifo := rfl
@[simp] theorem State.setPhase_dataFifo (p : Phase) (s : State) : (s.setPhase p).dataFifo = s.dataFifo := rfl
@[simp] theorem State.setPhase_mem (p : Phase) (s : State) : (s.setPhase p).mem = s.mem := rfl
@[simp] theorem State.setPhase_reqPort (p : Phase) (s : State) : (s.setPhase p).reqPort = s.reqPort := rfl
@[simp] theorem State.setPhase_respPort (p : Phase) (s : State) : (s.setPhase p).respPort = s.respPort := rfl
@[simp] theorem State.setPhase_refusedOp (p : Phase) (s : State) : (s.setPhase p).refusedOp = s.refusedOp := rfl
@[simp] theorem State.setPhase_su (p : Phase) (s : State) : (s.setPhase p).su = s.su := rfl
@[simp] theorem State.setPhase_dev (p : Phase) (s : State) : (s.setPhase p).dev = s.dev := rfl
@[simp] theorem State.setPhase_owned (p : Phase) (s : State) : (s.setPhase p).owned = s.owned := rfl
@[simp] theorem State.setPhase_agenda (p : Phase) (s : State) : (s.setPhase p).agenda = s.agenda := rfl
@[simp] theorem State.setPhase_draws (p : Phase) (s : State) : (s.setPhase p).draws = s.draws := rfl
@[simp] theorem State.setPhase_txEpoch (p : Phase) (s : State) : (s.setPhase p).txEpoch = s.txEpoch := rfl
@[simp] theorem State.setPhase_devEpoch (p : Phase) (s : State) : (s.setPhase p).devEpoch = s.devEpoch := rfl

/-! ## select -/

@[simp] theorem State.select_cfg (s : State) : (s.select).cfg = s.cfg := rfl
@[simp] theorem State.select_ck (s : State) : (s.select).ck = s.ck := rfl
@[simp] theorem State.select_orc (s : State) : (s.select).orc = s.orc := rfl
@[simp] theorem State.select_chA (s : State) : (s.select).chA = s.chA := rfl
@[simp] theorem State.select_chB (s : State) : (s.select).chB = s.chB := rfl
@[simp] theorem State.select_csN (s : State) : (s.select).csN = false := rfl
@[simp] theorem State.select_cmdFifo (s : State) : (s.select).cmdFifo = s.cmdFifo := rfl
@[simp] theorem State.select_dataFifo (s : State) : (s.select).dataFifo = s.dataFifo := rfl
@[simp] theorem State.select_mem (s : State) : (s.select).mem = s.mem := rfl
@[simp] theorem State.select_reqPort (s : State) : (s.select).reqPort = s.reqPort := rfl
@[simp] theorem State.select_respPort (s : State) : (s.select).respPort = s.respPort := rfl
@[simp] theorem State.select_refusedOp (s : State) : (s.select).refusedOp = s.refusedOp := rfl
@[simp] theorem State.select_su (s : State) : (s.select).su = s.su := rfl
@[simp] theorem State.select_dev (s : State) : (s.select).dev = s.dev := rfl
@[simp] theorem State.select_owned (s : State) : (s.select).owned = s.owned := rfl
@[simp] theorem State.select_agenda (s : State) : (s.select).agenda = s.agenda := rfl
@[simp] theorem State.select_draws (s : State) : (s.select).draws = s.draws := rfl
@[simp] theorem State.select_txEpoch (s : State) : (s.select).txEpoch = s.txEpoch := rfl
@[simp] theorem State.select_devEpoch (s : State) : (s.select).devEpoch = s.devEpoch := rfl

/-! ## deselect -/

@[simp] theorem State.deselect_cfg (s : State) : (s.deselect).cfg = s.cfg := rfl
@[simp] theorem State.deselect_ck (s : State) : (s.deselect).ck = s.ck := rfl
@[simp] theorem State.deselect_orc (s : State) : (s.deselect).orc = s.orc := rfl
@[simp] theorem State.deselect_chA (s : State) : (s.deselect).chA = s.chA := rfl
@[simp] theorem State.deselect_chB (s : State) : (s.deselect).chB = s.chB := rfl
@[simp] theorem State.deselect_csN (s : State) : (s.deselect).csN = true := rfl
@[simp] theorem State.deselect_cmdFifo (s : State) : (s.deselect).cmdFifo = s.cmdFifo := rfl
@[simp] theorem State.deselect_dataFifo (s : State) : (s.deselect).dataFifo = s.dataFifo := rfl
@[simp] theorem State.deselect_mem (s : State) : (s.deselect).mem = s.mem := rfl
@[simp] theorem State.deselect_reqPort (s : State) : (s.deselect).reqPort = s.reqPort := rfl
@[simp] theorem State.deselect_respPort (s : State) : (s.deselect).respPort = s.respPort := rfl
@[simp] theorem State.deselect_refusedOp (s : State) : (s.deselect).refusedOp = s.refusedOp := rfl
@[simp] theorem State.deselect_su (s : State) : (s.deselect).su = s.su := rfl
@[simp] theorem State.deselect_dev (s : State) : (s.deselect).dev = s.dev := rfl
@[simp] theorem State.deselect_owned (s : State) : (s.deselect).owned = s.owned := rfl
@[simp] theorem State.deselect_agenda (s : State) : (s.deselect).agenda = s.agenda := rfl
@[simp] theorem State.deselect_draws (s : State) : (s.deselect).draws = s.draws := rfl
@[simp] theorem State.deselect_txEpoch (s : State) : (s.deselect).txEpoch = s.txEpoch := rfl
@[simp] theorem State.deselect_devEpoch (s : State) : (s.deselect).devEpoch = s.devEpoch := rfl

/-! ## takeRequest -/

@[simp] theorem State.takeRequest_cfg (s : State) : (s.takeRequest).cfg = s.cfg := rfl
@[simp] theorem State.takeRequest_ck (s : State) : (s.takeRequest).ck = s.ck := rfl
@[simp] theorem State.takeRequest_orc (s : State) : (s.takeRequest).orc = s.orc := rfl
@[simp] theorem State.takeRequest_chA (s : State) : (s.takeRequest).chA = s.chA := rfl
@[simp] theorem State.takeRequest_chB (s : State) : (s.takeRequest).chB = s.chB := rfl
@[simp] theorem State.takeRequest_csN (s : State) : (s.takeRequest).csN = s.csN := rfl
@[simp] theorem State.takeRequest_cmdFifo (s : State) : (s.takeRequest).cmdFifo = s.cmdFifo := rfl
@[simp] theorem State.takeRequest_dataFifo (s : State) : (s.takeRequest).dataFifo = s.dataFifo := rfl
@[simp] theorem State.takeRequest_mem (s : State) : (s.takeRequest).mem = s.mem := rfl
@[simp] theorem State.takeRequest_reqPort (s : State) : (s.takeRequest).reqPort = none := rfl
@[simp] theorem State.takeRequest_respPort (s : State) : (s.takeRequest).respPort = s.respPort := rfl
@[simp] theorem State.takeRequest_refusedOp (s : State) : (s.takeRequest).refusedOp = s.refusedOp := rfl
@[simp] theorem State.takeRequest_su (s : State) : (s.takeRequest).su = s.su := rfl
@[simp] theorem State.takeRequest_dev (s : State) : (s.takeRequest).dev = s.dev := rfl
@[simp] theorem State.takeRequest_owned (s : State) : (s.takeRequest).owned = s.owned := rfl
@[simp] theorem State.takeRequest_agenda (s : State) : (s.takeRequest).agenda = s.agenda := rfl
@[simp] theorem State.takeRequest_draws (s : State) : (s.takeRequest).draws = s.draws := rfl
@[simp] theorem State.takeRequest_txEpoch (s : State) : (s.takeRequest).txEpoch = s.txEpoch := rfl
@[simp] theorem State.takeRequest_devEpoch (s : State) : (s.takeRequest).devEpoch = s.devEpoch := rfl

/-! ## respond -/

@[simp] theorem State.respond_cfg (st : Byte) (p : Payload) (s : State) : (s.respond st p).cfg = s.cfg := rfl
@[simp] theorem State.respond_ck (st : Byte) (p : Payload) (s : State) : (s.respond st p).ck = s.ck := rfl
@[simp] theorem State.respond_orc (st : Byte) (p : Payload) (s : State) : (s.respond st p).orc = s.orc := rfl
@[simp] theorem State.respond_chA (st : Byte) (p : Payload) (s : State) : (s.respond st p).chA = s.chA := rfl
@[simp] theorem State.respond_chB (st : Byte) (p : Payload) (s : State) : (s.respond st p).chB = s.chB := rfl
@[simp] theorem State.respond_csN (st : Byte) (p : Payload) (s : State) : (s.respond st p).csN = s.csN := rfl
@[simp] theorem State.respond_cmdFifo (st : Byte) (p : Payload) (s : State) :
    (s.respond st p).cmdFifo = s.cmdFifo := rfl
@[simp] theorem State.respond_dataFifo (st : Byte) (p : Payload) (s : State) :
    (s.respond st p).dataFifo = s.dataFifo := rfl
@[simp] theorem State.respond_mem (st : Byte) (p : Payload) (s : State) : (s.respond st p).mem = s.mem := rfl
@[simp] theorem State.respond_reqPort (st : Byte) (p : Payload) (s : State) :
    (s.respond st p).reqPort = s.reqPort := rfl
@[simp] theorem State.respond_respPort (st : Byte) (p : Payload) (s : State) :
    (s.respond st p).respPort = some ⟨st, p⟩ := rfl
@[simp] theorem State.respond_refusedOp (st : Byte) (p : Payload) (s : State) :
    (s.respond st p).refusedOp = s.refusedOp := rfl
@[simp] theorem State.respond_su (st : Byte) (p : Payload) (s : State) : (s.respond st p).su = s.su := rfl
@[simp] theorem State.respond_dev (st : Byte) (p : Payload) (s : State) : (s.respond st p).dev = s.dev := rfl
@[simp] theorem State.respond_owned (st : Byte) (p : Payload) (s : State) : (s.respond st p).owned = s.owned := rfl
@[simp] theorem State.respond_agenda (st : Byte) (p : Payload) (s : State) : (s.respond st p).agenda = s.agenda := rfl
@[simp] theorem State.respond_draws (st : Byte) (p : Payload) (s : State) : (s.respond st p).draws = s.draws := rfl
@[simp] theorem State.respond_txEpoch (st : Byte) (p : Payload) (s : State) :
    (s.respond st p).txEpoch = s.txEpoch := rfl
@[simp] theorem State.respond_devEpoch (st : Byte) (p : Payload) (s : State) :
    (s.respond st p).devEpoch = s.devEpoch := rfl

/-! ## raiseInvalid -/

@[simp] theorem State.raiseInvalid_cfg (r : Byte) (s : State) : (s.raiseInvalid r).cfg = s.cfg := rfl
@[simp] theorem State.raiseInvalid_ck (r : Byte) (s : State) : (s.raiseInvalid r).ck = s.ck := rfl
@[simp] theorem State.raiseInvalid_orc (r : Byte) (s : State) : (s.raiseInvalid r).orc = s.orc := rfl
@[simp] theorem State.raiseInvalid_chA (r : Byte) (s : State) : (s.raiseInvalid r).chA = s.chA := rfl
@[simp] theorem State.raiseInvalid_chB (r : Byte) (s : State) : (s.raiseInvalid r).chB = s.chB := rfl
@[simp] theorem State.raiseInvalid_csN (r : Byte) (s : State) : (s.raiseInvalid r).csN = s.csN := rfl
@[simp] theorem State.raiseInvalid_cmdFifo (r : Byte) (s : State) : (s.raiseInvalid r).cmdFifo = s.cmdFifo := rfl
@[simp] theorem State.raiseInvalid_dataFifo (r : Byte) (s : State) : (s.raiseInvalid r).dataFifo = s.dataFifo := rfl
@[simp] theorem State.raiseInvalid_mem (r : Byte) (s : State) : (s.raiseInvalid r).mem = s.mem := rfl
@[simp] theorem State.raiseInvalid_reqPort (r : Byte) (s : State) : (s.raiseInvalid r).reqPort = none := rfl
@[simp] theorem State.raiseInvalid_respPort (r : Byte) (s : State) :
    (s.raiseInvalid r).respPort = some ⟨statusInvalid, .reason r⟩ := rfl
@[simp] theorem State.raiseInvalid_refusedOp (r : Byte) (s : State) :
    (s.raiseInvalid r).refusedOp = s.refusedOp := rfl
@[simp] theorem State.raiseInvalid_su (r : Byte) (s : State) : (s.raiseInvalid r).su = s.su := rfl
@[simp] theorem State.raiseInvalid_dev (r : Byte) (s : State) : (s.raiseInvalid r).dev = s.dev := rfl
@[simp] theorem State.raiseInvalid_owned (r : Byte) (s : State) : (s.raiseInvalid r).owned = s.owned := rfl
@[simp] theorem State.raiseInvalid_agenda (r : Byte) (s : State) : (s.raiseInvalid r).agenda = s.agenda := rfl
@[simp] theorem State.raiseInvalid_draws (r : Byte) (s : State) : (s.raiseInvalid r).draws = s.draws := rfl
@[simp] theorem State.raiseInvalid_txEpoch (r : Byte) (s : State) : (s.raiseInvalid r).txEpoch = s.txEpoch := rfl
@[simp] theorem State.raiseInvalid_devEpoch (r : Byte) (s : State) : (s.raiseInvalid r).devEpoch = s.devEpoch := rfl

/-! ## setSuPhase -/

@[simp] theorem State.setSuPhase_cfg (p : SuPhase) (s : State) : (s.setSuPhase p).cfg = s.cfg := rfl
@[simp] theorem State.setSuPhase_ck (p : SuPhase) (s : State) : (s.setSuPhase p).ck = s.ck := rfl
@[simp] theorem State.setSuPhase_orc (p : SuPhase) (s : State) : (s.setSuPhase p).orc = s.orc := rfl
@[simp] theorem State.setSuPhase_chA (p : SuPhase) (s : State) : (s.setSuPhase p).chA = s.chA := rfl
@[simp] theorem State.setSuPhase_chB (p : SuPhase) (s : State) : (s.setSuPhase p).chB = s.chB := rfl
@[simp] theorem State.setSuPhase_csN (p : SuPhase) (s : State) : (s.setSuPhase p).csN = s.csN := rfl
@[simp] theorem State.setSuPhase_cmdFifo (p : SuPhase) (s : State) : (s.setSuPhase p).cmdFifo = s.cmdFifo := rfl
@[simp] theorem State.setSuPhase_dataFifo (p : SuPhase) (s : State) : (s.setSuPhase p).dataFifo = s.dataFifo := rfl
@[simp] theorem State.setSuPhase_mem (p : SuPhase) (s : State) : (s.setSuPhase p).mem = s.mem := rfl
@[simp] theorem State.setSuPhase_reqPort (p : SuPhase) (s : State) : (s.setSuPhase p).reqPort = s.reqPort := rfl
@[simp] theorem State.setSuPhase_respPort (p : SuPhase) (s : State) : (s.setSuPhase p).respPort = s.respPort := rfl
@[simp] theorem State.setSuPhase_refusedOp (p : SuPhase) (s : State) : (s.setSuPhase p).refusedOp = s.refusedOp := rfl
@[simp] theorem State.setSuPhase_su (p : SuPhase) (s : State) : (s.setSuPhase p).su = { s.su with phase := p } := rfl
@[simp] theorem State.setSuPhase_dev (p : SuPhase) (s : State) : (s.setSuPhase p).dev = s.dev := rfl
@[simp] theorem State.setSuPhase_owned (p : SuPhase) (s : State) : (s.setSuPhase p).owned = s.owned := rfl
@[simp] theorem State.setSuPhase_agenda (p : SuPhase) (s : State) : (s.setSuPhase p).agenda = s.agenda := rfl
@[simp] theorem State.setSuPhase_draws (p : SuPhase) (s : State) : (s.setSuPhase p).draws = s.draws := rfl
@[simp] theorem State.setSuPhase_txEpoch (p : SuPhase) (s : State) : (s.setSuPhase p).txEpoch = s.txEpoch := rfl
@[simp] theorem State.setSuPhase_devEpoch (p : SuPhase) (s : State) : (s.setSuPhase p).devEpoch = s.devEpoch := rfl

/-! ## storeBeats -/

@[simp] theorem State.storeBeats_cfg (a : Nat) (w : Word) (s : State) : (s.storeBeats a w).cfg = s.cfg := rfl
@[simp] theorem State.storeBeats_ck (a : Nat) (w : Word) (s : State) : (s.storeBeats a w).ck = s.ck := rfl
@[simp] theorem State.storeBeats_orc (a : Nat) (w : Word) (s : State) : (s.storeBeats a w).orc = s.orc := rfl
@[simp] theorem State.storeBeats_chA (a : Nat) (w : Word) (s : State) : (s.storeBeats a w).chA = s.chA := rfl
@[simp] theorem State.storeBeats_chB (a : Nat) (w : Word) (s : State) : (s.storeBeats a w).chB = s.chB := rfl
@[simp] theorem State.storeBeats_csN (a : Nat) (w : Word) (s : State) : (s.storeBeats a w).csN = s.csN := rfl
@[simp] theorem State.storeBeats_cmdFifo (a : Nat) (w : Word) (s : State) :
    (s.storeBeats a w).cmdFifo = s.cmdFifo := rfl
@[simp] theorem State.storeBeats_dataFifo (a : Nat) (w : Word) (s : State) :
    (s.storeBeats a w).dataFifo = s.dataFifo := rfl
@[simp] theorem State.storeBeats_mem (a : Nat) (w : Word) (s : State) : (s.storeBeats a w).mem = s.mem := rfl
@[simp] theorem State.storeBeats_reqPort (a : Nat) (w : Word) (s : State) :
    (s.storeBeats a w).reqPort = s.reqPort := rfl
@[simp] theorem State.storeBeats_respPort (a : Nat) (w : Word) (s : State) :
    (s.storeBeats a w).respPort = s.respPort := rfl
@[simp] theorem State.storeBeats_refusedOp (a : Nat) (w : Word) (s : State) :
    (s.storeBeats a w).refusedOp = s.refusedOp := rfl
@[simp] theorem State.storeBeats_su (a : Nat) (w : Word) (s : State) : (s.storeBeats a w).su = s.su := rfl
@[simp] theorem State.storeBeats_dev (a : Nat) (w : Word) (s : State) :
    (s.storeBeats a w).dev = Table.write (Table.write s.dev a (unpack s.cfg.beatOrder w).1) (a + 1) (unpack s.cfg.beatOrder w).2 := rfl
@[simp] theorem State.storeBeats_owned (a : Nat) (w : Word) (s : State) : (s.storeBeats a w).owned = s.owned := rfl
@[simp] theorem State.storeBeats_agenda (a : Nat) (w : Word) (s : State) : (s.storeBeats a w).agenda = s.agenda := rfl
@[simp] theorem State.storeBeats_draws (a : Nat) (w : Word) (s : State) : (s.storeBeats a w).draws = s.draws := rfl
@[simp] theorem State.storeBeats_txEpoch (a : Nat) (w : Word) (s : State) :
    (s.storeBeats a w).txEpoch = s.txEpoch := rfl
@[simp] theorem State.storeBeats_devEpoch (a : Nat) (w : Word) (s : State) :
    (s.storeBeats a w).devEpoch = s.devEpoch := rfl

/-! ## pokeWord -/

@[simp] theorem State.pokeWord_cfg (s : State) (a : Nat) (v : Word) : (s.pokeWord a v).cfg = s.cfg := rfl
@[simp] theorem State.pokeWord_ck (s : State) (a : Nat) (v : Word) : (s.pokeWord a v).ck = s.ck := rfl
@[simp] theorem State.pokeWord_orc (s : State) (a : Nat) (v : Word) : (s.pokeWord a v).orc = s.orc := rfl
@[simp] theorem State.pokeWord_chA (s : State) (a : Nat) (v : Word) : (s.pokeWord a v).chA = s.chA := rfl
@[simp] theorem State.pokeWord_chB (s : State) (a : Nat) (v : Word) : (s.pokeWord a v).chB = s.chB := rfl
@[simp] theorem State.pokeWord_csN (s : State) (a : Nat) (v : Word) : (s.pokeWord a v).csN = s.csN := rfl
@[simp] theorem State.pokeWord_cmdFifo (s : State) (a : Nat) (v : Word) : (s.pokeWord a v).cmdFifo = s.cmdFifo := rfl
@[simp] theorem State.pokeWord_dataFifo (s : State) (a : Nat) (v : Word) :
    (s.pokeWord a v).dataFifo = s.dataFifo := rfl
@[simp] theorem State.pokeWord_mem (s : State) (a : Nat) (v : Word) :
    (s.pokeWord a v).mem = Table.writeBytes s.mem a (bytesOfWord s.cfg.sysByteOrder v) := rfl
@[simp] theorem State.pokeWord_reqPort (s : State) (a : Nat) (v : Word) : (s.pokeWord a v).reqPort = s.reqPort := rfl
@[simp] theorem State.pokeWord_respPort (s : State) (a : Nat) (v : Word) :
    (s.pokeWord a v).respPort = s.respPort := rfl
@[simp] theorem State.pokeWord_refusedOp (s : State) (a : Nat) (v : Word) :
    (s.pokeWord a v).refusedOp = s.refusedOp := rfl
@[simp] theorem State.pokeWord_su (s : State) (a : Nat) (v : Word) : (s.pokeWord a v).su = s.su := rfl
@[simp] theorem State.pokeWord_dev (s : State) (a : Nat) (v : Word) : (s.pokeWord a v).dev = s.dev := rfl
@[simp] theorem State.pokeWord_owned (s : State) (a : Nat) (v : Word) : (s.pokeWord a v).owned = s.owned := rfl
@[simp] theorem State.pokeWord_agenda (s : State) (a : Nat) (v : Word) : (s.pokeWord a v).agenda = s.agenda := rfl
@[simp] theorem State.pokeWord_draws (s : State) (a : Nat) (v : Word) : (s.pokeWord a v).draws = s.draws := rfl
@[simp] theorem State.pokeWord_txEpoch (s : State) (a : Nat) (v : Word) : (s.pokeWord a v).txEpoch = s.txEpoch := rfl
@[simp] theorem State.pokeWord_devEpoch (s : State) (a : Nat) (v : Word) :
    (s.pokeWord a v).devEpoch = s.devEpoch := rfl

/-! ## setFifo -/

@[simp] theorem State.setFifo_cfg (s : State) (f : FifoName) (ws : List Word) :
    (s.setFifo f ws).cfg = s.cfg := by cases f <;> rfl
@[simp] theorem State.setFifo_ck (s : State) (f : FifoName) (ws : List Word) :
    (s.setFifo f ws).ck = s.ck := by cases f <;> rfl
@[simp] theorem State.setFifo_orc (s : State) (f : FifoName) (ws : List Word) :
    (s.setFifo f ws).orc = s.orc := by cases f <;> rfl
@[simp] theorem State.setFifo_chA (s : State) (f : FifoName) (ws : List Word) :
    (s.setFifo f ws).chA = s.chA := by cases f <;> rfl
@[simp] theorem State.setFifo_chB (s : State) (f : FifoName) (ws : List Word) :
    (s.setFifo f ws).chB = s.chB := by cases f <;> rfl
@[simp] theorem State.setFifo_csN (s : State) (f : FifoName) (ws : List Word) :
    (s.setFifo f ws).csN = s.csN := by cases f <;> rfl
@[simp] theorem State.setFifo_mem (s : State) (f : FifoName) (ws : List Word) :
    (s.setFifo f ws).mem = s.mem := by cases f <;> rfl
@[simp] theorem State.setFifo_reqPort (s : State) (f : FifoName) (ws : List Word) :
    (s.setFifo f ws).reqPort = s.reqPort := by cases f <;> rfl
@[simp] theorem State.setFifo_respPort (s : State) (f : FifoName) (ws : List Word) :
    (s.setFifo f ws).respPort = s.respPort := by cases f <;> rfl
@[simp] theorem State.setFifo_refusedOp (s : State) (f : FifoName) (ws : List Word) :
    (s.setFifo f ws).refusedOp = s.refusedOp := by cases f <;> rfl
@[simp] theorem State.setFifo_su (s : State) (f : FifoName) (ws : List Word) :
    (s.setFifo f ws).su = s.su := by cases f <;> rfl
@[simp] theorem State.setFifo_dev (s : State) (f : FifoName) (ws : List Word) :
    (s.setFifo f ws).dev = s.dev := by cases f <;> rfl
@[simp] theorem State.setFifo_owned (s : State) (f : FifoName) (ws : List Word) :
    (s.setFifo f ws).owned = s.owned := by cases f <;> rfl
@[simp] theorem State.setFifo_agenda (s : State) (f : FifoName) (ws : List Word) :
    (s.setFifo f ws).agenda = s.agenda := by cases f <;> rfl
@[simp] theorem State.setFifo_draws (s : State) (f : FifoName) (ws : List Word) :
    (s.setFifo f ws).draws = s.draws := by cases f <;> rfl
@[simp] theorem State.setFifo_txEpoch (s : State) (f : FifoName) (ws : List Word) :
    (s.setFifo f ws).txEpoch = s.txEpoch := by cases f <;> rfl
@[simp] theorem State.setFifo_devEpoch (s : State) (f : FifoName) (ws : List Word) :
    (s.setFifo f ws).devEpoch = s.devEpoch := by cases f <;> rfl

/-! ## setChannel -/

@[simp] theorem State.setChannel_cfg (s : State) (c : ChannelId) (x : Channel) :
    (s.setChannel c x).cfg = s.cfg := by cases c <;> rfl
@[simp] theorem State.setChannel_ck (s : State) (c : ChannelId) (x : Channel) :
    (s.setChannel c x).ck = s.ck := by cases c <;> rfl
@[simp] theorem State.setChannel_orc (s : State) (c : ChannelId) (x : Channel) :
    (s.setChannel c x).orc = s.orc := by cases c <;> rfl
@[simp] theorem State.setChannel_csN (s : State) (c : ChannelId) (x : Channel) :
    (s.setChannel c x).csN = s.csN := by cases c <;> rfl
@[simp] theorem State.setChannel_cmdFifo (s : State) (c : ChannelId) (x : Channel) :
    (s.setChannel c x).cmdFifo = s.cmdFifo := by cases c <;> rfl
@[simp] theorem State.setChannel_dataFifo (s : State) (c : ChannelId) (x : Channel) :
    (s.setChannel c x).dataFifo = s.dataFifo := by cases c <;> rfl
@[simp] theorem State.setChannel_mem (s : State) (c : ChannelId) (x : Channel) :
    (s.setChannel c x).mem = s.mem := by cases c <;> rfl
@[simp] theorem State.setChannel_reqPort (s : State) (c : ChannelId) (x : Channel) :
    (s.setChannel c x).reqPort = s.reqPort := by cases c <;> rfl
@[simp] theorem State.setChannel_respPort (s : State) (c : ChannelId) (x : Channel) :
    (s.setChannel c x).respPort = s.respPort := by cases c <;> rfl
@[simp] theorem State.setChannel_refusedOp (s : State) (c : ChannelId) (x : Channel) :
    (s.setChannel c x).refusedOp = s.refusedOp := by cases c <;> rfl
@[simp] theorem State.setChannel_su (s : State) (c : ChannelId) (x : Channel) :
    (s.setChannel c x).su = s.su := by cases c <;> rfl
@[simp] theorem State.setChannel_dev (s : State) (c : ChannelId) (x : Channel) :
    (s.setChannel c x).dev = s.dev := by cases c <;> rfl
@[simp] theorem State.setChannel_owned (s : State) (c : ChannelId) (x : Channel) :
    (s.setChannel c x).owned = s.owned := by cases c <;> rfl
@[simp] theorem State.setChannel_agenda (s : State) (c : ChannelId) (x : Channel) :
    (s.setChannel c x).agenda = s.agenda := by cases c <;> rfl
@[simp] theorem State.setChannel_draws (s : State) (c : ChannelId) (x : Channel) :
    (s.setChannel c x).draws = s.draws := by cases c <;> rfl
@[simp] theorem State.setChannel_txEpoch (s : State) (c : ChannelId) (x : Channel) :
    (s.setChannel c x).txEpoch = s.txEpoch := by cases c <;> rfl
@[simp] theorem State.setChannel_devEpoch (s : State) (c : ChannelId) (x : Channel) :
    (s.setChannel c x).devEpoch = s.devEpoch := by cases c <;> rfl
/-! ## The FIFOs and channels an update names -/

@[simp] theorem State.setFifo_fifo (s : State) (f g : FifoName) (ws : List Word) :
    (s.setFifo f ws).fifo g = if g = f then ws else s.fifo g := by cases f <;> cases g <;> rfl
@[simp] theorem State.setFifo_cmdFifo (s : State) (f : FifoName) (ws : List Word) :
    (s.setFifo f ws).cmdFifo = if f = .cmd then ws else s.cmdFifo := by cases f <;> rfl
@[simp] theorem State.setFifo_dataFifo (s : State) (f : FifoName) (ws : List Word) :
    (s.setFifo f ws).dataFifo = if f = .data then ws else s.dataFifo := by cases f <;> rfl
@[simp] theorem State.setFifo_channel (s : State) (f : FifoName) (ws : List Word) (c : ChannelId) :
    (s.setFifo f ws).channel c = s.channel c := by cases f <;> cases c <;> rfl
@[simp] theorem State.setChannel_channel (s : State) (c d : ChannelId) (x : Channel) :
    (s.setChannel c x).channel d = if d = c then x else s.channel d := by cases c <;> cases d <;> rfl
@[simp] theorem State.setChannel_chA (s : State) (c : ChannelId) (x : Channel) :
    (s.setChannel c x).chA = if c = .chA then x else s.chA := by cases c <;> rfl
@[simp] theorem State.setChannel_chB (s : State) (c : ChannelId) (x : Channel) :
    (s.setChannel c x).chB = if c = .chB then x else s.chB := by cases c <;> rfl
@[simp] theorem State.setChannel_fifo (s : State) (c : ChannelId) (x : Channel) (f : FifoName) :
    (s.setChannel c x).fifo f = s.fifo f := by cases c <;> cases f <;> rfl
@[simp] theorem State.pokeWord_channel (s : State) (a : Nat) (v : Word) (c : ChannelId) :
    (s.pokeWord a v).channel c = s.channel c := by cases c <;> rfl
@[simp] theorem State.pokeWord_fifo (s : State) (a : Nat) (v : Word) (f : FifoName) :
    (s.pokeWord a v).fifo f = s.fifo f := by cases f <;> rfl
@[simp] theorem State.channel_chA (s : State) : s.channel .chA = s.chA := rfl
@[simp] theorem State.channel_chB (s : State) : s.channel .chB = s.chB := rfl

/-! ## Marks -/

theorem FaultSet.has_add (f g : Fault) (x : FaultSet) : (x.add f).has g = (decide (g = f) || x.has g) := by
  cases f <;> cases g <;> rfl
theorem FaultSet.add_ne_none (f : Fault) (x : FaultSet) : x.add f ≠ FaultSet.none := by
  cases f <;> simp [FaultSet.add, FaultSet.none]
theorem State.recordFault_halted (f : Fault) (s : State) (h : f ≠ .overlap) : (s.recordFault f).halted = true := by
  cases f <;> simp [State.halted, FaultSet.add] at *

/-! ## Accesses -/

@[simp] theorem Access.bind_ok {α β : Type} (v : α) (g : α → Access β) : (Access.ok v).bind g = g v := rfl
@[simp] theorem Access.bind_stuck {α β : Type} (g : α → Access β) : (Access.stuck : Access α).bind g = .stuck := rfl
@[simp] theorem Access.bind_marked {α β : Type} (f : Fault) (g : α → Access β) :
    (Access.marked f : Access α).bind g = .marked f := rfl
@[simp] theorem Cell.read_holds {α : Type} (v : α) : (Cell.holds v).read = .ok v := rfl
@[simp] theorem Cell.read_unwritten {α : Type} : (Cell.unwritten : Cell α).read = .marked .unwritten := rfl
@[simp] theorem State.settle_ok (s t : State) : s.settle (.ok t) = t := rfl
@[simp] theorem State.settle_stuck (s : State) : s.settle .stuck = s := rfl
@[simp] theorem State.settle_marked (s : State) (f : Fault) : s.settle (.marked f) = s.recordFault f := rfl

/-- All an access can come to after another. -/
theorem Access.bind_eq_ok {α β : Type} {x : Access α} {g : α → Access β} {v : β} :
    x.bind g = .ok v ↔ ∃ a, x = .ok a ∧ g a = .ok v := by
  cases x <;> simp

theorem Access.bind_eq_marked {α β : Type} {x : Access α} {g : α → Access β} {f : Fault} :
    x.bind g = .marked f ↔ x = .marked f ∨ ∃ a, x = .ok a ∧ g a = .marked f := by
  cases x <;> simp

theorem Cell.read_eq_ok {α : Type} {c : Cell α} {v : α} : c.read = .ok v ↔ c = .holds v := by
  cases c <;> simp

/-- All `settle` can leave. -/
theorem State.settle_cases (s : State) (x : Access State) :
    (∃ t, x = .ok t ∧ s.settle x = t) ∨ (x = .stuck ∧ s.settle x = s) ∨
      (∃ f, x = .marked f ∧ s.settle x = s.recordFault f) := by
  cases x with
  | ok t => exact .inl ⟨t, rfl, rfl⟩
  | stuck => exact .inr (.inl ⟨rfl, rfl⟩)
  | marked f => exact .inr (.inr ⟨f, rfl, rfl⟩)

end Sys2Proof.Machine
end

