-- ==== Sys2Proof/Laws/Memory.lean ====
section
/-! SUPPORT. Sorted tables and system memory: read after write, frames, canonical form, and what `MemRead` and
`MemWrite` of words come to. -/

namespace Sys2Proof.Machine

/-! ## Tables -/

theorem Table.read?_write {β : Type} (t : List (Nat × β)) (a b : Nat) (v : β) :
    Table.read? (Table.write t a v) b = if b = a then some v else Table.read? t b := by
  induction t with
  | nil => simp [Table.write, Table.read?]
  | cons c t ih =>
    obtain ⟨k, w⟩ := c
    by_cases h1 : a < k
    · simp [Table.write, h1, Table.read?]
    · by_cases h2 : a = k
      · subst h2; by_cases h : b = a <;> simp [Table.write, Table.read?, h]
      · by_cases h : b = k
        · subst h; simp [Table.write, h1, h2, Table.read?, Ne.symm h2]
        · simp [Table.write, h1, h2, Table.read?, h, ih]

theorem Table.mem_write {β : Type} (t : List (Nat × β)) (a : Nat) (v : β) (c : Nat × β)
    (h : c ∈ Table.write t a v) : c = (a, v) ∨ c ∈ t := by
  induction t with
  | nil => simpa [Table.write] using h
  | cons d t ih =>
    obtain ⟨k, w⟩ := d
    simp only [Table.write] at h
    split at h
    · simpa using h
    · split at h
      · rcases List.mem_cons.1 h with h | h
        · exact .inl h
        · exact .inr (List.mem_cons_of_mem _ h)
      · rcases List.mem_cons.1 h with h | h
        · exact .inr (by simp [h])
        · rcases ih h with h | h
          · exact .inl h
          · exact .inr (List.mem_cons_of_mem _ h)

theorem Table.sorted_cons {β : Type} {k : Nat} {w : β} {t : List (Nat × β)} :
    Table.Sorted ((k, w) :: t) ↔ (∀ c ∈ t, k < c.1) ∧ Table.Sorted t := by
  simp [Table.Sorted]

theorem Table.sorted_write {β : Type} (t : List (Nat × β)) (a : Nat) (v : β) (h : Table.Sorted t) :
    Table.Sorted (Table.write t a v) := by
  induction t with
  | nil => simp [Table.write, Table.Sorted]
  | cons c t ih =>
    obtain ⟨k, w⟩ := c
    obtain ⟨hk, ht⟩ := Table.sorted_cons.1 h
    simp only [Table.write]
    split
    · rename_i hlt
      refine Table.sorted_cons.2 ⟨fun c hc => ?_, h⟩
      rcases List.mem_cons.1 hc with hc | hc
      · simpa [hc] using hlt
      · exact lt_trans hlt (hk c hc)
    · split
      · rename_i heq; subst heq; exact Table.sorted_cons.2 ⟨hk, ht⟩
      · refine Table.sorted_cons.2 ⟨fun c hc => ?_, ih ht⟩
        rcases Table.mem_write _ _ _ _ hc with hc | hc
        · simp only [hc]; omega
        · exact hk c hc

theorem Table.sorted_erase {β : Type} (t : List (Nat × β)) (lo hi : Nat) (h : Table.Sorted t) :
    Table.Sorted (Table.erase t lo hi) :=
  List.Pairwise.sublist (List.Sublist.map _ List.filter_sublist) h

theorem Table.read?_erase {β : Type} (t : List (Nat × β)) (lo hi a : Nat) :
    Table.read? (Table.erase t lo hi) a = if lo ≤ a ∧ a < hi then none else Table.read? t a := by
  induction t with
  | nil => simp [Table.erase, Table.read?]
  | cons c t ih =>
    obtain ⟨k, w⟩ := c
    have e : Table.erase ((k, w) :: t) lo hi =
        if lo ≤ k ∧ k < hi then Table.erase t lo hi else (k, w) :: Table.erase t lo hi := by
      unfold Table.erase
      rw [List.filter_cons]
      by_cases h : lo ≤ k ∧ k < hi
      · simp [h]
      · rw [if_neg h, if_pos]; simpa [imp_iff_not_or] using h
    rw [e]
    by_cases hk : a = k
    · subst hk; by_cases hr : lo ≤ a ∧ a < hi
      · rw [if_pos hr, ih, if_pos hr, if_pos hr]
      · rw [if_neg hr, if_neg hr]; simp [Table.read?]
    · by_cases hr : lo ≤ k ∧ k < hi
      · rw [if_pos hr, ih]; simp [Table.read?, hk]
      · rw [if_neg hr]; simp only [Table.read?, if_neg hk]; exact ih

/-- Two canonical tables that read alike are the same table. -/
theorem Table.sorted_ext {β : Type} (t u : List (Nat × β)) (ht : Table.Sorted t) (hu : Table.Sorted u)
    (h : ∀ a, Table.read? t a = Table.read? u a) : t = u := by
  have low : ∀ (t : List (Nat × β)) (a : Nat), (∀ c ∈ t, a < c.1) → Table.read? t a = none := by
    intro t a hlt
    induction t with
    | nil => rfl
    | cons c t ih =>
      have : a ≠ c.1 := (hlt c (by simp)).ne
      simp only [Table.read?, if_neg this]
      exact ih (fun c hc => hlt c (List.mem_cons_of_mem _ hc))
  induction t generalizing u with
  | nil =>
    cases u with
    | nil => rfl
    | cons c u => simpa [Table.read?] using h c.1
  | cons c t ih =>
    obtain ⟨k, w⟩ := c
    cases u with
    | nil => simpa [Table.read?] using h k
    | cons d u =>
      obtain ⟨k', w'⟩ := d
      obtain ⟨hk, ht'⟩ := Table.sorted_cons.1 ht
      obtain ⟨hk', hu'⟩ := Table.sorted_cons.1 hu
      have e : k = k' := by
        rcases lt_trichotomy k k' with hlt | e | hlt
        · have := h k
          rw [low ((k', w') :: u) k (by
            intro c hc; rcases List.mem_cons.1 hc with rfl | hc
            · exact hlt
            · exact lt_trans hlt (hk' c hc))] at this
          simp [Table.read?] at this
        · exact e
        · have := h k'
          rw [low ((k, w) :: t) k' (by
            intro c hc; rcases List.mem_cons.1 hc with rfl | hc
            · exact hlt
            · exact lt_trans hlt (hk c hc))] at this
          simp [Table.read?] at this
      subst e
      have hw : w = w' := by simpa [Table.read?] using h k
      subst hw
      refine congrArg _ (ih u ht' hu' fun a => ?_)
      by_cases ha : a = k
      · subst ha; rw [low t a hk, low u a hk']
      · simpa [Table.read?, ha] using h a

/-! ## Bytes -/

theorem Table.writeBytes_wf (m : List Host.Cell) (a : Nat) (bs : List Byte) (h : Memory.wf m) :
    Memory.wf (Table.writeBytes m a bs) := by
  induction bs generalizing m a with
  | nil => exact h
  | cons b bs ih => exact ih _ _ (Table.sorted_write m a b h)

theorem Table.read?_writeBytes (m : List Host.Cell) (a b : Nat) (bs : List Byte) :
    Table.read? (Table.writeBytes m a bs) b =
      if a ≤ b ∧ b < a + bs.length then bs[b - a]? else Table.read? m b := by
  induction bs generalizing m a with
  | nil => simp [Table.writeBytes, show ¬ (a ≤ b ∧ b < a) by omega]
  | cons c bs ih =>
    rw [Table.writeBytes, ih, Table.read?_write, List.length_cons]
    rcases lt_trichotomy b a with h | h | h
    · rw [if_neg (by omega), if_neg (by omega), if_neg (by omega)]
    · subst h; rw [if_neg (by omega), if_pos rfl, if_pos (by omega)]; simp
    · by_cases h2 : b < a + 1 + bs.length
      · rw [if_pos (by omega), if_pos (by omega), show b - a = (b - (a + 1)) + 1 by omega]; simp
      · rw [if_neg (by omega), if_neg (by omega), if_neg (by omega)]

@[simp] theorem bytesOfWord_length (o : ByteOrder) (v : Word) : (bytesOfWord o v).length = 4 := by
  cases o <;> rfl

/-- What a byte reads as rests on the configuration, the memory and the draw behind TXBUF alone. -/
theorem State.byteAt_congr {s t : State} (hc : t.cfg = s.cfg) (hm : t.mem = s.mem) (he : t.txEpoch = s.txEpoch)
    (a : Nat) : t.byteAt a = s.byteAt a := by
  simp only [State.byteAt, State.unlistedByte, hc, hm, he]

theorem State.wordsAt_congr {s t : State} (hc : t.cfg = s.cfg) (hm : t.mem = s.mem) (he : t.txEpoch = s.txEpoch)
    (a n : Nat) : t.wordsAt a n = s.wordsAt a n := by
  simp only [State.wordsAt, State.wordAt, State.byteAt_congr hc hm he, hc]

theorem State.wordAt_congr {s t : State} (hc : t.cfg = s.cfg) (hm : t.mem = s.mem) (he : t.txEpoch = s.txEpoch)
    (a : Nat) : t.wordAt a = s.wordAt a := by
  simp only [State.wordAt, State.byteAt_congr hc hm he, hc]

@[simp] theorem State.setFifo_byteAt (s : State) (f : FifoName) (ws : List Word) (a : Nat) :
    (s.setFifo f ws).byteAt a = s.byteAt a := State.byteAt_congr (by simp) (by simp) (by simp) a
@[simp] theorem State.setFifo_wordAt (s : State) (f : FifoName) (ws : List Word) (a : Nat) :
    (s.setFifo f ws).wordAt a = s.wordAt a := State.wordAt_congr (by simp) (by simp) (by simp) a
@[simp] theorem State.setChannel_byteAt (s : State) (c : ChannelId) (x : Channel) (a : Nat) :
    (s.setChannel c x).byteAt a = s.byteAt a := State.byteAt_congr (by simp) (by simp) (by simp) a
@[simp] theorem State.setChannel_wordAt (s : State) (c : ChannelId) (x : Channel) (a : Nat) :
    (s.setChannel c x).wordAt a = s.wordAt a := State.wordAt_congr (by simp) (by simp) (by simp) a

/-! ## One word -/

/-- A stored word changes its own four bytes and no other. -/
theorem State.byteAt_pokeWord (s : State) (a b : Nat) (v : Word) (h : b < a ∨ a + 4 ≤ b) :
    (s.pokeWord a v).byteAt b = s.byteAt b := by
  simp only [State.byteAt, State.pokeWord_mem, Table.read?_writeBytes, bytesOfWord_length]
  rw [if_neg (by omega)]; rfl

theorem State.byteAt_pokeWord_within (s : State) (a i : Nat) (v : Word) (hi : i < 4) :
    (s.pokeWord a v).byteAt (a + i) = (bytesOfWord s.cfg.sysByteOrder v)[i]'(by simpa using hi) := by
  simp only [State.byteAt, State.pokeWord_mem, Table.read?_writeBytes, bytesOfWord_length]
  rw [if_pos (by omega), Nat.add_sub_cancel_left, List.getElem?_eq_getElem (by simpa using hi)]

theorem wordOfBytes_bytesOfWord (o : ByteOrder) (v : Word) :
    wordOfBytes o ((bytesOfWord o v)[0]'(by simp)) ((bytesOfWord o v)[1]'(by simp))
      ((bytesOfWord o v)[2]'(by simp)) ((bytesOfWord o v)[3]'(by simp)) = v := by
  apply BitVec.eq_of_getLsbD_eq
  intro i hi
  cases o <;>
  · simp only [wordOfBytes, bytesOfWord, List.getElem_cons_zero, List.getElem_cons_succ, BitVec.getLsbD_append,
      BitVec.getLsbD_extractLsb']
    by_cases h1 : i < 8
    · simp [h1]
    · by_cases h2 : i - 8 < 8
      · simp [h1, h2, show 8 + (i - 8) = i by omega]
      · by_cases h3 : i - 8 - 8 < 8
        · simp [h1, h2, h3, show 16 + (i - 8 - 8) = i by omega]
        · simp [h1, h2, h3, show i - 8 - 8 - 8 < 8 by omega, show 24 + (i - 8 - 8 - 8) = i by omega]

/-- A word read where it was stored is the word stored, in either byte order. -/
@[simp] theorem State.wordAt_pokeWord_same (s : State) (a : Nat) (v : Word) : (s.pokeWord a v).wordAt a = v := by
  have h := fun i hi => s.byteAt_pokeWord_within a i v hi
  have h0 := h 0 (by omega)
  rw [Nat.add_zero] at h0
  simp only [State.wordAt, State.pokeWord_cfg, h0, h 1 (by omega), h 2 (by omega), h 3 (by omega)]
  exact wordOfBytes_bytesOfWord _ v

/-- Words that do not meet a stored word are as before. -/
theorem State.wordAt_pokeWord_other (s : State) (a b : Nat) (v : Word) (h : b + 4 ≤ a ∨ a + 4 ≤ b) :
    (s.pokeWord a v).wordAt b = s.wordAt b := by
  simp only [State.wordAt, State.pokeWord_cfg]
  rw [State.byteAt_pokeWord _ _ _ _ (by omega), State.byteAt_pokeWord _ _ _ _ (by omega),
    State.byteAt_pokeWord _ _ _ _ (by omega), State.byteAt_pokeWord _ _ _ _ (by omega)]

theorem State.pokeWord_wf (s : State) (a : Nat) (v : Word) (h : Memory.wf s.mem) :
    Memory.wf (s.pokeWord a v).mem := Table.writeBytes_wf _ _ _ h

/-! ## Several words -/

theorem State.pokeWords_eq_mem (s : State) (a : Nat) (vs : List Word) :
    s.pokeWords a vs = { s with mem := (s.pokeWords a vs).mem } := by
  induction vs generalizing s a with
  | nil => rfl
  | cons v vs ih => simp only [State.pokeWords]; rw [ih]; rfl

theorem State.pokeWords_wf (s : State) (a : Nat) (vs : List Word) (h : Memory.wf s.mem) :
    Memory.wf (s.pokeWords a vs).mem := by
  induction vs generalizing s a with
  | nil => exact h
  | cons v vs ih => exact ih _ _ (s.pokeWord_wf a v h)

@[simp] theorem State.pokeWords_cfg (s : State) (a : Nat) (vs : List Word) : (s.pokeWords a vs).cfg = s.cfg := by
  rw [State.pokeWords_eq_mem]

@[simp] theorem State.pokeWords_ck (s : State) (a : Nat) (vs : List Word) :
    (s.pokeWords a vs).ck = s.ck := by rw [State.pokeWords_eq_mem]
@[simp] theorem State.pokeWords_orc (s : State) (a : Nat) (vs : List Word) :
    (s.pokeWords a vs).orc = s.orc := by rw [State.pokeWords_eq_mem]
@[simp] theorem State.pokeWords_chA (s : State) (a : Nat) (vs : List Word) :
    (s.pokeWords a vs).chA = s.chA := by rw [State.pokeWords_eq_mem]
@[simp] theorem State.pokeWords_chB (s : State) (a : Nat) (vs : List Word) :
    (s.pokeWords a vs).chB = s.chB := by rw [State.pokeWords_eq_mem]
@[simp] theorem State.pokeWords_csN (s : State) (a : Nat) (vs : List Word) :
    (s.pokeWords a vs).csN = s.csN := by rw [State.pokeWords_eq_mem]
@[simp] theorem State.pokeWords_cmdFifo (s : State) (a : Nat) (vs : List Word) :
    (s.pokeWords a vs).cmdFifo = s.cmdFifo := by rw [State.pokeWords_eq_mem]
@[simp] theorem State.pokeWords_dataFifo (s : State) (a : Nat) (vs : List Word) :
    (s.pokeWords a vs).dataFifo = s.dataFifo := by rw [State.pokeWords_eq_mem]
@[simp] theorem State.pokeWords_reqPort (s : State) (a : Nat) (vs : List Word) :
    (s.pokeWords a vs).reqPort = s.reqPort := by rw [State.pokeWords_eq_mem]
@[simp] theorem State.pokeWords_respPort (s : State) (a : Nat) (vs : List Word) :
    (s.pokeWords a vs).respPort = s.respPort := by rw [State.pokeWords_eq_mem]
@[simp] theorem State.pokeWords_refusedOp (s : State) (a : Nat) (vs : List Word) :
    (s.pokeWords a vs).refusedOp = s.refusedOp := by rw [State.pokeWords_eq_mem]
@[simp] theorem State.pokeWords_su (s : State) (a : Nat) (vs : List Word) :
    (s.pokeWords a vs).su = s.su := by rw [State.pokeWords_eq_mem]
@[simp] theorem State.pokeWords_dev (s : State) (a : Nat) (vs : List Word) :
    (s.pokeWords a vs).dev = s.dev := by rw [State.pokeWords_eq_mem]
@[simp] theorem State.pokeWords_owned (s : State) (a : Nat) (vs : List Word) :
    (s.pokeWords a vs).owned = s.owned := by rw [State.pokeWords_eq_mem]
@[simp] theorem State.pokeWords_agenda (s : State) (a : Nat) (vs : List Word) :
    (s.pokeWords a vs).agenda = s.agenda := by rw [State.pokeWords_eq_mem]
@[simp] theorem State.pokeWords_draws (s : State) (a : Nat) (vs : List Word) :
    (s.pokeWords a vs).draws = s.draws := by rw [State.pokeWords_eq_mem]
@[simp] theorem State.pokeWords_txEpoch (s : State) (a : Nat) (vs : List Word) :
    (s.pokeWords a vs).txEpoch = s.txEpoch := by rw [State.pokeWords_eq_mem]
@[simp] theorem State.pokeWords_devEpoch (s : State) (a : Nat) (vs : List Word) :
    (s.pokeWords a vs).devEpoch = s.devEpoch := by rw [State.pokeWords_eq_mem]

/-- Stored words change their own bytes and no other. -/
theorem State.byteAt_pokeWords (s : State) (a b : Nat) (vs : List Word) (h : b < a ∨ a + 4 * vs.length ≤ b) :
    (s.pokeWords a vs).byteAt b = s.byteAt b := by
  induction vs generalizing s a with
  | nil => rfl
  | cons v vs ih =>
    simp only [List.length_cons] at h
    rw [State.pokeWords, ih _ _ (by omega), State.byteAt_pokeWord _ _ _ _ (by omega)]

theorem State.wordAt_pokeWords_other (s : State) (a b : Nat) (vs : List Word)
    (h : b + 4 ≤ a ∨ a + 4 * vs.length ≤ b) : (s.pokeWords a vs).wordAt b = s.wordAt b := by
  simp only [State.wordAt, State.pokeWords_cfg]
  rw [State.byteAt_pokeWords _ _ _ _ (by omega), State.byteAt_pokeWords _ _ _ _ (by omega),
    State.byteAt_pokeWords _ _ _ _ (by omega), State.byteAt_pokeWords _ _ _ _ (by omega)]

/-- Stored words read back, each at its place. -/
theorem State.wordAt_pokeWords (s : State) (a i : Nat) (vs : List Word) (hi : i < vs.length) :
    (s.pokeWords a vs).wordAt (a + 4 * i) = vs[i] := by
  induction vs generalizing s a i with
  | nil => simp at hi
  | cons v vs ih =>
    cases i with
    | zero =>
      rw [State.pokeWords, Nat.mul_zero, Nat.add_zero, State.wordAt_pokeWords_other _ _ _ _ (by omega)]
      simp
    | succ i =>
      rw [State.pokeWords, show a + 4 * (i + 1) = a + 4 + 4 * i by ring, ih]; rfl

theorem State.wordsAt_succ (s : State) (a count : Nat) :
    s.wordsAt a (count + 1) = s.wordAt a :: s.wordsAt (a + 4) count := by
  simp only [State.wordsAt, List.range_succ_eq_map, List.map_cons, List.map_map, Nat.mul_zero, Nat.add_zero,
    List.cons.injEq, true_and]
  refine List.map_congr_left fun i _ => ?_
  simp only [Function.comp, Nat.succ_eq_add_one]
  congr 1; ring

@[simp] theorem State.wordsAt_length (s : State) (a count : Nat) : (s.wordsAt a count).length = count := by
  simp [State.wordsAt]

/-- Stored words read back as they were stored. -/
theorem State.wordsAt_pokeWords (s : State) (a : Nat) (vs : List Word) :
    (s.pokeWords a vs).wordsAt a vs.length = vs := by
  apply List.ext_getElem (by simp)
  intro i h1 h2
  simp only [State.wordsAt, List.getElem_map, List.getElem_range]
  exact s.wordAt_pokeWords a i vs h2

/-! ## `MemRead` and `MemWrite` -/

theorem admits_aligned {c : Cfg} {a : Nat} (h : admits c a = true) : a % 4 = 0 := by
  rw [admits, Bool.and_eq_true, Bool.and_eq_true] at h
  exact of_decide_eq_true h.1.2

/-- An access passes its check just when it is admitted, which implies aligned. -/
theorem checkAccess_eq_ok {c : Cfg} {a : Nat} {u : Unit} : checkAccess c a = .ok u ↔ admits c a = true := by
  unfold checkAccess
  by_cases h : a % 4 = 0
  · by_cases h2 : admits c a = true
    · rw [if_pos h, if_pos h2]; exact ⟨fun _ => h2, fun _ => rfl⟩
    · rw [if_pos h, if_neg h2]; exact ⟨nofun, fun h => absurd h h2⟩
  · rw [if_neg h]; exact ⟨nofun, fun h2 => absurd (admits_aligned h2) h⟩

/-- A misaligned access is marked; an aligned one that is not admitted is stuck. -/
theorem checkAccess_eq_marked {c : Cfg} {a : Nat} {f : Fault} :
    checkAccess c a = .marked f ↔ a % 4 ≠ 0 ∧ f = .misaligned := by
  unfold checkAccess
  by_cases h : a % 4 = 0
  · rw [if_pos h]
    refine ⟨fun e => ?_, fun e => absurd h e.1⟩
    split at e <;> cases e
  · rw [if_neg h]; exact ⟨fun e => ⟨h, by cases e; rfl⟩, fun e => by rw [e.2]⟩

theorem memRead_eq_ok {s : State} {a : Nat} {v : Word} :
    memRead s a = .ok v ↔ admits s.cfg a = true ∧ v = s.wordAt a := by
  rw [memRead, Access.bind_eq_ok]
  exact ⟨fun ⟨_, h, e⟩ => ⟨checkAccess_eq_ok.1 h, by cases e; rfl⟩,
    fun ⟨h, e⟩ => ⟨(), checkAccess_eq_ok.2 h, by rw [e]⟩⟩

theorem memWrite_eq_ok {s t : State} {a : Nat} {v : Word} :
    memWrite s a v = .ok t ↔ admits s.cfg a = true ∧ t = s.pokeWord a v := by
  rw [memWrite, Access.bind_eq_ok]
  exact ⟨fun ⟨_, h, e⟩ => ⟨checkAccess_eq_ok.1 h, by cases e; rfl⟩,
    fun ⟨h, e⟩ => ⟨(), checkAccess_eq_ok.2 h, by rw [e]⟩⟩

theorem memRead_eq_marked {s : State} {a : Nat} {f : Fault} :
    memRead s a = .marked f ↔ a % 4 ≠ 0 ∧ f = .misaligned := by
  rw [memRead, Access.bind_eq_marked, checkAccess_eq_marked]
  exact ⟨fun h => h.elim id fun ⟨_, _, e⟩ => (nomatch e), Or.inl⟩

theorem memWrite_eq_marked {s : State} {a : Nat} {v : Word} {f : Fault} :
    memWrite s a v = .marked f ↔ a % 4 ≠ 0 ∧ f = .misaligned := by
  rw [memWrite, Access.bind_eq_marked, checkAccess_eq_marked]
  exact ⟨fun h => h.elim id fun ⟨_, _, e⟩ => (nomatch e), Or.inl⟩

/-- Addresses of a run of words, the first and the rest. -/
theorem forall_lt_succ_words {P : Nat → Prop} {a n : Nat} :
    (∀ i < n + 1, P (a + 4 * i)) ↔ P a ∧ ∀ i < n, P (a + 4 + 4 * i) := by
  constructor
  · intro h
    refine ⟨h 0 (by omega), fun i hi => ?_⟩
    rw [show a + 4 + 4 * i = a + 4 * (i + 1) by ring]; exact h (i + 1) (by omega)
  · rintro ⟨h0, h⟩ i hi
    cases i with
    | zero => exact h0
    | succ i => rw [show a + 4 * (i + 1) = a + 4 + 4 * i by ring]; exact h i (by omega)

/-- Reading words gives a value just when every address is admitted, and then the words there. -/
theorem memReadWords_eq_ok {s : State} {a count : Nat} {ws : List Word} :
    memReadWords s a count = .ok ws ↔ (∀ i < count, admits s.cfg (a + 4 * i) = true) ∧ ws = s.wordsAt a count := by
  induction count generalizing a ws with
  | zero => exact ⟨fun h => ⟨fun i hi => by omega, by cases h; rfl⟩, fun h => by rw [h.2]; rfl⟩
  | succ n ih =>
    rw [memReadWords, Access.bind_eq_ok, State.wordsAt_succ, forall_lt_succ_words (P := (admits s.cfg · = true))]
    constructor
    · rintro ⟨w, hw, h⟩
      obtain ⟨vs, hvs, e⟩ := Access.bind_eq_ok.1 h
      obtain ⟨h0, rfl⟩ := memRead_eq_ok.1 hw
      obtain ⟨h1, rfl⟩ := ih.1 hvs
      exact ⟨⟨h0, h1⟩, by cases e; rfl⟩
    · rintro ⟨⟨h0, h1⟩, rfl⟩
      exact ⟨_, memRead_eq_ok.2 ⟨h0, rfl⟩, Access.bind_eq_ok.2 ⟨_, ih.2 ⟨h1, rfl⟩, rfl⟩⟩

/-- Writing words takes place just when every address is admitted, and then stores them. -/
theorem memWriteWords_eq_ok {s t : State} {a : Nat} {vs : List Word} :
    memWriteWords s a vs = .ok t ↔
      (∀ i < vs.length, admits s.cfg (a + 4 * i) = true) ∧ t = s.pokeWords a vs := by
  induction vs generalizing s a with
  | nil => exact ⟨fun h => ⟨fun i hi => absurd hi (by simp), by cases h; rfl⟩, fun h => by rw [h.2]; rfl⟩
  | cons v vs ih =>
    rw [memWriteWords, Access.bind_eq_ok, List.length_cons,
      forall_lt_succ_words (P := (admits s.cfg · = true))]
    constructor
    · rintro ⟨u, hu, h⟩
      obtain ⟨h0, rfl⟩ := memWrite_eq_ok.1 hu
      obtain ⟨h1, rfl⟩ := ih.1 h
      exact ⟨⟨h0, h1⟩, rfl⟩
    · rintro ⟨⟨h0, h1⟩, rfl⟩
      exact ⟨_, memWrite_eq_ok.2 ⟨h0, rfl⟩, ih.2 ⟨h1, rfl⟩⟩

/-- Words read in order are marked only where they start misaligned. -/
theorem memReadWords_marked {s : State} {a count : Nat} {f : Fault} (h : memReadWords s a count = .marked f) :
    a % 4 ≠ 0 ∧ f = .misaligned := by
  induction count generalizing a with
  | zero => cases h
  | succ n ih =>
    rcases Access.bind_eq_marked.1 h with h | ⟨w, _, h⟩
    · exact memRead_eq_marked.1 h
    · rcases Access.bind_eq_marked.1 h with h | ⟨ws, _, h⟩
      · exact ⟨by have := (ih h).1; omega, (ih h).2⟩
      · cases h

theorem memReadWords_not_marked {s : State} {a count : Nat} {f : Fault} (ha : a % 4 = 0) :
    memReadWords s a count ≠ .marked f := fun h => (memReadWords_marked h).1 ha

/-- Words written in order are marked only where they start misaligned. -/
theorem memWriteWords_marked {s : State} {a : Nat} {vs : List Word} {f : Fault}
    (h : memWriteWords s a vs = .marked f) : a % 4 ≠ 0 ∧ f = .misaligned := by
  induction vs generalizing s a with
  | nil => cases h
  | cons v vs ih =>
    rcases Access.bind_eq_marked.1 h with h | ⟨t, _, h⟩
    · exact memWrite_eq_marked.1 h
    · exact ⟨by have := (ih h).1; omega, (ih h).2⟩

end Sys2Proof.Machine
end

