-- ==== Sys2Proof/Laws/Checksum.lean ====
section
/-! SUPPORT. The checksum engine: the registers run `fletcher64`, and seeding first leaves nothing unwritten
(40_checksum.md R80, 10_state.md R34). -/

namespace Sys2Proof.Machine

@[simp] theorem Ck.sums_ofSums (x : Sums) : (Ck.ofSums x).sums = .ok x := rfl

@[simp] theorem ckAccum_ofSums (x : Sums) (w : Word) : ckAccum (Ck.ofSums x) w = .ok (Ck.ofSums (sumsAccum x w)) := rfl

@[simp] theorem ckAccumAll_ofSums (x : Sums) (ws : List Word) :
    ckAccumAll (Ck.ofSums x) ws = .ok (Ck.ofSums (ws.foldl sumsAccum x)) := by
  induction ws generalizing x with
  | nil => rfl
  | cons w ws ih => rw [ckAccumAll, ckAccum_ofSums, Access.bind_ok, ih]; rfl

@[simp] theorem ckResult_ofSums (x : Sums) : ckResult (Ck.ofSums x) = .ok (sumsResult x) := rfl

/-- Seeding, accumulating and reading out gives `fletcher64` and leaves its sums in the registers. -/
theorem ck_runs_fletcher64 (words : List Word) (seed : Dword) :
    ckAccumAll (ckSeed seed) words = .ok (Ck.ofSums (finalSums words seed)) := by
  rw [ckSeed, ckAccumAll_ofSums]; rfl

end Sys2Proof.Machine
end

