-- ==== Sys2Proof/Laws/Requests.lean ====
section
/-! SUPPORT. Requests at acceptance: what the acceptance test and the checks say, and the states step 1 leaves. -/

namespace Sys2Proof.Machine

/-! ## When ORC takes a request -/

theorem State.halted_iff {s : State} : s.halted = false ↔ s.going := by
  simp [State.halted, State.going, and_assoc]

theorem State.accepting_iff {s : State} : s.accepting = true ↔ s.Ready := by
  simp [State.accepting, State.Ready, ← State.halted_iff, and_assoc]

theorem State.abandonable_iff {s : State} :
    s.abandonable = true ↔ s.going ∧ s.orc.phase = .inflight := by
  simp [State.abandonable, ← State.halted_iff]

/-! ## The checks -/

theorem aligned_iff {b : Word} : aligned b = true ↔ b.toNat % 4 = 0 := by simp [aligned]

/-- The overlap test, as the ranges of 20_memory.md R42. -/
theorem rangesOverlap_txbuf {c : Cfg} {buf : Word} {n k : Nat} (hk : 0 < k) :
    rangesOverlap buf.toNat (4 * n) c.txbufBase.toNat (4 * k) = false ↔ ClearOfTxbuf c buf n k := by
  rw [← Bool.not_eq_true]
  simp only [rangesOverlap, ClearOfTxbuf, Bool.and_eq_true, decide_eq_true_eq]
  omega

theorem validateRead_accept {c : Cfg} {wc buf : Word} (hw : wc ≠ 0) (hb : buf.toNat % 4 = 0)
    (hc : ClearOfTxbuf c buf (wc.toNat / 2) 5) : validateRead c wc buf = .accept := by
  have h := (rangesOverlap_txbuf (by omega)).2 hc
  rw [validateRead, if_neg hw, aligned_iff.2 hb]
  simp only [payloadWords, show (20 : Nat) = 4 * 5 from rfl, h]; rfl

theorem validateRead_overlap {c : Cfg} {wc buf : Word} (hw : wc ≠ 0) (hb : buf.toNat % 4 = 0)
    (hc : ¬ ClearOfTxbuf c buf (wc.toNat / 2) 5) : validateRead c wc buf = .overlap := by
  have h := (rangesOverlap_txbuf (by omega)).not.2 hc
  rw [Bool.not_eq_false] at h
  rw [validateRead, if_neg hw, aligned_iff.2 hb]
  simp only [payloadWords, show (20 : Nat) = 4 * 5 from rfl, h]; rfl

theorem validateRead_misaligned {c : Cfg} {wc buf : Word} (hw : wc ≠ 0) (hb : buf.toNat % 4 ≠ 0) :
    validateRead c wc buf = .reject reasonMisalignedBuffer := by
  rw [validateRead, if_neg hw, Bool.eq_false_iff.2 (mt aligned_iff.1 hb)]; rfl

theorem validateWrite_accept {c : Cfg} {wc buf : Word} (hw : wc ≠ 0) (hb : buf.toNat % 4 = 0)
    (hl : 5 + wc.toNat / 2 ≤ c.txbufWords) (hc : ClearOfTxbuf c buf (wc.toNat / 2) (5 + wc.toNat / 2)) :
    validateWrite c wc buf = .accept := by
  have h := (rangesOverlap_txbuf (by omega)).2 hc
  rw [validateWrite, if_neg hw, aligned_iff.2 hb]
  simp only [payloadWords, if_neg (Nat.not_lt.2 hl), h]; rfl

theorem validateWrite_overlap {c : Cfg} {wc buf : Word} (hw : wc ≠ 0) (hb : buf.toNat % 4 = 0)
    (hl : 5 + wc.toNat / 2 ≤ c.txbufWords) (hc : ¬ ClearOfTxbuf c buf (wc.toNat / 2) (5 + wc.toNat / 2)) :
    validateWrite c wc buf = .overlap := by
  have h := (rangesOverlap_txbuf (by omega)).not.2 hc
  rw [Bool.not_eq_false] at h
  rw [validateWrite, if_neg hw, aligned_iff.2 hb]
  simp only [payloadWords, if_neg (Nat.not_lt.2 hl), h]; rfl

theorem validateWrite_misaligned {c : Cfg} {wc buf : Word} (hw : wc ≠ 0) (hb : buf.toNat % 4 ≠ 0) :
    validateWrite c wc buf = .reject reasonMisalignedBuffer := by
  rw [validateWrite, if_neg hw, Bool.eq_false_iff.2 (mt aligned_iff.1 hb)]; rfl

theorem validateWrite_tooLong {c : Cfg} {wc buf : Word} (hw : wc ≠ 0) (hb : buf.toNat % 4 = 0)
    (hl : c.txbufWords < 5 + wc.toNat / 2) : validateWrite c wc buf = .reject reasonTooLong := by
  rw [validateWrite, if_neg hw, aligned_iff.2 hb, if_neg (by decide)]
  exact if_pos hl

/-- An accepted READ or WRITE has a word count and an aligned buffer. -/
theorem validateRead_eq_accept {c : Cfg} {wc buf : Word} (h : validateRead c wc buf = .accept) :
    wc ≠ 0 ∧ buf.toNat % 4 = 0 ∧ ClearOfTxbuf c buf (wc.toNat / 2) 5 := by
  unfold validateRead at h
  by_cases hw : wc = 0
  · rw [if_pos hw] at h; cases h
  by_cases hb : aligned buf = true
  · rw [if_neg hw, hb] at h
    by_cases hc : rangesOverlap buf.toNat (4 * payloadWords wc) c.txbufBase.toNat 20 = true
    · rw [hc] at h; cases h
    · exact ⟨hw, aligned_iff.1 hb, (rangesOverlap_txbuf (by omega)).1 (Bool.eq_false_iff.2 hc)⟩
  · rw [if_neg hw, Bool.eq_false_iff.2 hb] at h; cases h

theorem validateWrite_eq_accept {c : Cfg} {wc buf : Word} (h : validateWrite c wc buf = .accept) :
    wc ≠ 0 ∧ buf.toNat % 4 = 0 ∧ 5 + wc.toNat / 2 ≤ c.txbufWords ∧
      ClearOfTxbuf c buf (wc.toNat / 2) (5 + wc.toNat / 2) := by
  unfold validateWrite at h
  by_cases hw : wc = 0
  · rw [if_pos hw] at h; cases h
  by_cases hb : aligned buf = true
  · rw [if_neg hw, hb] at h
    by_cases hl : c.txbufWords < 5 + payloadWords wc
    · simp only [if_pos hl] at h; cases h
    · by_cases hc : rangesOverlap buf.toNat (4 * payloadWords wc) c.txbufBase.toNat
          (4 * (5 + payloadWords wc)) = true
      · simp only [if_neg hl, hc] at h; cases h
      · exact ⟨hw, aligned_iff.1 hb, Nat.not_lt.1 hl, (rangesOverlap_txbuf (by omega)).1 (Bool.eq_false_iff.2 hc)⟩
  · rw [if_neg hw, Bool.eq_false_iff.2 hb] at h; cases h

/-! ## Step 1 -/

@[simp] theorem CommandPacket.toList_length (p : CommandPacket) : p.toList.length = 5 := rfl

/-- The state READ step 1 leaves. -/
def afterReadStep1 (address wc rxbuf : Word) (s : State) : State :=
  { s with
    mem := (s.pokeWords s.cfg.txbufBase.toNat (transactionHeader s.cfg true address wc).toList).mem
    orc := { latchRead address wc rxbuf s.orc with phase := .selected }
    csN := false
    reqPort := none
    owned := some (rxbuf.toNat, payloadWords wc) }

/-- The state WRITE step 1 leaves. -/
def afterWriteStep1 (address wc srcbuf : Word) (s : State) : State :=
  { s with
    mem := (s.pokeWords s.cfg.txbufBase.toNat
      ((transactionHeader s.cfg false address wc).toList ++ s.wordsAt srcbuf.toNat (payloadWords wc))).mem
    ck := Ck.ofSums (finalSums (s.wordsAt srcbuf.toNat (payloadWords wc)) s.cfg.xferSeed)
    orc := { latchWrite address wc s.orc with
      result := .holds (fletcher64 (s.wordsAt srcbuf.toNat (payloadWords wc)) s.cfg.xferSeed)
      phase := .selected }
    csN := false
    reqPort := none }

/-- What step 1 stages reads back, and no other byte changes. -/
theorem afterReadStep1_wordsAt (address wc rxbuf : Word) (s : State) :
    (afterReadStep1 address wc rxbuf s).wordsAt s.cfg.txbufBase.toNat 5 =
      (transactionHeader s.cfg true address wc).toList := by
  have h := s.wordsAt_pokeWords s.cfg.txbufBase.toNat (transactionHeader s.cfg true address wc).toList
  rw [CommandPacket.toList_length] at h
  rw [← h]
  apply State.wordsAt_congr
  · rw [State.pokeWords_cfg]; rfl
  · rfl
  · rw [State.pokeWords_txEpoch]; rfl

theorem afterReadStep1_byteAt (address wc rxbuf : Word) (s : State) {b : Nat}
    (h : b < s.cfg.txbufBase.toNat ∨ s.cfg.txbufBase.toNat + 20 ≤ b) :
    (afterReadStep1 address wc rxbuf s).byteAt b = s.byteAt b := by
  rw [← s.byteAt_pokeWords s.cfg.txbufBase.toNat b (transactionHeader s.cfg true address wc).toList h]
  apply State.byteAt_congr
  · rw [State.pokeWords_cfg]; rfl
  · rfl
  · rw [State.pokeWords_txEpoch]; rfl

theorem afterWriteStep1_wordsAt (address wc srcbuf : Word) (s : State) :
    (afterWriteStep1 address wc srcbuf s).wordsAt s.cfg.txbufBase.toNat (5 + payloadWords wc) =
      (transactionHeader s.cfg false address wc).toList ++ s.wordsAt srcbuf.toNat (payloadWords wc) := by
  have h := s.wordsAt_pokeWords s.cfg.txbufBase.toNat
    ((transactionHeader s.cfg false address wc).toList ++ s.wordsAt srcbuf.toNat (payloadWords wc))
  rw [List.length_append, CommandPacket.toList_length, State.wordsAt_length] at h
  rw [← h]
  apply State.wordsAt_congr
  · rw [State.pokeWords_cfg]; rfl
  · rfl
  · rw [State.pokeWords_txEpoch]; rfl

theorem afterWriteStep1_byteAt (address wc srcbuf : Word) (s : State) {b : Nat}
    (h : b < s.cfg.txbufBase.toNat ∨ s.cfg.txbufBase.toNat + 4 * (5 + payloadWords wc) ≤ b) :
    (afterWriteStep1 address wc srcbuf s).byteAt b = s.byteAt b := by
  rw [← s.byteAt_pokeWords s.cfg.txbufBase.toNat b
    ((transactionHeader s.cfg false address wc).toList ++ s.wordsAt srcbuf.toNat (payloadWords wc))
    (by rw [List.length_append, CommandPacket.toList_length, State.wordsAt_length]; exact h)]
  apply State.byteAt_congr
  · rw [State.pokeWords_cfg]; rfl
  · rfl
  · rw [State.pokeWords_txEpoch]; rfl

theorem readStep1_eq_ok {address wc rxbuf : Word} {s t : State} :
    readStep1 address wc rxbuf s = .ok t ↔
      AdmittedWords s.cfg s.cfg.txbufBase.toNat 5 ∧ t = afterReadStep1 address wc rxbuf s := by
  have e := State.pokeWords_eq_mem s s.cfg.txbufBase.toNat (transactionHeader s.cfg true address wc).toList
  rw [readStep1, Access.bind_eq_ok, afterReadStep1]
  constructor
  · rintro ⟨u, hu, h⟩
    obtain ⟨h1, rfl⟩ := memWriteWords_eq_ok.1 hu
    refine ⟨h1, ?_⟩
    generalize s.pokeWords _ _ = u at *
    obtain ⟨m, rfl⟩ : ∃ m, u = { s with mem := m } := ⟨_, e⟩
    exact (Access.ok.inj h).symm
  · rintro ⟨h, rfl⟩
    refine ⟨_, memWriteWords_eq_ok.2 ⟨h, rfl⟩, ?_⟩
    generalize s.pokeWords _ _ = u at *
    obtain ⟨m, rfl⟩ : ∃ m, u = { s with mem := m } := ⟨_, e⟩
    rfl

theorem writeStep1_eq_ok {address wc srcbuf : Word} {s t : State} :
    writeStep1 address wc srcbuf s = .ok t ↔
      AdmittedWords s.cfg srcbuf.toNat (payloadWords wc) ∧
      AdmittedWords s.cfg s.cfg.txbufBase.toNat (5 + payloadWords wc) ∧
      t = afterWriteStep1 address wc srcbuf s := by
  have e := State.pokeWords_eq_mem s s.cfg.txbufBase.toNat
    ((transactionHeader s.cfg false address wc).toList ++ s.wordsAt srcbuf.toNat (payloadWords wc))
  have hlen : ((transactionHeader s.cfg false address wc).toList
      ++ s.wordsAt srcbuf.toNat (payloadWords wc)).length = 5 + payloadWords wc := by
    rw [List.length_append, CommandPacket.toList_length, State.wordsAt_length]
  rw [writeStep1, Access.bind_eq_ok, afterWriteStep1]
  constructor
  · rintro ⟨ws, hw, h⟩
    obtain ⟨h1, rfl⟩ := memReadWords_eq_ok.1 hw
    obtain ⟨u, hu, h⟩ := Access.bind_eq_ok.1 h
    obtain ⟨h2, rfl⟩ := memWriteWords_eq_ok.1 hu
    rw [hlen] at h2
    refine ⟨h1, h2, ?_⟩
    rw [ck_runs_fletcher64, Access.bind_ok, ckResult_ofSums, Access.bind_ok] at h
    rw [fletcher64]
    generalize finalSums _ _ = x at *
    generalize s.pokeWords _ _ = u at *
    obtain ⟨m, rfl⟩ : ∃ m, u = { s with mem := m } := ⟨_, e⟩
    exact (Access.ok.inj h).symm
  · rintro ⟨h1, h2, rfl⟩
    rw [← hlen] at h2
    refine ⟨_, memReadWords_eq_ok.2 ⟨h1, rfl⟩, Access.bind_eq_ok.2 ⟨_, memWriteWords_eq_ok.2 ⟨h2, rfl⟩, ?_⟩⟩
    rw [ck_runs_fletcher64, Access.bind_ok, ckResult_ofSums, Access.bind_ok, fletcher64]
    generalize finalSums _ _ = x at *
    generalize s.pokeWords _ _ = u at *
    obtain ⟨m, rfl⟩ : ∃ m, u = { s with mem := m } := ⟨_, e⟩
    rfl

/-- READ step 1 is marked only where TXBUF is misaligned. -/
theorem readStep1_marked {address wc rxbuf : Word} {s : State} {f : Fault}
    (h : readStep1 address wc rxbuf s = .marked f) : s.cfg.txbufBase.toNat % 4 ≠ 0 ∧ f = .misaligned := by
  rcases Access.bind_eq_marked.1 h with h | ⟨_, _, h⟩
  · exact memWriteWords_marked h
  · cases h

theorem readStep1_not_marked {address wc rxbuf : Word} {s : State} {f : Fault}
    (h : s.cfg.txbufBase.toNat % 4 = 0) : readStep1 address wc rxbuf s ≠ .marked f :=
  fun e => (readStep1_marked e).1 h

/-- WRITE step 1, its source aligned, is marked only where TXBUF is misaligned. -/
theorem writeStep1_marked {address wc srcbuf : Word} {s : State} {f : Fault} (hb : srcbuf.toNat % 4 = 0)
    (h : writeStep1 address wc srcbuf s = .marked f) : s.cfg.txbufBase.toNat % 4 ≠ 0 ∧ f = .misaligned := by
  rcases Access.bind_eq_marked.1 h with h | ⟨ws, _, h⟩
  · exact absurd h (memReadWords_not_marked hb)
  rcases Access.bind_eq_marked.1 h with h | ⟨_, _, h⟩
  · exact memWriteWords_marked h
  rw [ck_runs_fletcher64, Access.bind_ok, ckResult_ofSums, Access.bind_ok] at h
  cases h

theorem writeStep1_not_marked {address wc srcbuf : Word} {s : State} {f : Fault}
    (h : s.cfg.txbufBase.toNat % 4 = 0) (hb : srcbuf.toNat % 4 = 0) :
    writeStep1 address wc srcbuf s ≠ .marked f := fun e => (writeStep1_marked hb e).1 h

/-! ## All a request can come to -/

/-- The state CHECKSUM leaves where it completes. -/
def afterChecksum (base count : Word) (seed : Dword) (s : State) : State :=
  { s with
    ck := Ck.ofSums (finalSums (s.wordsAt base.toNat count.toNat) seed)
    reqPort := none
    respPort := some ⟨statusOk, .checksum (fletcher64 (s.wordsAt base.toNat count.toNat) seed)⟩
    owned := some (base.toNat, count.toNat) }

theorem execChecksum_cases (base count : Word) (seed : Dword) (s : State) :
    (execChecksum base count seed s = .next s) ∨
    (s.Ready ∧ base.toNat % 4 ≠ 0 ∧ execChecksum base count seed s = .next (s.raiseInvalid reasonMisalignedBuffer)) ∨
    (s.Ready ∧ base.toNat % 4 = 0 ∧ AdmittedWords s.cfg base.toNat count.toNat ∧
      execChecksum base count seed s = .next (afterChecksum base count seed s)) := by
  unfold execChecksum
  by_cases ha : s.accepting = true
  · by_cases hb : aligned base = true
    · rw [ha, hb]
      cases hx : memReadWords s base.toNat count.toNat with
      | ok ws =>
        obtain ⟨h1, rfl⟩ := memReadWords_eq_ok.1 hx
        refine .inr (.inr ⟨State.accepting_iff.1 ha, aligned_iff.1 hb, h1, ?_⟩)
        simp only [Access.bind_ok, ck_runs_fletcher64, ckResult_ofSums]; rfl
      | stuck => exact .inl rfl
      | marked f => exact absurd hx (memReadWords_not_marked (aligned_iff.1 hb))
    · rw [ha, Bool.eq_false_iff.2 hb]
      exact .inr (.inl ⟨State.accepting_iff.1 ha, mt aligned_iff.2 hb, rfl⟩)
  · rw [Bool.eq_false_iff.2 ha]; exact .inl rfl

theorem execEncode_cases (read rs lin : Bool) (address wc wait er ew : Word) (s : State) :
    (execEncode read rs lin address wc wait er ew s = .next s) ∨
    (s.Ready ∧ wc = 0 ∧
      execEncode read rs lin address wc wait er ew s = .next (s.raiseInvalid reasonZeroWordcount)) ∨
    (s.Ready ∧ wc ≠ 0 ∧ execEncode read rs lin address wc wait er ew s =
      .next (s.takeRequest.respond statusOk (.words (buildCommand read rs lin address wc wait er ew)))) := by
  unfold execEncode
  by_cases ha : s.accepting = true
  · rw [ha]
    by_cases hw : wc = 0
    · exact .inr (.inl ⟨State.accepting_iff.1 ha, hw, by rw [if_pos hw]; rfl⟩)
    · exact .inr (.inr ⟨State.accepting_iff.1 ha, hw, by rw [if_neg hw]; rfl⟩)
  · rw [Bool.eq_false_iff.2 ha]; exact .inl rfl

theorem execRead_cases (address wc rxbuf : Word) (s : State) :
    (execRead address wc rxbuf s = .next s) ∨
    (∃ r, s.Ready ∧ execRead address wc rxbuf s = .next (s.raiseInvalid r)) ∨
    (s.Ready ∧ execRead address wc rxbuf s = .next (s.takeRequest.recordFault .overlap)) ∨
    (s.Ready ∧ s.cfg.txbufBase.toNat % 4 ≠ 0 ∧ execRead address wc rxbuf s = .next (s.recordFault .misaligned)) ∨
    (s.Ready ∧ wc ≠ 0 ∧ rxbuf.toNat % 4 = 0 ∧ ClearOfTxbuf s.cfg rxbuf (wc.toNat / 2) 5 ∧
      AdmittedWords s.cfg s.cfg.txbufBase.toNat 5 ∧
      execRead address wc rxbuf s = .next (afterReadStep1 address wc rxbuf s)) := by
  unfold execRead
  by_cases ha : s.accepting = true
  · have hr := State.accepting_iff.1 ha
    rw [ha]
    cases hv : validateRead s.cfg wc rxbuf with
    | reject r => exact .inr (.inl ⟨r, hr, rfl⟩)
    | overlap => exact .inr (.inr (.inl ⟨hr, rfl⟩))
    | accept =>
      obtain ⟨h1, h2, h3⟩ := validateRead_eq_accept hv
      cases hx : readStep1 address wc rxbuf s with
      | ok t =>
        obtain ⟨h4, rfl⟩ := readStep1_eq_ok.1 hx
        exact .inr (.inr (.inr (.inr ⟨hr, h1, h2, h3, h4, rfl⟩)))
      | stuck => exact .inl rfl
      | marked f =>
        obtain ⟨h4, rfl⟩ := readStep1_marked hx
        exact .inr (.inr (.inr (.inl ⟨hr, h4, rfl⟩)))
  · rw [Bool.eq_false_iff.2 ha]; exact .inl rfl

theorem execWrite_cases (address wc srcbuf : Word) (s : State) :
    (execWrite address wc srcbuf s = .next s) ∨
    (∃ r, s.Ready ∧ execWrite address wc srcbuf s = .next (s.raiseInvalid r)) ∨
    (s.Ready ∧ execWrite address wc srcbuf s = .next (s.takeRequest.recordFault .overlap)) ∨
    (s.Ready ∧ s.cfg.txbufBase.toNat % 4 ≠ 0 ∧ execWrite address wc srcbuf s = .next (s.recordFault .misaligned)) ∨
    (s.Ready ∧ wc ≠ 0 ∧ srcbuf.toNat % 4 = 0 ∧ 5 + wc.toNat / 2 ≤ s.cfg.txbufWords ∧
      ClearOfTxbuf s.cfg srcbuf (wc.toNat / 2) (5 + wc.toNat / 2) ∧
      AdmittedWords s.cfg srcbuf.toNat (wc.toNat / 2) ∧
      AdmittedWords s.cfg s.cfg.txbufBase.toNat (5 + wc.toNat / 2) ∧
      execWrite address wc srcbuf s = .next (afterWriteStep1 address wc srcbuf s)) := by
  unfold execWrite
  by_cases ha : s.accepting = true
  · have hr := State.accepting_iff.1 ha
    rw [ha]
    cases hv : validateWrite s.cfg wc srcbuf with
    | reject r => exact .inr (.inl ⟨r, hr, rfl⟩)
    | overlap => exact .inr (.inr (.inl ⟨hr, rfl⟩))
    | accept =>
      obtain ⟨h1, h2, h3, h4⟩ := validateWrite_eq_accept hv
      cases hx : writeStep1 address wc srcbuf s with
      | ok t =>
        obtain ⟨h5, h6, rfl⟩ := writeStep1_eq_ok.1 hx
        exact .inr (.inr (.inr (.inr ⟨hr, h1, h2, h3, h4, h5, h6, rfl⟩)))
      | stuck => exact .inl rfl
      | marked f =>
        obtain ⟨h5, rfl⟩ := writeStep1_marked h2 hx
        exact .inr (.inr (.inr (.inl ⟨hr, h5, rfl⟩)))
  · rw [Bool.eq_false_iff.2 ha]; exact .inl rfl

theorem execAbandon_cases (s : State) :
    (execAbandon s = .next s) ∨
    (s.going ∧ s.orc.phase = .inflight ∧ execAbandon s =
      .next (State.respond statusOk .empty (State.setPhase .abandoned s.takeRequest.deselect))) ∨
    (s.Ready ∧ execAbandon s = .next (s.raiseInvalid reasonNotInFlight)) := by
  unfold execAbandon
  by_cases h1 : s.abandonable = true
  · obtain ⟨h2, h3⟩ := State.abandonable_iff.1 h1
    exact .inr (.inl ⟨h2, h3, by rw [h1]; rfl⟩)
  · by_cases h2 : s.accepting = true
    · exact .inr (.inr ⟨State.accepting_iff.1 h2, by rw [Bool.eq_false_iff.2 h1, h2]; rfl⟩)
    · exact .inl (by rw [Bool.eq_false_iff.2 h1, Bool.eq_false_iff.2 h2]; rfl)

end Sys2Proof.Machine
end

