-- ==== Sys2Proof/Laws/Moves.lean ====
section
/-! SUPPORT. All a move can come to: one relation per agent, cited in place of unfolding the step. -/

namespace Sys2Proof.Machine

/-! ## The step, by what its move fetches -/

/-- Every instruction, in every state, answers a next state. -/
theorem exec_answers (i : Instr) (s : State) : ∃ t, exec i s = .next t := by
  cases i <;> exact ⟨_, rfl⟩

theorem step_run {s u : State} {i : Instr} (h : fetch (nextMove s) (spendMove s) = .run i u) : step s = exec i u := by
  rw [step, h]

theorem step_done {s t : State} (h : fetch (nextMove s) (spendMove s) = .done t) : step s = .next t := by
  rw [step, h]

theorem step_eq_next {s t : State} :
    step s = .next t ↔ (∃ i u, fetch (nextMove s) (spendMove s) = .run i u ∧ exec i u = .next t) ∨
      fetch (nextMove s) (spendMove s) = .done t := by
  rw [step]
  cases h : fetch (nextMove s) (spendMove s) <;> simp

theorem nextMove_of_agenda {s : State} {m : Move} {rest : List Move} (h : s.agenda = m :: rest) :
    nextMove s = m := by rw [nextMove, h]

theorem spendMove_of_agenda {s : State} {m : Move} {rest : List Move} (h : s.agenda = m :: rest) :
    spendMove s = { s with agenda := rest } := by rw [spendMove, h]

/-- What the choice of a move leaves alone: all but the agenda and the draws. -/
theorem spendMove_eq (s : State) : ∃ g d, spendMove s = { s with agenda := g, draws := d } := by
  unfold spendMove
  split
  · exact ⟨_, _, rfl⟩
  · exact ⟨s.agenda, _, rfl⟩

theorem spendMove_Ready (s : State) : (spendMove s).Ready ↔ s.Ready := by
  obtain ⟨g, d, e⟩ := spendMove_eq s; rw [e]; rfl

/-! ## Requests: what decodes -/

@[simp] theorem Request.op_of_words (r : Request) : ((r.op.setWidth 32).extractLsb' 0 4 : BitVec 4) = r.op := by
  apply BitVec.eq_of_getLsbD_eq
  intro i hi
  simp [hi, show i < 32 by omega]

@[simp] theorem Request.upper_of_words (r : Request) : (r.op.setWidth 32).extractLsb' 4 28 = 0#28 := by
  apply BitVec.eq_of_getLsbD_eq
  intro i hi
  simp [BitVec.getLsbD_extractLsb']

/-- A request is decoded by its op. -/
theorem decode_words (r : Request) : decode .request r.words = decodeRequest r.op r.operands := by
  rw [Request.words, decode, decodeOpWord, if_pos (Request.upper_of_words r), Request.op_of_words]

theorem decodeChecksum_eq_ok {ws : List Word} {i : Instr} (h : decodeChecksum ws = .ok i) :
    ∃ base count lo hi, ws = [base, count, lo, hi] ∧ i = .checksum base count (hi ++ lo) := by
  unfold decodeChecksum at h
  split at h <;> cases h
  exact ⟨_, _, _, _, rfl, rfl⟩

theorem decodeEncode_eq_ok {ws : List Word} {i : Instr} (h : decodeEncode ws = .ok i) :
    ∃ wr wrs wl r rs lin a wc wait er ew, ws = [wr, wrs, wl, a, wc, wait, er, ew] ∧ bitOf wr = some r ∧
      bitOf wrs = some rs ∧ bitOf wl = some lin ∧ i = .encode r rs lin a wc wait er ew := by
  unfold decodeEncode at h
  split at h
  · split at h <;> cases h
    exact ⟨_, _, _, _, _, _, _, _, _, _, _, rfl, ‹_›, ‹_›, ‹_›, rfl⟩
  · cases h

theorem decodeRead_eq_ok {ws : List Word} {i : Instr} (h : decodeRead ws = .ok i) :
    ∃ a wc buf, ws = [a, wc, buf] ∧ i = .read a wc buf := by
  unfold decodeRead at h
  split at h <;> cases h
  exact ⟨_, _, _, rfl, rfl⟩

theorem decodeWrite_eq_ok {ws : List Word} {i : Instr} (h : decodeWrite ws = .ok i) :
    ∃ a wc buf, ws = [a, wc, buf] ∧ i = .write a wc buf := by
  unfold decodeWrite at h
  split at h <;> cases h
  exact ⟨_, _, _, rfl, rfl⟩

theorem decodeAbandon_eq_ok {ws : List Word} {i : Instr} (h : decodeAbandon ws = .ok i) :
    ws = [] ∧ i = .abandon := by
  unfold decodeAbandon at h
  split at h <;> cases h
  exact ⟨rfl, rfl⟩

/-- The instruction a request record is, op by op. -/
inductive Request.Is (op : BitVec 4) : List Word → Instr → Prop
  | checksum (base count lo hi : Word) (h : op = 1) : Is op [base, count, lo, hi] (.checksum base count (hi ++ lo))
  | encode (wr wrs wl : Word) (r rs lin : Bool) (a wc wait er ew : Word) (h : op = 2) (h1 : bitOf wr = some r)
      (h2 : bitOf wrs = some rs) (h3 : bitOf wl = some lin) :
      Is op [wr, wrs, wl, a, wc, wait, er, ew] (.encode r rs lin a wc wait er ew)
  | read (a wc buf : Word) (h : op = 3) : Is op [a, wc, buf] (.read a wc buf)
  | write (a wc buf : Word) (h : op = 4) : Is op [a, wc, buf] (.write a wc buf)
  | abandon (h : op = 5) : Is op [] .abandon

theorem decodeRequest_eq_ok {op : BitVec 4} {ws : List Word} {i : Instr} (h : decodeRequest op ws = .ok i) :
    Request.Is op ws i := by
  unfold decodeRequest at h
  split at h
  · obtain ⟨_, _, _, _, rfl, rfl⟩ := decodeChecksum_eq_ok h; exact .checksum _ _ _ _ ‹_›
  split at h
  · obtain ⟨_, _, _, _, _, _, _, _, _, _, _, rfl, h1, h2, h3, rfl⟩ := decodeEncode_eq_ok h
    exact .encode _ _ _ _ _ _ _ _ _ _ _ ‹_› h1 h2 h3
  split at h
  · obtain ⟨_, _, _, rfl, rfl⟩ := decodeRead_eq_ok h; exact .read _ _ _ ‹_›
  split at h
  · obtain ⟨_, _, _, rfl, rfl⟩ := decodeWrite_eq_ok h; exact .write _ _ _ ‹_›
  split at h
  · obtain ⟨rfl, rfl⟩ := decodeAbandon_eq_ok h; exact .abandon ‹_›
  · cases h

/-! ## All ORC's taking of a request can come to -/

/-- What ORC, looking at the request `r` on its port, leaves of the state `u`. -/
inductive Taken (u : State) (r : Request) : State → Prop
  | held : Taken u r u
  | invalid (reason : Byte) (h : u.Ready) : Taken u r (u.raiseInvalid reason)
  | reserved (h : u.Ready) : Taken u r { u.takeRequest with refusedOp := some r.op }
  | overlap (h : u.Ready) : Taken u r (u.takeRequest.recordFault .overlap)
  | marked (h : u.Ready) (hb : u.cfg.txbufBase.toNat % 4 ≠ 0) : Taken u r (u.recordFault .misaligned)
  | checksum (base count : Word) (seed : Dword) (h : u.Ready) : Taken u r (afterChecksum base count seed u)
  | encode (p : CommandPacket) (h : u.Ready) : Taken u r (u.takeRequest.respond statusOk (.words p))
  | read (a wc buf : Word) (hop : r.op = 3) (h : u.Ready) (hw : wc ≠ 0) (hb : buf.toNat % 4 = 0)
      (hc : ClearOfTxbuf u.cfg buf (wc.toNat / 2) 5) (hm : AdmittedWords u.cfg u.cfg.txbufBase.toNat 5) :
      Taken u r (afterReadStep1 a wc buf u)
  | write (a wc buf : Word) (hop : r.op = 4) (h : u.Ready) (hw : wc ≠ 0) (hl : 5 + wc.toNat / 2 ≤ u.cfg.txbufWords) :
      Taken u r (afterWriteStep1 a wc buf u)
  | abandon (hop : r.op = 5) (h : u.going) (hp : u.orc.phase = .inflight) :
      Taken u r (State.respond statusOk .empty (State.setPhase .abandoned u.takeRequest.deselect))

theorem exec_request_taken {u t : State} {r : Request} {i : Instr} (hi : Request.Is r.op r.operands i)
    (h : exec i u = .next t) : Taken u r t := by
  generalize hw : r.operands = ws at hi
  cases hi with
  | checksum base count lo hi hop =>
    rcases execChecksum_cases base count (hi ++ lo) u with e | ⟨hr, _, e⟩ | ⟨hr, _, _, e⟩ <;>
      rw [exec, e] at h <;> cases h
    · exact .held
    · exact .invalid _ hr
    · exact .checksum _ _ _ hr
  | encode wr wrs wl r' rs lin a wc wait er ew hop =>
    rcases execEncode_cases r' rs lin a wc wait er ew u with e | ⟨hr, _, e⟩ | ⟨hr, _, e⟩ <;>
      rw [exec, e] at h <;> cases h
    · exact .held
    · exact .invalid _ hr
    · exact .encode _ hr
  | read a wc buf hop =>
    rcases execRead_cases a wc buf u with e | ⟨_, hr, e⟩ | ⟨hr, e⟩ | ⟨hr, hb, e⟩ | ⟨hr, h1, h2, h3, h4, e⟩ <;>
      rw [exec, e] at h <;> cases h
    · exact .held
    · exact .invalid _ hr
    · exact .overlap hr
    · exact .marked hr hb
    · exact .read a wc buf hop hr h1 h2 h3 h4
  | write a wc buf hop =>
    rcases execWrite_cases a wc buf u with
      e | ⟨_, hr, e⟩ | ⟨hr, e⟩ | ⟨hr, hb, e⟩ | ⟨hr, h1, _, h3, _, _, _, e⟩ <;>
      rw [exec, e] at h <;> cases h
    · exact .held
    · exact .invalid _ hr
    · exact .overlap hr
    · exact .marked hr hb
    · exact .write a wc buf hop hr h1 h3
  | abandon hop =>
    rcases execAbandon_cases u with e | ⟨h1, h2, e⟩ | ⟨hr, e⟩ <;> rw [exec, e] at h <;> cases h
    · exact .held
    · exact .abandon hop h1 h2
    · exact .invalid _ hr

/-- ORC's move with nothing on the port leaves the state; otherwise it takes the request or holds. -/
theorem orcTake_cases {s t : State} (hm : nextMove s = .orcTake) (h : step s = .next t) :
    t = spendMove s ∨ ∃ r, s.reqPort = some r ∧ Taken (spendMove s) r t := by
  obtain ⟨g, d, eu⟩ := spendMove_eq s
  have hp : (spendMove s).reqPort = s.reqPort := by rw [eu]
  rw [step_eq_next, hm, fetch, fetchRequest, hp] at h
  cases hr : s.reqPort with
  | none =>
    rw [hr] at h
    rcases h with ⟨_, _, h, _⟩ | h <;> cases h
    exact .inl rfl
  | some r =>
    rw [hr] at h
    cases hd : decode .request r.words with
    | ok i =>
      simp only [hd] at h
      rcases h with ⟨j, u, h, h'⟩ | h <;> cases h
      rw [decode_words] at hd
      exact .inr ⟨r, rfl, exec_request_taken (decodeRequest_eq_ok hd) h'⟩
    | error e =>
      cases e with
      | reservedOp op =>
        have hop : op = r.op := by
          rw [decode_words, decodeRequest] at hd
          iterate 5 (split at hd; · exfalso; revert hd; first
            | (unfold decodeChecksum; split <;> simp)
            | (unfold decodeEncode; split; · split <;> simp
               · simp)
            | (unfold decodeRead; split <;> simp)
            | (unfold decodeWrite; split <;> simp)
            | (unfold decodeAbandon; split <;> simp))
          cases hd; rfl
        simp only [hd] at h
        rcases h with ⟨j, u, h, h'⟩ | h <;> cases h
        refine .inr ⟨r, rfl, ?_⟩
        split
        · rw [hop]; exact .reserved (State.accepting_iff.1 ‹_›)
        · exact .held
      | _ =>
        simp only [hd] at h
        split at h
        · rcases h with ⟨j, u, h, h'⟩ | h <;> cases h
        · rcases h with ⟨j, u, h, h'⟩ | h <;> cases h
          exact .inr ⟨r, rfl, .held⟩

end Sys2Proof.Machine
end

