-- ==== Sys2Proof/Laws/Agents.lean ====
section
/-! SUPPORT. All the other agents' moves can come to: ORC's steps 2 to 5, a channel's, the SU's. -/

namespace Sys2Proof.Machine

/-! ## ORC, steps 2 to 5 -/

theorem configure_of_busy {c : ChannelId} {d : ChannelDir} {m : Nat} {f : FifoName} {n : Nat} {b : Bool} {s : State}
    (h : (s.channel c).busy = true) : configure c d m f n b s = s.recordFault .channelBusy := by
  rw [configure, if_pos h]

/-- `configure` as the orchestrator calls it, with `autoStart = 0`. -/
theorem configure_of_free {c : ChannelId} {d : ChannelDir} {m : Nat} {f : FifoName} {n : Nat} {s : State}
    (h : (s.channel c).busy = false) : configure c d m f n false s = s.setChannel c (configured d m f n false) := by
  rw [configure, h]; rfl

/-- The channels READ configures. -/
def readChA (c : Cfg) : Channel := configured .memToFifo c.txbufBase.toNat .cmd 5 false
def readChB (n : Nat) (buf : Word) : Channel := configured .fifoToMem buf.toNat .data n false

/-- The channel WRITE configures. -/
def writeChA (c : Cfg) (n : Nat) : Channel := configured .memToFifo c.txbufBase.toNat .cmd (5 + n) false

theorem startChannel_eq_ok {s t : State} {c : ChannelId} :
    startChannel s c = .ok t ↔ (s.channel c).configured = true ∧
      ∃ r, (s.channel c).remaining = .holds r ∧ t = s.setChannel c ((s.channel c).startWith r) := by
  unfold startChannel
  by_cases h : (s.channel c).configured = true
  · rw [if_pos h, Access.bind_eq_ok]
    refine ⟨fun ⟨r, hr, e⟩ => ⟨h, r, Cell.read_eq_ok.1 hr, (Access.ok.inj e).symm⟩, fun ⟨_, r, hr, e⟩ => ⟨r, Cell.read_eq_ok.2 hr, by rw [e]⟩⟩
  · rw [if_neg h]; exact ⟨nofun, fun ⟨h', _⟩ => absurd h' h⟩

/-- What a step of an open transaction leaves of the state `u`. -/
inductive Advanced (u : State) : State → Prop
  | held : Advanced u u
  | marked (f : Fault) (h : transactionStep u = .marked f) : Advanced u (u.recordFault f)
  | busyA (hp : u.orc.phase = .selected) (h : u.chA.busy = true) : Advanced u (u.recordFault .channelBusy)
  | busyB (hp : u.orc.phase = .selected) (ho : u.orc.op = .holds .read) (ha : u.chA.busy = false)
      (hb : u.chB.busy = true) : Advanced u (State.recordFault .channelBusy { u with chA := readChA u.cfg })
  | armedRead (n : Nat) (buf : Word) (hp : u.orc.phase = .selected) (ho : u.orc.op = .holds .read)
      (hn : u.orc.n = .holds n) (hbuf : u.orc.buf = some buf) (ha : u.chA.busy = false) (hb : u.chB.busy = false) :
      Advanced u (State.setPhase .armed { u with chA := readChA u.cfg, chB := readChB n buf })
  | armedWrite (n : Nat) (hp : u.orc.phase = .selected) (ho : u.orc.op = .holds .write) (hn : u.orc.n = .holds n)
      (ha : u.chA.busy = false) : Advanced u (State.setPhase .armed { u with chA := writeChA u.cfg n })
  | startedRead (a b : Nat) (hp : u.orc.phase = .armed) (ho : u.orc.op = .holds .read)
      (ca : u.chA.configured = true) (cb : u.chB.configured = true) (ra : u.chA.remaining = .holds a)
      (rb : u.chB.remaining = .holds b) :
      Advanced u (State.setPhase .inflight { u with chA := u.chA.startWith a, chB := u.chB.startWith b })
  | startedWrite (a : Nat) (hp : u.orc.phase = .armed) (ho : u.orc.op = .holds .write)
      (ca : u.chA.configured = true) (ra : u.chA.remaining = .holds a) :
      Advanced u (State.setPhase .inflight { u with chA := u.chA.startWith a })
  | finished (d : Direction) (hp : u.orc.phase = .inflight) (ho : u.orc.op = .holds d)
      (h : (u.channel (watchedChannel d)).finish = true) : Advanced u (u.setPhase .completed)
  | answeredRead (n : Nat) (ws : List Word) (hp : u.orc.phase = .completed) (ho : u.orc.op = .holds .read)
      (hn : u.orc.n = .holds n) (hw : receivedWords u n = .ok ws) :
      Advanced u { u with
        csN := true
        ck := Ck.ofSums (finalSums ws u.cfg.xferSeed)
        orc := { u.orc with result := .holds (fletcher64 ws u.cfg.xferSeed), buf := none, phase := .idle }
        respPort := some ⟨statusOk, .checksum (fletcher64 ws u.cfg.xferSeed)⟩ }
  | answeredWrite (r : Dword) (hp : u.orc.phase = .completed) (ho : u.orc.op = .holds .write)
      (hr : u.orc.result = .holds r) :
      Advanced u { u with
        csN := true, orc := { u.orc with phase := .idle }, respPort := some ⟨statusOk, .checksum r⟩ }

theorem Orc.bufAddress_eq_ok {o : Orc} {b : Word} : o.bufAddress = .ok b ↔ o.buf = some b := by
  unfold Orc.bufAddress
  cases o.buf <;> simp

/-- With its buffer known and admitted, a READ's received words are those in memory. -/
theorem receivedWords_eq {s : State} {n : Nat} {buf : Word} (hb : s.orc.buf = some buf)
    (hm : AdmittedWords s.cfg buf.toNat n) : receivedWords s n = .ok (s.wordsAt buf.toNat n) := by
  unfold receivedWords
  split
  · subst n; rfl
  · rw [Orc.bufAddress_eq_ok.2 hb, Access.bind_ok, memReadWords_eq_ok.2 ⟨hm, rfl⟩]

/-- Received words are marked only where the buffer is unknown or misaligned. -/
theorem receivedWords_not_marked {s : State} {n : Nat} {buf : Word} {f : Fault} (hb : s.orc.buf = some buf)
    (ha : buf.toNat % 4 = 0) : receivedWords s n ≠ .marked f := by
  unfold receivedWords
  split
  · exact nofun
  · rw [Orc.bufAddress_eq_ok.2 hb, Access.bind_ok]; exact memReadWords_not_marked ha

theorem readStep2_advanced {s t : State} (hp : s.orc.phase = .selected) (ho : s.orc.op = .holds .read)
    (h : readStep2 s = .ok t) : Advanced s t := by
  unfold readStep2 at h
  by_cases ha : s.chA.busy = true
  · rw [if_pos ha, configure_of_busy (c := .chA) (s := s) ha] at h
    rw [← Access.ok.inj h]; exact .busyA hp ha
  · rw [if_neg ha, configure_of_free (c := .chA) (s := s) (Bool.eq_false_iff.2 ha)] at h
    by_cases hc : s.chB.busy = true
    · rw [if_pos hc] at h
      rw [← Access.ok.inj h]; exact .busyB hp ho (Bool.eq_false_iff.2 ha) hc
    · rw [if_neg hc] at h
      obtain ⟨n, hn, h⟩ := Access.bind_eq_ok.1 h
      obtain ⟨buf, hb, h⟩ := Access.bind_eq_ok.1 h
      rw [Cell.read_eq_ok] at hn
      rw [Orc.bufAddress_eq_ok] at hb
      rw [configure_of_free (c := .chB) (by exact Bool.eq_false_iff.2 hc)] at h
      rw [← Access.ok.inj h]
      exact .armedRead n buf hp ho hn hb (Bool.eq_false_iff.2 ha) (Bool.eq_false_iff.2 hc)

theorem writeStep2_advanced {s t : State} (hp : s.orc.phase = .selected) (ho : s.orc.op = .holds .write)
    (h : writeStep2 s = .ok t) : Advanced s t := by
  unfold writeStep2 at h
  by_cases ha : s.chA.busy = true
  · rw [if_pos ha] at h
    rw [← Access.ok.inj h]; exact .busyA hp ha
  · rw [if_neg ha] at h
    obtain ⟨n, hn, h⟩ := Access.bind_eq_ok.1 h
    rw [Cell.read_eq_ok] at hn
    rw [configure_of_free (c := .chA) (s := s) (Bool.eq_false_iff.2 ha)] at h
    rw [← Access.ok.inj h]; exact .armedWrite n hp ho hn (Bool.eq_false_iff.2 ha)

theorem step3_advanced {s t : State} {d : Direction} (hp : s.orc.phase = .armed) (ho : s.orc.op = .holds d)
    (h : step3 d s = .ok t) : Advanced s t := by
  obtain ⟨u, hu, e⟩ := Access.bind_eq_ok.1 h
  rw [← Access.ok.inj e]
  cases d with
  | read =>
    obtain ⟨v, hv, hu⟩ := Access.bind_eq_ok.1 hu
    obtain ⟨w, hw, hu⟩ := Access.bind_eq_ok.1 hu
    obtain ⟨ca, a, ra, rfl⟩ := startChannel_eq_ok.1 hv
    obtain ⟨cb, b, rb, rfl⟩ := startChannel_eq_ok.1 hw
    rw [← Access.ok.inj hu]; exact .startedRead a b hp ho ca cb ra rb
  | write =>
    obtain ⟨v, hv, hu⟩ := Access.bind_eq_ok.1 hu
    obtain ⟨ca, a, ra, rfl⟩ := startChannel_eq_ok.1 hv
    rw [← Access.ok.inj hu]; exact .startedWrite a hp ho ca ra

theorem readStep5_advanced {s t : State} (hp : s.orc.phase = .completed) (ho : s.orc.op = .holds .read)
    (h : readStep5 s = .ok t) : Advanced s t := by
  obtain ⟨n, hn, h⟩ := Access.bind_eq_ok.1 h
  obtain ⟨ws, hws, h⟩ := Access.bind_eq_ok.1 h
  rw [Cell.read_eq_ok] at hn
  rw [ck_runs_fletcher64, Access.bind_ok, ckResult_ofSums, Access.bind_ok] at h
  rw [← Access.ok.inj h]; exact .answeredRead n ws hp ho hn hws

theorem writeStep5_advanced {s t : State} (hp : s.orc.phase = .completed) (ho : s.orc.op = .holds .write)
    (h : writeStep5 s = .ok t) : Advanced s t := by
  obtain ⟨r, hr, h⟩ := Access.bind_eq_ok.1 h
  rw [Cell.read_eq_ok] at hr
  have h := Access.ok.inj h
  rw [← h]; exact .answeredWrite r hp ho hr

theorem transactionStep_advanced {s t : State} (h : transactionStep s = .ok t) : Advanced s t := by
  unfold transactionStep at h
  cases hp : s.orc.phase <;> rw [hp] at h
  case idle => cases h
  case abandoned => cases h
  all_goals
    obtain ⟨d, hd, h⟩ := Access.bind_eq_ok.1 h
    rw [Cell.read_eq_ok] at hd
  case selected =>
    cases d with
    | read => exact readStep2_advanced hp hd h
    | write => exact writeStep2_advanced hp hd h
  case armed => exact step3_advanced hp hd h
  case inflight =>
    unfold step4 at h
    split at h
    · rw [← Access.ok.inj h]; exact .finished d hp hd ‹_›
    · cases h
  case completed =>
    cases d with
    | read => exact readStep5_advanced hp hd h
    | write => exact writeStep5_advanced hp hd h

/-! The same steps forwards: where each is enabled, what it leaves. -/

theorem transactionStep_armedRead {u : State} {n : Nat} {buf : Word} (hp : u.orc.phase = .selected)
    (ho : u.orc.op = .holds .read) (hn : u.orc.n = .holds n) (hbuf : u.orc.buf = some buf)
    (ha : u.chA.busy = false) (hb : u.chB.busy = false) :
    transactionStep u = .ok (State.setPhase .armed { u with chA := readChA u.cfg, chB := readChB n buf }) := by
  rw [transactionStep, hp]
  simp only [ho, Cell.read_holds, Access.bind_ok, readStep2, ha, hb, hn, Orc.bufAddress, hbuf]
  rw [configure_of_free (c := .chA) ha, configure_of_free (c := .chB) (by exact hb)]
  rfl

theorem transactionStep_armedWrite {u : State} {n : Nat} (hp : u.orc.phase = .selected)
    (ho : u.orc.op = .holds .write) (hn : u.orc.n = .holds n) (ha : u.chA.busy = false) :
    transactionStep u = .ok (State.setPhase .armed { u with chA := writeChA u.cfg n }) := by
  rw [transactionStep, hp]
  simp only [ho, Cell.read_holds, Access.bind_ok, writeStep2, ha, hn]
  rw [configure_of_free (c := .chA) ha]
  rfl

theorem transactionStep_busyA {u : State} {d : Direction} (hp : u.orc.phase = .selected) (ho : u.orc.op = .holds d)
    (ha : u.chA.busy = true) : transactionStep u = .ok (u.recordFault .channelBusy) := by
  rw [transactionStep, hp]
  cases d with
  | read =>
    simp only [ho, Cell.read_holds, Access.bind_ok, readStep2]
    rw [if_pos ha, configure_of_busy (c := .chA) ha]
  | write =>
    simp only [ho, Cell.read_holds, Access.bind_ok, writeStep2]
    rw [if_pos ha]

theorem transactionStep_startedRead {u : State} {a b : Nat} (hp : u.orc.phase = .armed)
    (ho : u.orc.op = .holds .read) (ca : u.chA.configured = true) (cb : u.chB.configured = true)
    (ra : u.chA.remaining = .holds a) (rb : u.chB.remaining = .holds b) :
    transactionStep u =
      .ok (State.setPhase .inflight { u with chA := u.chA.startWith a, chB := u.chB.startWith b }) := by
  rw [transactionStep, hp]
  simp only [ho, Cell.read_holds, Access.bind_ok, step3, startedChannels, startChannels]
  rw [startChannel_eq_ok (s := u) (c := .chA) |>.2 ⟨ca, a, ra, rfl⟩, Access.bind_ok,
    startChannel_eq_ok (s := u.setChannel .chA ((u.channel .chA).startWith a)) (c := .chB) |>.2 ⟨cb, b, rb, rfl⟩]
  rfl

theorem transactionStep_startedWrite {u : State} {a : Nat} (hp : u.orc.phase = .armed)
    (ho : u.orc.op = .holds .write) (ca : u.chA.configured = true) (ra : u.chA.remaining = .holds a) :
    transactionStep u = .ok (State.setPhase .inflight { u with chA := u.chA.startWith a }) := by
  rw [transactionStep, hp]
  simp only [ho, Cell.read_holds, Access.bind_ok, step3, startedChannels, startChannels]
  rw [startChannel_eq_ok (s := u) (c := .chA) |>.2 ⟨ca, a, ra, rfl⟩]
  rfl

theorem transactionStep_inflight {u : State} {d : Direction} (hp : u.orc.phase = .inflight)
    (ho : u.orc.op = .holds d) :
    transactionStep u =
      if (u.channel (watchedChannel d)).finish = true then .ok (u.setPhase .completed) else .stuck := by
  rw [transactionStep, hp]
  simp only [ho, Cell.read_holds, Access.bind_ok, step4]

theorem transactionStep_answeredRead {u : State} {n : Nat} {buf : Word} (hp : u.orc.phase = .completed)
    (ho : u.orc.op = .holds .read) (hn : u.orc.n = .holds n) (hbuf : u.orc.buf = some buf)
    (hm : AdmittedWords u.cfg buf.toNat n) :
    transactionStep u = .ok { u with
      csN := true
      ck := Ck.ofSums (finalSums (u.wordsAt buf.toNat n) u.cfg.xferSeed)
      orc := { u.orc with
        result := .holds (fletcher64 (u.wordsAt buf.toNat n) u.cfg.xferSeed), buf := none, phase := .idle }
      respPort := some ⟨statusOk, .checksum (fletcher64 (u.wordsAt buf.toNat n) u.cfg.xferSeed)⟩ } := by
  rw [transactionStep, hp]
  simp only [ho, Cell.read_holds, Access.bind_ok, readStep5, hn, receivedWords_eq hbuf hm]
  rw [ck_runs_fletcher64, Access.bind_ok, ckResult_ofSums, Access.bind_ok]
  rfl

theorem transactionStep_answeredWrite {u : State} {r : Dword} (hp : u.orc.phase = .completed)
    (ho : u.orc.op = .holds .write) (hr : u.orc.result = .holds r) :
    transactionStep u = .ok { u with
      csN := true, orc := { u.orc with phase := .idle }, respPort := some ⟨statusOk, .checksum r⟩ } := by
  rw [transactionStep, hp]
  exact Access.bind_eq_ok.2 ⟨_, Cell.read_eq_ok.2 ho, Access.bind_eq_ok.2 ⟨_, Cell.read_eq_ok.2 hr, rfl⟩⟩

/-- Where ORC is not stopped it takes its step; where it is, it holds. -/
theorem orcAdvance_cases (u : State) :
    (u.halted = true ∧ orcAdvance u = u) ∨ (u.going ∧ Advanced u (orcAdvance u)) := by
  unfold orcAdvance
  by_cases h : u.halted = true
  · exact .inl ⟨h, by rw [if_pos h]⟩
  · refine .inr ⟨State.halted_iff.1 (Bool.eq_false_iff.2 h), ?_⟩
    rw [if_neg h]
    rcases State.settle_cases u (transactionStep u) with ⟨t, e, e'⟩ | ⟨e, e'⟩ | ⟨f, e, e'⟩ <;> rw [e']
    · exact transactionStep_advanced e
    · exact .held
    · exact .marked f e

/-! ## A channel -/

/-- What a channel's step leaves of the state `u`. -/
inductive ChannelMoved (c : ChannelId) (u : State) : State → Prop
  | held : ChannelMoved c u u
  | marked (f : Fault) (hb : (u.channel c).busy = true) (h : moveWord u c = .marked f) :
      ChannelMoved c u (u.recordFault f)
  | toFifo (m r : Nat) (f : FifoName) (hb : (u.channel c).busy = true) (hd : (u.channel c).dir = .holds .memToFifo)
      (hm : (u.channel c).mem = .holds m) (hf : (u.channel c).fifo = .holds f)
      (hr : (u.channel c).remaining = .holds r) (room : (u.fifo f).length < fifoDepth u.cfg f)
      (adm : admits u.cfg m = true) :
      ChannelMoved c u ((u.setFifo f (u.fifo f ++ [u.wordAt m])).setChannel c ((u.channel c).moved m r))
  | toMem (m r : Nat) (f : FifoName) (v : Word) (vs : List Word) (hb : (u.channel c).busy = true)
      (hd : (u.channel c).dir = .holds .fifoToMem) (hm : (u.channel c).mem = .holds m)
      (hf : (u.channel c).fifo = .holds f) (hr : (u.channel c).remaining = .holds r) (hv : u.fifo f = v :: vs)
      (adm : admits u.cfg m = true) :
      ChannelMoved c u (((u.setFifo f vs).pokeWord m v).setChannel c ((u.channel c).moved m r))

theorem fifoRoom_eq_ok {s : State} {f : FifoName} {x : Unit} :
    fifoRoom s f = .ok x ↔ (s.fifo f).length < fifoDepth s.cfg f := by
  unfold fifoRoom; split <;> simp [*]

theorem fifoPush_eq_ok {s t : State} {f : FifoName} {v : Word} :
    fifoPush s f v = .ok t ↔ (s.fifo f).length < fifoDepth s.cfg f ∧ t = s.setFifo f (s.fifo f ++ [v]) := by
  rw [fifoPush, Access.bind_eq_ok]
  exact ⟨fun ⟨_, h, e⟩ => ⟨fifoRoom_eq_ok.1 h, (Access.ok.inj e).symm⟩,
    fun ⟨h, e⟩ => ⟨(), fifoRoom_eq_ok.2 h, by rw [e]⟩⟩

theorem fifoPop_eq_ok {s : State} {f : FifoName} {x : Word × State} :
    fifoPop s f = .ok x ↔ ∃ v vs, s.fifo f = v :: vs ∧ x = (v, s.setFifo f vs) := by
  unfold fifoPop
  cases h : s.fifo f with
  | nil => simp
  | cons v vs =>
    refine ⟨fun e => ⟨v, vs, rfl, (Access.ok.inj e).symm⟩, ?_⟩
    rintro ⟨v', vs', e, rfl⟩
    cases e; rfl

theorem fifoRoom_not_marked {s : State} {f : FifoName} {x : Fault} : fifoRoom s f ≠ .marked x := by
  unfold fifoRoom; split <;> simp

theorem fifoPush_not_marked {s : State} {f : FifoName} {v : Word} {x : Fault} : fifoPush s f v ≠ .marked x := by
  intro h
  rcases Access.bind_eq_marked.1 h with h | ⟨_, _, h⟩
  · exact fifoRoom_not_marked h
  · cases h

theorem fifoPop_not_marked {s : State} {f : FifoName} {x : Fault} : fifoPop s f ≠ .marked x := by
  unfold fifoPop; split <;> simp

theorem moveWord_moved {u t : State} {c : ChannelId} (hb : (u.channel c).busy = true) (h : moveWord u c = .ok t) :
    ChannelMoved c u t := by
  obtain ⟨d, hd, h⟩ := Access.bind_eq_ok.1 h
  obtain ⟨f, hf, h⟩ := Access.bind_eq_ok.1 h
  rw [Cell.read_eq_ok] at hd hf
  cases d with
  | memToFifo =>
    obtain ⟨_, h1, h⟩ := Access.bind_eq_ok.1 h
    obtain ⟨m, hm, h⟩ := Access.bind_eq_ok.1 h
    obtain ⟨v, h2, h⟩ := Access.bind_eq_ok.1 h
    obtain ⟨w, h3, h⟩ := Access.bind_eq_ok.1 h
    obtain ⟨r, hr, h⟩ := Access.bind_eq_ok.1 h
    rw [Cell.read_eq_ok] at hm hr
    obtain ⟨adm, rfl⟩ := memRead_eq_ok.1 h2
    obtain ⟨room, rfl⟩ := fifoPush_eq_ok.1 h3
    rw [← Access.ok.inj h]; exact .toFifo m r f hb hd hm hf hr room adm
  | fifoToMem =>
    obtain ⟨⟨v, w⟩, h1, h⟩ := Access.bind_eq_ok.1 h
    obtain ⟨m, hm, h⟩ := Access.bind_eq_ok.1 h
    obtain ⟨x, h2, h⟩ := Access.bind_eq_ok.1 h
    obtain ⟨r, hr, h⟩ := Access.bind_eq_ok.1 h
    rw [Cell.read_eq_ok] at hm hr
    obtain ⟨v', vs, hv, e⟩ := fifoPop_eq_ok.1 h1
    cases e
    obtain ⟨adm, rfl⟩ := memWrite_eq_ok.1 h2
    rw [State.setFifo_cfg] at adm
    rw [← Access.ok.inj h]; exact .toMem m r f v vs hb hd hm hf hr hv adm

theorem channelStep_moved (c : ChannelId) (u : State) : ChannelMoved c u (channelStep c u) := by
  unfold channelStep
  by_cases hb : (u.channel c).busy = true
  · rw [if_pos hb]
    rcases State.settle_cases u (moveWord u c) with ⟨t, e, e'⟩ | ⟨e, e'⟩ | ⟨f, e, e'⟩ <;> rw [e']
    · exact moveWord_moved hb e
    · exact .held
    · exact .marked f hb e
  · rw [if_neg hb]; exact .held

/-- The same step forwards. -/
theorem channelStep_toFifo {u : State} {c : ChannelId} {m r : Nat} {f : FifoName} (hb : (u.channel c).busy = true)
    (hd : (u.channel c).dir = .holds .memToFifo) (hm : (u.channel c).mem = .holds m)
    (hf : (u.channel c).fifo = .holds f) (hr : (u.channel c).remaining = .holds r)
    (room : (u.fifo f).length < fifoDepth u.cfg f) (adm : admits u.cfg m = true) :
    channelStep c u = (u.setFifo f (u.fifo f ++ [u.wordAt m])).setChannel c ((u.channel c).moved m r) := by
  rw [channelStep, if_pos hb, moveWord, hd, hf, hm, hr]
  simp only [Cell.read_holds, Access.bind_ok]
  rw [(fifoRoom_eq_ok (x := ())).2 room, Access.bind_ok, memRead_eq_ok.2 ⟨adm, rfl⟩, Access.bind_ok,
    fifoPush_eq_ok.2 ⟨room, rfl⟩]
  rfl

theorem channelStep_toMem {u : State} {c : ChannelId} {m r : Nat} {f : FifoName} {v : Word} {vs : List Word}
    (hb : (u.channel c).busy = true) (hd : (u.channel c).dir = .holds .fifoToMem)
    (hm : (u.channel c).mem = .holds m) (hf : (u.channel c).fifo = .holds f)
    (hr : (u.channel c).remaining = .holds r) (hv : u.fifo f = v :: vs) (adm : admits u.cfg m = true) :
    channelStep c u = ((u.setFifo f vs).pokeWord m v).setChannel c ((u.channel c).moved m r) := by
  rw [channelStep, if_pos hb, moveWord, hd, hf, hm, hr]
  simp only [Cell.read_holds, Access.bind_ok]
  rw [fifoPop_eq_ok.2 ⟨v, vs, hv, rfl⟩, Access.bind_ok,
    memWrite_eq_ok.2 ⟨(show admits (u.setFifo f vs).cfg m = true by rw [State.setFifo_cfg]; exact adm), rfl⟩]
  rfl

/-- A channel whose fields are written and whose address is aligned records no fault. -/
theorem moveWord_not_marked {u : State} {c : ChannelId} {f : Fault} {d : ChannelDir} {m r : Nat} {g : FifoName}
    (hd : (u.channel c).dir = .holds d) (hm : (u.channel c).mem = .holds m) (ha : m % 4 = 0)
    (hf : (u.channel c).fifo = .holds g) (hr : (u.channel c).remaining = .holds r) : moveWord u c ≠ .marked f := by
  intro h
  rw [moveWord, hd, hf, hm, hr] at h
  simp only [Cell.read_holds, Access.bind_ok] at h
  cases d with
  | memToFifo =>
    rcases Access.bind_eq_marked.1 h with h | ⟨_, _, h⟩
    · exact fifoRoom_not_marked h
    rcases Access.bind_eq_marked.1 h with h | ⟨_, _, h⟩
    · exact (memRead_eq_marked.1 h).1 ha
    rcases Access.bind_eq_marked.1 h with h | ⟨_, _, h⟩
    · exact fifoPush_not_marked h
    · cases h
  | fifoToMem =>
    rcases Access.bind_eq_marked.1 h with h | ⟨_, _, h⟩
    · exact fifoPop_not_marked h
    rcases Access.bind_eq_marked.1 h with h | ⟨_, _, h⟩
    · exact (memWrite_eq_marked.1 h).1 ha
    · cases h

/-! ## The signalling unit -/

/-- What a move of the SU leaves of the state `u`: a word of CMD_FIFO gone, or one of DATA_FIFO come, or neither,
and its own state, the device and the draws as they may be. -/
inductive SuMoved (u : State) : State → Prop
  | quiet (p : Su) (n : Nat) : SuMoved u { u with su := p, draws := n }
  | popped (p : Su) (n : Nat) (w : Word) (ws : List Word) (h : u.cmdFifo = w :: ws) :
      SuMoved u { u with cmdFifo := ws, su := p, draws := n }
  | stored (p : Su) (a : Nat) (w : Word) (ws : List Word) (h : u.cmdFifo = w :: ws) :
      SuMoved u { u with cmdFifo := ws, su := p, dev := (u.storeBeats a w).dev }
  | pushed (p : Su) (n : Nat) (v : Word) (h : u.dataFifo.length < u.cfg.fifoDepthData) :
      SuMoved u { u with dataFifo := u.dataFifo ++ [v], su := p, draws := n }

theorem suWeak_moved (act : SuAct) (u : State) (n : Nat) : SuMoved u (suWeak act { u with draws := n }) := by
  cases act with
  | hold => exact .quiet u.su n
  | pop =>
    rw [suWeak]
    rcases h : fifoPop { u with draws := n } .cmd with ⟨v, t⟩ | _ | f
    · obtain ⟨v', vs, hv, e⟩ := fifoPop_eq_ok.1 h
      cases e
      exact .popped _ n v vs hv
    · exact .quiet u.su n
    · exact absurd h fifoPop_not_marked
  | push v =>
    rw [suWeak]
    rcases h : fifoPush { u with draws := n } .data v with t | _ | f
    · obtain ⟨room, rfl⟩ := fifoPush_eq_ok.1 h
      exact .pushed _ n v room
    · exact .quiet u.su n
    · exact absurd h fifoPush_not_marked

theorem suPushWord_moved (a left : Nat) (u : State) : SuMoved u (suPushWord a left u) := by
  rw [suPushWord]
  rcases h : fifoPush u .data (u.deviceWord a) with t | _ | f
  · obtain ⟨room, rfl⟩ := fifoPush_eq_ok.1 h
    exact .pushed _ u.draws _ room
  · exact .quiet u.su u.draws
  · exact absurd h fifoPush_not_marked

theorem suPopWord_moved (a left : Nat) (u : State) : SuMoved u (suPopWord a left u) := by
  rw [suPopWord]
  rcases h : fifoPop u .cmd with ⟨v, t⟩ | _ | f
  · obtain ⟨v', vs, hv, e⟩ := fifoPop_eq_ok.1 h
    cases e
    exact .stored _ a v vs hv
  · exact .quiet u.su u.draws
  · exact absurd h fifoPop_not_marked

theorem setSuPhase_moved {u : State} {w : Word} {ws : List Word} (h : u.cmdFifo = w :: ws) (p : SuPhase) :
    SuMoved u (State.setSuPhase p { u with cmdFifo := ws }) := .popped _ u.draws w ws h

/-- Words that decode as a header or control word are an instruction the SU executes. -/
theorem exec_packetCa {w0 w1 w2 w3 : Word} {i : Instr} (h : decode .packetCa [w0, w1, w2, w3] = .ok i) (u : State) :
    exec i u = .next (u.setSuPhase (.command (caFields w0 w1 w2 w3))) := by
  rw [decode, decodeCa] at h
  split at h
  · cases h
  split at h
  · cases h
  split at h
  · cases h
  cases h
  rw [caInstr]
  generalize caFields w0 w1 w2 w3 = ca
  obtain ⟨r, rs, lin, a, wait, wc⟩ := ca
  cases r <;> cases rs <;> cases lin <;> rfl

theorem exec_packetCtrl {w : Word} {i : Instr} (h : decode .packetCtrl [w] = .ok i) (u : State) :
    ∃ p, exec i u = .next { u with su := p } := by
  rw [decode, decodeCtrl] at h
  split at h
  · cases h
  split at h
  · cases h; exact ⟨_, rfl⟩
  split at h
  · cases h; exact ⟨_, rfl⟩
  · cases h

theorem fetchSu_cases (u : State) : (∃ t, fetchSu u = .done t ∧ SuMoved u t) ∨
    ∃ i v t, fetchSu u = .run i v ∧ exec i v = .next t ∧ SuMoved u t := by
  rw [fetchSu]
  split
  · rename_i got _
    split
    · exact .inl ⟨_, rfl, .quiet u.su u.draws⟩
    · rename_i w ws hc
      rw [fetchCa]
      split
      · exact .inl ⟨_, rfl, setSuPhase_moved hc _⟩
      · rename_i hl
        split
        · rename_i i hd
          have : ∃ w0 w1 w2 w3, got ++ [w] = [w0, w1, w2, w3] := by
            generalize got ++ [w] = l at hd
            match l, hd with
            | [w0, w1, w2, w3], _ => exact ⟨_, _, _, _, rfl⟩
            | [], hd => cases hd
            | [_], hd => cases hd
            | [_, _], hd => cases hd
            | [_, _, _], hd => cases hd
            | _ :: _ :: _ :: _ :: _ :: _, hd => cases hd
          obtain ⟨w0, w1, w2, w3, e⟩ := this
          rw [e] at hd
          exact .inr ⟨i, _, _, rfl, exec_packetCa hd _, setSuPhase_moved hc _⟩
        · exact .inl ⟨_, rfl, setSuPhase_moved hc _⟩
  · split
    · exact .inl ⟨_, rfl, .quiet u.su u.draws⟩
    · rename_i w ws hc
      rw [fetchCtrl]
      split
      · rename_i i hd
        obtain ⟨p, hp⟩ := exec_packetCtrl hd { u with cmdFifo := ws }
        exact .inr ⟨i, _, _, rfl, hp, .popped p u.draws w ws hc⟩
      · exact .inl ⟨_, rfl, setSuPhase_moved hc _⟩
  · exact .inl ⟨_, rfl, suPushWord_moved _ _ u⟩
  · exact .inl ⟨_, rfl, suPopWord_moved _ _ u⟩
  · exact .inl ⟨_, rfl, suWeak_moved _ u _⟩

/-- Every move of the SU, in every state, answers a next state, and that is one of `SuMoved`. -/
theorem su_move_cases {s : State}
    (hm : nextMove s = .su ∨ nextMove s = .suPop ∨ ∃ v, nextMove s = .suPush v) :
    ∃ t, step s = .next t ∧ SuMoved (spendMove s) t := by
  rcases hm with hm | hm | ⟨v, hm⟩
  · rcases fetchSu_cases (spendMove s) with ⟨t, e, h⟩ | ⟨i, v, t, e, e', h⟩
    · exact ⟨t, step_done (by rw [hm]; exact e), h⟩
    · exact ⟨t, by rw [step_run (by rw [hm]; exact e), e'], h⟩
  · exact ⟨_, step_done (by rw [hm]; rfl), suWeak_moved .pop (spendMove s) _⟩
  · exact ⟨_, step_done (by rw [hm]; rfl), suWeak_moved (.push v) (spendMove s) _⟩

/-! ## The moves that fetch no instruction -/

theorem step_orcAdvance {s : State} (hm : nextMove s = .orcAdvance) : step s = .next (orcAdvance (spendMove s)) :=
  step_done (by rw [hm]; rfl)
theorem step_channel {s : State} {c : ChannelId} (hm : nextMove s = .channel c) :
    step s = .next (channelStep c (spendMove s)) := step_done (by rw [hm]; rfl)
theorem step_put {s : State} {r : Request} (hm : nextMove s = .put r) : step s = .next (hostPut r (spendMove s)) :=
  step_done (by rw [hm]; rfl)
theorem step_present {s : State} {r : Request} (hm : nextMove s = .present r) :
    step s = .next (presentRequest r (spendMove s)) := step_done (by rw [hm]; rfl)
theorem step_takeResponse {s : State} (hm : nextMove s = .takeResponse) :
    step s = .next (hostTake (spendMove s)) := step_done (by rw [hm]; rfl)
theorem step_hostWrite {s : State} {a v : Word} (hm : nextMove s = .hostWrite a v) :
    step s = .next (hostWrite a v (spendMove s)) := step_done (by rw [hm]; rfl)
theorem step_hostRead {s : State} {a : Word} (hm : nextMove s = .hostRead a) : step s = .next (spendMove s) :=
  step_done (by rw [hm]; rfl)
theorem step_reset {s : State} (hm : nextMove s = .reset) : step s = .next (applyReset (spendMove s)) :=
  step_done (by rw [hm]; rfl)
theorem step_boot {s : State} (hm : nextMove s = .boot) : step s = .next (platformBoot (spendMove s)) :=
  step_done (by rw [hm]; rfl)

end Sys2Proof.Machine
end

