-- ==== Sys2Proof/Laws/Host.lean ====
section
/-! SUPPORT. What the host's moves can do: the requests that reach the port, and the words the host may touch. -/

namespace Sys2Proof.Machine

/-! ## Requests on the port, and the host's words -/

theorem Request.known_iff {r : Request} : r.known = true ↔ ∃ i, decode .request r.words = .ok i := by
  rw [Request.known]
  split <;> simp [*]

theorem Request.puttable_iff {r : Request} : r.puttable = true ↔
    (∃ i, decode .request r.words = .ok i) ∨ ∃ op, decode .request r.words = .error (.reservedOp op) := by
  rw [Request.puttable]
  split <;> simp_all

theorem Request.puttable_of_known {r : Request} (h : r.known = true) : r.puttable = true :=
  Request.puttable_iff.2 (.inl (Request.known_iff.1 h))

theorem State.putEnabled_iff {s : State} {r : Request} : s.putEnabled r = true ↔
    (∃ i, decode .request r.words = .ok i) ∧ s.reqPort = none ∧
      (r.op = 5 ∨ (s.respPort = none ∧ s.orc.phase = .idle)) := by
  rw [State.putEnabled]
  simp [Request.known_iff, and_assoc]

theorem Phase.noneOpen_iff {p : Phase} : p.noneOpen = true ↔ p = .idle ∨ p = .abandoned := by
  cases p <;> simp [Phase.noneOpen]

theorem State.presentEnabled_iff {s : State} {r : Request} : s.presentEnabled r = true ↔
    r.puttable = true ∧ s.reqPort = none ∧ s.respPort = none ∧ (s.orc.phase = .idle ∨ s.orc.phase = .abandoned) := by
  rw [State.presentEnabled]
  simp [Phase.noneOpen_iff, and_assoc]

/-- All a put can do. -/
theorem hostPut_cases (r : Request) (s : State) :
    hostPut r s = s ∨ (r.puttable = true ∧ s.reqPort = none ∧ hostPut r s = { s with reqPort := some r }) := by
  by_cases h : s.putEnabled r = true
  · have e := State.putEnabled_iff.1 h
    exact .inr ⟨Request.puttable_iff.2 (.inl e.1), e.2.1, by rw [hostPut, if_pos h]⟩
  · exact .inl (by rw [hostPut, if_neg h])

/-- All a request outside the host's table can do. -/
theorem presentRequest_cases (r : Request) (s : State) :
    presentRequest r s = s ∨
      (r.puttable = true ∧ s.reqPort = none ∧ presentRequest r s = { s with reqPort := some r }) := by
  by_cases h : s.presentEnabled r = true
  · have e := State.presentEnabled_iff.1 h
    exact .inr ⟨e.1, e.2.1, by rw [presentRequest, if_pos h]⟩
  · exact .inl (by rw [presentRequest, if_neg h])

theorem wordClear_iff {a base words : Nat} : rangesOverlap a 4 base (4 * words) = false ↔ WordClear a base words := by
  simp [rangesOverlap, WordClear]
  omega

theorem inWindow_eq_false {a : Nat} {w : Option (Nat × Nat)} :
    inWindow a w = false ↔ ∀ base words, w = some (base, words) → WordClear a base words := by
  cases w with
  | none => simp [inWindow]
  | some p => obtain ⟨base, words⟩ := p; simp [inWindow, wordClear_iff]

theorem pendingChecksum_eq_some {q : Option Request} {b c : Nat} : pendingChecksum q = some (b, c) ↔
    ∃ base count more, q = some ⟨1, base :: count :: more⟩ ∧ b = base.toNat ∧ c = count.toNat := by
  rcases q with _ | ⟨op, _ | ⟨base, _ | ⟨count, more⟩⟩⟩ <;> simp [pendingChecksum]
  by_cases h : op = 1 <;> simp [h, eq_comm]

/-- The words the model lets the host touch are those of R158's table. -/
theorem State.hostMayAccess_iff {s : State} {a : Word} : s.hostMayAccess a = true ↔ s.HostsWord a := by
  rw [State.hostMayAccess]
  simp only [Bool.and_eq_true, Bool.not_eq_true', aligned_iff, wordClear_iff, inWindow_eq_false,
    pendingChecksum_eq_some]
  constructor
  · rintro ⟨⟨⟨h1, h2⟩, h3⟩, h4⟩
    exact ⟨h1, h2, h3, fun b c m e => h4 _ _ ⟨b, c, m, e, rfl, rfl⟩⟩
  · rintro ⟨h1, h2, h3, h4⟩
    exact ⟨⟨⟨h1, h2⟩, h3⟩, fun _ _ ⟨b, c, m, e, hb, hc⟩ => by rw [hb, hc]; exact h4 b c m e⟩
end Sys2Proof.Machine
end

