-- ==== Sys2Proof/Laws/PerInstr.lean ====
section
/-! SUPPORT. Per instruction: a well-formed instruction's row of spec/opcode_table.json is met by its words. -/

namespace Sys2Proof.Laws.TableRow

/-- The word the row's bits stand in (30_encoding.md R56, R66), the row's mask and its match. -/
def row : Instr → Word × Word
  | .checksum _ _ _ => (0xF, 0x1)
  | .encode _ _ _ _ _ _ _ _ => (0xF, 0x2)
  | .read _ _ _ => (0xF, 0x3)
  | .write _ _ _ => (0xF, 0x4)
  | .abandon => (0xF, 0x5)
  | .caMemWriteWrapped _ _ _ => (0xFFFFE000, 0xFF000000)
  | .caMemWriteLinear _ _ _ => (0xFFFFE000, 0xFF002000)
  | .caRegWriteWrapped _ _ _ => (0xFFFFE000, 0xFF004000)
  | .caRegWriteLinear _ _ _ => (0xFFFFE000, 0xFF006000)
  | .caMemReadWrapped _ _ _ => (0xFFFFE000, 0xFF008000)
  | .caMemReadLinear _ _ _ => (0xFFFFE000, 0xFF00A000)
  | .caRegReadWrapped _ _ _ => (0xFFFFE000, 0xFF00C000)
  | .caRegReadLinear _ _ _ => (0xFFFFE000, 0xFF00E000)
  | .ctrlRead _ => (0x0000FFFF, 0x00000000)
  | .ctrlWrite _ => (0x0000FFFF, 0x000000FF)

/-- The first word, masked as the row says, is the row's match. -/
def Statement (i : Instr) : Prop :=
  i.wellFormed = true → ∃ w ws, encode i = w :: ws ∧ w &&& (row i).1 = (row i).2

/-- Masking the high part keeps it and clears the low part. -/
theorem mask_high {n m : Nat} (x : BitVec n) (y : BitVec m) :
    (x ++ y) &&& (BitVec.allOnes n ++ 0#m) = x ++ 0#m := by
  apply BitVec.eq_of_getLsbD_eq
  intro i hi
  simp only [BitVec.getLsbD_and, BitVec.getLsbD_append, BitVec.getLsbD_allOnes, BitVec.getLsbD_zero]
  by_cases h : i < m
  · simp [h]
  · simp [h, show i - m < n by omega]

/-- Masking the low part keeps it and clears the high part. -/
theorem mask_low {n m : Nat} (x : BitVec n) (y : BitVec m) :
    (x ++ y) &&& (0#n ++ BitVec.allOnes m) = 0#n ++ y := by
  apply BitVec.eq_of_getLsbD_eq
  intro i hi
  simp only [BitVec.getLsbD_and, BitVec.getLsbD_append, BitVec.getLsbD_allOnes, BitVec.getLsbD_zero]
  by_cases h : i < m <;> simp [h]

/-- The marker and the three flags are what the mask of a CA row keeps of W0. -/
theorem w0_masked (x : BitVec 19) (a : BitVec 13) : (x ++ a : Word) &&& 0xFFFFE000#32 = x ++ 0#13 :=
  mask_high x a

/-- W4's bits 15:0 are what the mask of a control row keeps. -/
theorem w4_masked (e : BitVec 16) (m : Byte) :
    (e ++ 0#8 ++ m : Word) &&& 0x0000FFFF#32 = 0#16 ++ 0#8 ++ m := by
  have h : (e ++ 0#8 ++ m : Word) = e ++ (0#8 ++ m : BitVec 16) := BitVec.append_assoc
  rw [h]
  exact (mask_low e (0#8 ++ m)).trans BitVec.append_assoc.symm

theorem checksum (base count : Word) (seed : Dword) : Statement (.checksum base count seed) :=
  fun _ => ⟨_, _, rfl, by simp [row]⟩

theorem encode (r rs lin : Bool) (a wc wait er ew : Word) : Statement (.encode r rs lin a wc wait er ew) :=
  fun _ => ⟨_, _, rfl, by simp [row]⟩

theorem read (a wc buf : Word) : Statement (.read a wc buf) := fun _ => ⟨_, _, rfl, by simp [row]⟩

theorem write (a wc buf : Word) : Statement (.write a wc buf) := fun _ => ⟨_, _, rfl, by simp [row]⟩

theorem abandon : Statement .abandon := fun _ => ⟨_, _, rfl, by simp [row]⟩

theorem caMemWriteWrapped (a wait wc : Word) : Statement (.caMemWriteWrapped a wait wc) :=
  fun _ => ⟨_, _, rfl, (w0_masked _ _).trans (by simp [row])⟩

theorem caMemWriteLinear (a wait wc : Word) : Statement (.caMemWriteLinear a wait wc) :=
  fun _ => ⟨_, _, rfl, (w0_masked _ _).trans (by simp [row])⟩

theorem caRegWriteWrapped (a wait wc : Word) : Statement (.caRegWriteWrapped a wait wc) :=
  fun _ => ⟨_, _, rfl, (w0_masked _ _).trans (by simp [row])⟩

theorem caRegWriteLinear (a wait wc : Word) : Statement (.caRegWriteLinear a wait wc) :=
  fun _ => ⟨_, _, rfl, (w0_masked _ _).trans (by simp [row])⟩

theorem caMemReadWrapped (a wait wc : Word) : Statement (.caMemReadWrapped a wait wc) :=
  fun _ => ⟨_, _, rfl, (w0_masked _ _).trans (by simp [row])⟩

theorem caMemReadLinear (a wait wc : Word) : Statement (.caMemReadLinear a wait wc) :=
  fun _ => ⟨_, _, rfl, (w0_masked _ _).trans (by simp [row])⟩

theorem caRegReadWrapped (a wait wc : Word) : Statement (.caRegReadWrapped a wait wc) :=
  fun _ => ⟨_, _, rfl, (w0_masked _ _).trans (by simp [row])⟩

theorem caRegReadLinear (a wait wc : Word) : Statement (.caRegReadLinear a wait wc) :=
  fun _ => ⟨_, _, rfl, (w0_masked _ _).trans (by simp [row])⟩

theorem ctrlRead (e : BitVec 16) : Statement (.ctrlRead e) := fun _ => ⟨_, _, rfl, (w4_masked e _).trans rfl⟩

theorem ctrlWrite (e : BitVec 16) : Statement (.ctrlWrite e) := fun _ => ⟨_, _, rfl, (w4_masked e _).trans rfl⟩

end Sys2Proof.Laws.TableRow
end

