-- ==== Sys2Proof/Laws/Steps.lean ====
section
/-! SUPPORT. All a step can do, in one lemma over the relations of the agents; and runs, step by step. -/

namespace Sys2Proof.Machine

/-- All a step can do, move by move: a property of every state each move can leave holds of the next state. -/
theorem step_cases {P : State → Prop} {s t : State} (h : step s = .next t)
    (hold : P (spendMove s))
    (take : nextMove s = .orcTake → ∀ r, s.reqPort = some r → ∀ t, Taken (spendMove s) r t → P t)
    (adv : nextMove s = .orcAdvance → ∀ t, (spendMove s).going → Advanced (spendMove s) t → P t)
    (chan : ∀ c, nextMove s = .channel c → ∀ t, ChannelMoved c (spendMove s) t → P t)
    (su : (nextMove s = .su ∨ nextMove s = .suPop ∨ ∃ v, nextMove s = .suPush v) → ∀ t, SuMoved (spendMove s) t → P t)
    (put : ∀ r, nextMove s = .put r → P (hostPut r (spendMove s)))
    (prs : ∀ r, nextMove s = .present r → P (presentRequest r (spendMove s)))
    (tk : nextMove s = .takeResponse → P (hostTake (spendMove s)))
    (hw : ∀ a v, nextMove s = .hostWrite a v → P (hostWrite a v (spendMove s)))
    (rs : nextMove s = .reset → P (applyReset (spendMove s)))
    (bt : nextMove s = .boot → P (platformBoot (spendMove s))) : P t := by
  have inj : ∀ u, step s = .next u → u = t := fun u e => by rw [h] at e; cases e; rfl
  cases hm : nextMove s with
  | orcTake =>
    rcases orcTake_cases hm h with rfl | ⟨r, hr, ht⟩
    · exact hold
    · exact take hm r hr t ht
  | orcAdvance =>
    have e := inj _ (step_orcAdvance hm)
    rcases orcAdvance_cases (spendMove s) with ⟨_, e'⟩ | ⟨hg, e'⟩
    · rw [e'] at e; rw [← e]; exact hold
    · rw [e] at e'; exact adv hm t hg e'
  | channel c => rw [← inj _ (step_channel hm)]; exact chan c hm _ (channelStep_moved c _)
  | su => obtain ⟨u, e, hu⟩ := su_move_cases (.inl hm); rw [← inj _ e]; exact su (.inl hm) _ hu
  | suPop => obtain ⟨u, e, hu⟩ := su_move_cases (.inr (.inl hm)); rw [← inj _ e]; exact su (.inr (.inl hm)) _ hu
  | suPush v =>
    obtain ⟨u, e, hu⟩ := su_move_cases (.inr (.inr ⟨v, hm⟩)); rw [← inj _ e]; exact su (.inr (.inr ⟨v, hm⟩)) _ hu
  | put r => rw [← inj _ (step_put hm)]; exact put r hm
  | present r => rw [← inj _ (step_present hm)]; exact prs r hm
  | takeResponse => rw [← inj _ (step_takeResponse hm)]; exact tk hm
  | hostWrite a v => rw [← inj _ (step_hostWrite hm)]; exact hw a v hm
  | hostRead a => rw [← inj _ (step_hostRead hm)]; exact hold
  | reset => rw [← inj _ (step_reset hm)]; exact rs hm
  | boot => rw [← inj _ (step_boot hm)]; exact bt hm

/-! ## Runs, of any machine behind the host's interface -/

theorem run_succ {M : Host.Core} {k : Nat} {s t : M.State} (h : M.step s = .next t) :
    M.run (k + 1) s = M.run k t := by rw [Host.Core.run, h]

theorem run_succ_eq_next {M : Host.Core} {k : Nat} {s t : M.State} (h : M.run (k + 1) s = .next t) :
    ∃ u, M.step s = .next u ∧ M.run k u = .next t := by
  rw [Host.Core.run] at h
  cases hs : M.step s with
  | next u => rw [hs] at h; exact ⟨u, rfl, h⟩
  | fault r => rw [hs] at h; cases h
  | refused r => rw [hs] at h; cases h

/-- A run of `k + l` steps is a run of `k` and then one of `l`. -/
theorem run_add {M : Host.Core} {k l : Nat} {s t : M.State} (h : M.run k s = .next t) :
    M.run (k + l) s = M.run l t := by
  induction k generalizing s with
  | zero => rw [Host.Core.run] at h; cases h; rw [Nat.zero_add]
  | succ k ih =>
    obtain ⟨u, hu, h⟩ := run_succ_eq_next h
    rw [show k + 1 + l = k + l + 1 by omega, run_succ hu, ih h]

end Sys2Proof.Machine
end

