-- ==== Sys2Proof/Tests/Slice0.lean ====
section
/-! SUPPORT. Tests, with expected values from 95_test_vectors.md or worked out from the rules, and for each
obligation with hypotheses a witness that they can be met. -/

namespace Sys2Proof.Tests

open Sys2Proof.Machine

/-! ## The configuration CFG-V of 95_test_vectors.md, and small states -/

def cfgV : Cfg where
  entryRead     := 0x7
  entryWrite    := 0x11
  waitCycles    := 6
  regSpace      := false
  linearBurst   := true
  xferSeed      := 0
  txbufBase     := 0x20000000
  txbufWords    := 512
  fifoDepthCmd  := 4
  fifoDepthData := 4
  deviceWords   := 0x20000000
  memAdmitted   := [⟨0x20000000, 0x10000⟩]
  sysByteOrder  := .little
  beatOrder     := .lowFirst
  suInit        := ⟨0, 8, 2⟩

/-- IDLE after reset and boot: both FIFOs empty, the SU ready for a header. -/
def idle : State :=
  { State.reset with
    cfg := cfgV, cmdFifo := [], dataFifo := [], su := ⟨.header [], .unwritten, .unwritten, some ⟨0, 8, 2⟩⟩ }

/-- The state an instruction's meaning answers. -/
def after (i : Instr) (s : State) : Option State :=
  match exec i s with
  | .next t => some t
  | .fault _ => none
  | .refused _ => none

/-- The state one move answers. -/
def moved (m : Move) (s : State) : Option State :=
  match step { s with agenda := [m] } with
  | .next t => some t
  | .fault _ => none
  | .refused _ => none

/-- A READ of one word to 0x20001000, accepted; ORC's turn. -/
def selectedRead : State :=
  { idle with
    agenda := [.orcAdvance], csN := false, owned := some (0x20001000, 1)
    orc := { idle.orc with
      phase := .selected, op := .holds .read, addr := .holds 0x10, wc := .holds 2, n := .holds 1,
      buf := some 0x20001000 } }

/-- A WRITE of one word, accepted; ORC's turn. -/
def selectedWrite : State :=
  { idle with
    agenda := [.orcAdvance], csN := false
    orc := { idle.orc with
      phase := .selected, op := .holds .write, addr := .holds 0x10, wc := .holds 2, n := .holds 1,
      result := .holds 0xCAFEF00DCAFEF00D } }

/-- The channels as step 2 of READ leaves them. -/
def chA5 : Channel :=
  ⟨.holds .memToFifo, .holds 0x20000000, .holds .cmd, .holds 5, .holds false, true, false, false⟩

def chB1 : Channel :=
  ⟨.holds .fifoToMem, .holds 0x20001000, .holds .data, .holds 1, .holds false, true, false, false⟩

def armedRead : State := { selectedRead with chA := chA5, chB := chB1 }.setPhase .armed

def armedWrite : State := { selectedWrite with chA := chA5 }.setPhase .armed

/-- A channel started with work left, and one that has finished. -/
def running (c : Channel) : Channel := { c with started := true, busy := true }

def finished (c : Channel) : Channel := { c with remaining := .holds 0, started := true, busy := false }

def inflightRead : State := { selectedRead with chA := running chA5, chB := running chB1 }.setPhase .inflight

def inflightWrite : State := { selectedWrite with chA := running chA5 }.setPhase .inflight

def inflightDone : State := { selectedRead with chA := finished chA5, chB := finished chB1 }.setPhase .inflight

def completedRead : State := inflightDone.setPhase .completed

def completedWrite : State := { selectedWrite with chA := finished chA5 }.setPhase .completed

/-- chA's turn, one place left in CMD_FIFO; chB's turn, its last word waiting. -/
def chATurn : State := { inflightRead with agenda := [.channel .chA], cmdFifo := [1, 2, 3] }

def chBTurn : State := { inflightRead with agenda := [.channel .chB], dataFifo := [7] }

/-- After an ABANDON. -/
def abandoned : State := { inflightRead with csN := true }.setPhase .abandoned

/-! ## Well-formedness: each check refuses an ill-formed term -/

theorem test_wellFormed_refuses_zero_counts :
    (Instr.caMemWriteWrapped 1 2 0).wellFormed = false ∧ (Instr.caMemWriteLinear 1 2 0).wellFormed = false ∧
    (Instr.caRegWriteWrapped 1 2 0).wellFormed = false ∧ (Instr.caRegWriteLinear 1 2 0).wellFormed = false ∧
    (Instr.caMemReadWrapped 1 2 0).wellFormed = false ∧ (Instr.caMemReadLinear 1 2 0).wellFormed = false ∧
    (Instr.caRegReadWrapped 1 2 0).wellFormed = false ∧ (Instr.caRegReadLinear 1 2 0).wellFormed = false := by
  decide

theorem test_wellFormed_admits_zero_count_requests :
    (Instr.read 0 0 2).wellFormed = true ∧ (Instr.write 0 0 2).wellFormed = true ∧
    (Instr.encode true false true 0 0 6 7 0x11).wellFormed = true ∧
    (Instr.caMemReadLinear 0 0 0xFFFFFFFF).wellFormed = true := by
  decide

/-! ## Decoding: words written out from the encodings of 30_encoding.md -/

theorem test_decode_checksum :
    decode .request [0b0001, 0x20030000, 5, 0x00000020, 0x00000010] =
      .ok (.checksum 0x20030000 5 0x0000001000000020) := by decide

theorem test_decode_encode :
    decode .request [0b0010, 1, 0, 1, 0x1234567D, 2, 6, 0x7, 0x11] =
      .ok (.encode true false true 0x1234567D 2 6 0x7 0x11) := by decide

theorem test_decode_read :
    decode .request [0b0011, 0x10, 2, 0x20001000] = .ok (.read 0x10 2 0x20001000) := by decide

theorem test_decode_write :
    decode .request [0b0100, 0x10, 2, 0x20002000] = .ok (.write 0x10 2 0x20002000) := by decide

theorem test_decode_abandon : decode .request [0b0101] = .ok .abandon := by decide

/-- V-ENC-11: marker, RW AS BT = 000, address 0x00080000. -/
theorem test_decode_caMemWriteWrapped :
    decode .packetCa [0b11111111000000000000000000000001, 0, 6, 1] = .ok (.caMemWriteWrapped 0x00080000 6 2) := by
  decide

/-- V-ENC-04: RW AS BT = 001. -/
theorem test_decode_caMemWriteLinear :
    decode .packetCa [0b11111111000000000010001001000110, 0b10001010110011110000000000000101, 6, 1] =
      .ok (.caMemWriteLinear 0x1234567D 6 2) := by decide

/-- V-ENC-06: RW AS BT = 010. -/
theorem test_decode_caRegWriteWrapped :
    decode .packetCa [0b11111111000000000101111111111111, 0b11111111111111110000000000000111, 0xFFFFFFFF,
      0xFFFFFFFE] = .ok (.caRegWriteWrapped 0xFFFFFFFF 0xFFFFFFFF 0xFFFFFFFF) := by decide

/-- RW AS BT = 011, address 8 (R68, R69). -/
theorem test_decode_caRegWriteLinear :
    decode .packetCa [0b11111111000000000110000000000000, 0b00000000000000010000000000000000, 0, 0] =
      .ok (.caRegWriteLinear 8 0 1) := by decide

/-- V-ENC-07: RW AS BT = 100. -/
theorem test_decode_caMemReadWrapped :
    decode .packetCa [0b11111111000000001000000000000000, 0b00000000000000010000000000000000, 3, 15] =
      .ok (.caMemReadWrapped 8 3 16) := by decide

/-- V-ENC-03: RW AS BT = 101. -/
theorem test_decode_caMemReadLinear :
    decode .packetCa [0b11111111000000001010001001000110, 0b10001010110011110000000000000101, 6, 1] =
      .ok (.caMemReadLinear 0x1234567D 6 2) := by decide

/-- V-ENC-05: RW AS BT = 110. -/
theorem test_decode_caRegReadWrapped :
    decode .packetCa [0b11111111000000001100000000000000, 0b00000000000000000000000000000001, 0, 0] =
      .ok (.caRegReadWrapped 1 0 1) := by decide

/-- V-ENC-10: RW AS BT = 111. -/
theorem test_decode_caRegReadLinear :
    decode .packetCa [0b11111111000000001111111111111111, 0b11111111111111110000000000000000, 7, 3] =
      .ok (.caRegReadLinear 0xFFFFFFF8 7 4) := by decide

/-- W4 of V-ENC-01. -/
theorem test_decode_ctrlRead :
    decode .packetCtrl [0b00000000000001110000000000000000] = .ok (.ctrlRead 7) := by decide

/-- W4 of V-ENC-09. -/
theorem test_decode_ctrlWrite :
    decode .packetCtrl [0b11111111111111110000000011111111] = .ok (.ctrlWrite 0xFFFF) := by decide

/-- Reserved encodings are rejected by name (30_encoding.md R63, R75). -/
theorem test_decode_rejects :
    decode .request [0x0] = .error (.reservedOp 0) ∧ decode .request [0x6, 1] = .error (.reservedOp 6) ∧
    decode .request [0xF] = .error (.reservedOp 15) ∧ decode .request [0x3, 1] = .error .shape ∧
    decode .packetCa [0xFE00A000, 0, 6, 1] = .error .marker ∧
    decode .packetCa [0xFF00A000, 8, 6, 1] = .error .caReserved ∧
    decode .packetCa [0xFF00A000, 0, 6, 0xFFFFFFFF] = .error .count ∧
    decode .packetCtrl [0x00070100] = .error .ctrlReserved ∧ decode .packetCtrl [0x0007000F] = .error .pinDir := by
  decide

/-! ## The rows of the opcode table: decoded, and run as the first instruction after reset -/

/-- Each row with the operand bits it leaves open at 0, and the mnemonic's instruction. -/
theorem test_table_rows :
    decodeTableWord 8 0x1 = some (.checksum 0 0 0) ∧
    decodeTableWord 8 0x2 = some (.encode false false false 0 0 0 0 0) ∧
    decodeTableWord 8 0x3 = some (.read 0 0 0) ∧ decodeTableWord 8 0x4 = some (.write 0 0 0) ∧
    decodeTableWord 8 0x5 = some .abandon ∧
    decodeTableWord 32 0xFF000000 = some (.caMemWriteWrapped 0 0 1) ∧
    decodeTableWord 32 0xFF002000 = some (.caMemWriteLinear 0 0 1) ∧
    decodeTableWord 32 0xFF004000 = some (.caRegWriteWrapped 0 0 1) ∧
    decodeTableWord 32 0xFF006000 = some (.caRegWriteLinear 0 0 1) ∧
    decodeTableWord 32 0xFF008000 = some (.caMemReadWrapped 0 0 1) ∧
    decodeTableWord 32 0xFF00A000 = some (.caMemReadLinear 0 0 1) ∧
    decodeTableWord 32 0xFF00C000 = some (.caRegReadWrapped 0 0 1) ∧
    decodeTableWord 32 0xFF00E000 = some (.caRegReadLinear 0 0 1) ∧
    decodeTableWord 32 0x00000000 = some (.ctrlRead 0) ∧ decodeTableWord 32 0x000000FF = some (.ctrlWrite 0) ∧
    decodeTableWord 8 0x0 = none ∧ decodeTableWord 8 0x6 = none := by decide

/-- A request placed after reset is taken by the very next step. -/
theorem test_withFetchWord_request :
    (match step (State.reset.withFetchWord 8 0x3) with
      | .next t => some (t.reqPort, t.respPort)
      | .fault _ => none
      | .refused _ => none) = some (none, some ⟨0x01, .reason 0x01⟩) := by decide

/-- A header and a control word placed after reset are taken by the very next step. -/
theorem test_withFetchWord_packet :
    (match step (State.reset.withFetchWord 32 0xFF00A000) with
      | .next t => some t.su.phase
      | .fault _ => none
      | .refused _ => none) = some (.command ⟨true, false, true, 0, 0, 1⟩) ∧
    (match step (State.reset.withFetchWord 32 0x001100FF) with
      | .next t => some (t.su.jump, t.su.pinDir)
      | .fault _ => none
      | .refused _ => none) = some (.holds 0x11, .holds 0xFF) := by decide

/-! ## Checksums and packets -/

/-- V-CK-01 to V-CK-07, V-CK-10 to V-CK-13. -/
theorem test_fletcher_short :
    fletcher64 [] 0 = 0 ∧ fletcher64 [] 0x0000000100000002 = 0x0000000100000002 ∧
    fletcher64 [] 0xFFFFFFFFFFFFFFFF = 0 ∧ fletcher64 [] 0xFFFFFFFF00000005 = 5 ∧
    fletcher64 [] 0x00000007FFFFFFFF = 0x0000000700000000 ∧
    fletcher64 [0x12345678] 0 = 0x1234567812345678 ∧ fletcher64 [1, 2, 3] 0 = 0x0000000A00000006 ∧
    fletcher64 [0xFFFFFFFF] 0 = 0 ∧ fletcher64 [0xFFFFFFFF, 1] 0 = 0 ∧
    fletcher64 [0x80000000, 0x80000000] 0 = 0x8000000000000000 ∧
    fletcher64 [5] 0x0000001000000020 = 0x0000003500000025 := by decide

/-- V-CK-16 to V-CK-22. -/
theorem test_fletcher_wraps :
    fletcher64 [0xFFFFFFFF, 0xFFFFFFFF, 0xFFFFFFFF] 0 = 0xFFFFFFFAFFFFFFFD ∧ fletcher64 [0xFFFFFFFE] 1 = 0 ∧
    fletcher64 [0] 0xFFFFFFFE00000000 = 0xFFFFFFFE00000000 ∧ fletcher64 [1, 1, 1, 1] 0 = 0x0000000A00000004 ∧
    fletcher64 [0xDEADBEEF] 0 = 0xDEADBEEFDEADBEEF ∧
    fletcher64 [0xDEADBEEF, 0xDEADBEEF] 0 = 0x9C093CCDBD5B7DDE ∧
    fletcher64 [1] (fletcher64 [0xFFFFFFFF] 0) = 0x0000000100000001 := by decide

/-- V-ENC-01, V-ENC-06, V-ENC-08, V-ENC-10 (W0 to W4). -/
theorem test_buildCommand_vectors :
    (buildCommand true false true 0 700 6 0x7 0x11).toList =
      [0xFF00A000, 0x00000000, 0x00000006, 0x000002BB, 0x00070000] ∧
    (buildCommand false true false 0xFFFFFFFF 0xFFFFFFFF 0xFFFFFFFF 0x7 0x11).toList =
      [0xFF005FFF, 0xFFFF0007, 0xFFFFFFFF, 0xFFFFFFFE, 0x001100FF] ∧
    (buildCommand true false true 7 1 6 0x00010003 0x11).toList =
      [0xFF00A000, 0x00000007, 0x00000006, 0x00000000, 0x00030000] ∧
    (buildCommand true true true 0xFFFFFFF8 4 7 0x7 0x11).toList =
      [0xFF00FFFF, 0xFFFF0000, 0x00000007, 0x00000003, 0x00070000] := by decide

/-- V-DEC-01 to V-DEC-07. -/
theorem test_decodeCommand_verdicts :
    decodeCommand ⟨0xFE00A000, 0, 6, 0x2BB, 0x00070000⟩ = .error .marker ∧
    decodeCommand ⟨0xFF00A000, 8, 6, 0x2BB, 0x00070000⟩ = .error .caReserved ∧
    decodeCommand ⟨0xFF00A000, 0, 6, 0x2BB, 0x00070100⟩ = .error .ctrlReserved ∧
    decodeCommand ⟨0xFF00A000, 0, 6, 0x2BB, 0x0007000F⟩ = .error .pinDir ∧
    decodeCommand ⟨0xFF00A000, 0, 6, 0x2BB, 0x000700FF⟩ = .error .directionMismatch ∧
    decodeCommand ⟨0xFF00A000, 0, 6, 0xFFFFFFFF, 0x00070000⟩ = .error .count ∧
    decodeCommand ⟨0xFE00A000, 0, 6, 0xFFFFFFFF, 0x00070000⟩ = .error .marker := by decide

/-! ## Requests, one step each -/

/-- P2: the checksum of V-ENC-03's words. -/
theorem test_checksum_packet :
    (after (.checksum 0x20030000 5 0)
      (idle.pokeWords 0x20030000 [0xFF00A246, 0x8ACF0005, 6, 1, 0x00070000])).map (·.respPort) =
      some (some ⟨0x00, .checksum 0x26462B8689D6A252⟩) := by decide

/-- P2's misaligned base. -/
theorem test_checksum_misaligned :
    (after (.checksum 0x20030002 5 0) idle).map (·.respPort) = some (some ⟨0x01, .reason 0x02⟩) := by decide

/-- P2's ENCODE. -/
theorem test_encode_packet :
    (after (.encode true false true 0x1234567D 2 6 0x7 0x11) idle).map (·.respPort) =
      some (some ⟨0x00, .words ⟨0xFF00A246, 0x8ACF0005, 0x00000006, 0x00000001, 0x00070000⟩⟩) := by decide

/-- V-ENC-12. -/
theorem test_encode_zero_count :
    (after (.encode true false true 0 0 6 0x7 0x11) idle).map (·.respPort) = some (some ⟨0x01, .reason 0x01⟩) := by
  decide

/-- V-ORC-01, step 1: the packet staged, the device selected. -/
theorem test_read_accepted :
    (after (.read 0x1234567D 2 0x20001000) idle).map
      (fun t => (t.wordsAt 0x20000000 5, t.csN, t.orc.phase, t.orc.buf, t.orc.n)) =
      some ([0xFF00A246, 0x8ACF0005, 0x00000006, 0x00000001, 0x00070000], false, .selected, some 0x20001000,
        .holds 1) := by decide

/-- V-ORC-06: F_OVERLAP, and neither the device selected nor a response. -/
theorem test_read_overlap :
    (after (.read 0 2 0x20000010) idle).map (fun t => (t.orc.faults, t.csN, t.respPort, t.orc.phase)) =
      some (⟨false, false, true, false⟩, true, none, .idle) := by decide

/-- V-ORC-02, step 1: the header and the payload staged, the checksum latched. -/
theorem test_write_accepted :
    (after (.write 0x1234567D 2 0x20002000) (idle.pokeWord 0x20002000 0xCAFEF00D)).map
      (fun t => (t.wordsAt 0x20000000 6, t.orc.result, t.csN)) =
      some ([0xFF002246, 0x8ACF0005, 0x00000006, 0x00000001, 0x001100FF, 0xCAFEF00D], .holds 0xCAFEF00DCAFEF00D,
        false) := by decide

/-- V-ORC-04. -/
theorem test_write_too_long :
    (after (.write 0 1016 0x20002000) idle).map (·.respPort) = some (some ⟨0x01, .reason 0x03⟩) := by decide

/-- V-ORC-10. -/
theorem test_abandon_inflight :
    (after .abandon inflightRead).map (fun t => (t.respPort, t.csN, t.orc.phase, t.chA, t.chB)) =
      some (some ⟨0x00, .empty⟩, true, .abandoned, running chA5, running chB1) := by decide

/-- V-ORC-09, and V-ORC-13: waiting in SELECTED. -/
theorem test_abandon_elsewhere :
    (after .abandon idle).map (·.respPort) = some (some ⟨0x01, .reason 0x04⟩) ∧
    (after .abandon selectedRead).map (·.respPort) = some none := by decide

/-! ## Commands, one step each -/

/-- R144, R145: an ideal read's data phase follows W4; an odd count leaves the SU free. -/
theorem test_ctrlRead :
    (after (.ctrlRead 7) (takeCa ⟨true, false, true, 0x10, 6, 4⟩ idle)).map (·.su) =
      some ⟨.pushing 0x10 2, .holds 7, .holds 0x00, some ⟨0, 8, 2⟩⟩ ∧
    (after (.ctrlRead 7) (takeCa ⟨true, false, true, 0x10, 6, 3⟩ idle)).map (·.su.phase) = some .free := by decide

/-- R144, R145: a write's, and a mask that does not agree with RW. -/
theorem test_ctrlWrite :
    (after (.ctrlWrite 0x11) (takeCa ⟨false, false, true, 0x10, 6, 4⟩ idle)).map (·.su) =
      some ⟨.popping 0x10 2, .holds 0x11, .holds 0xFF, some ⟨0, 8, 2⟩⟩ ∧
    (after (.ctrlWrite 0x11) (takeCa ⟨true, false, true, 0x10, 6, 4⟩ idle)).map (·.su.phase) = some .free := by decide

/-- The header's fields reach the SU word by word: V-ENC-03's W3 completes it. -/
theorem test_header_popped :
    (moved .su { idle with
      su := { idle.su with phase := .header [0xFF00A246, 0x8ACF0005, 6] }, cmdFifo := [1, 0x00070000] }).map
        (fun t => (t.su.phase, t.cmdFifo)) =
      some (.command ⟨true, false, true, 0x1234567D, 6, 2⟩, [0x00070000]) := by decide

/-- R157: a payload word's beats, low first. -/
theorem test_beats_stored :
    (moved .su { idle with su := { idle.su with phase := .popping 0x10 1 }, cmdFifo := [0xCAFEF00D] }).map
        (fun t => (t.dev, t.su.phase)) =
      some ([(0x10, 0xF00D), (0x11, 0xCAFE)], .header []) := by decide

/-! ## Channels -/

/-- V-CH-01, V-CH-06, V-CH-05. -/
theorem test_configure :
    (configure .chA .memToFifo 0x20000000 .cmd 5 false idle).chA = chA5 ∧
    (configure .chA .memToFifo 0x20000000 .cmd 2 true idle).chA =
      ⟨.holds .memToFifo, .holds 0x20000000, .holds .cmd, .holds 2, .holds true, true, true, true⟩ ∧
    configure .chA .memToFifo 0 .cmd 1 false inflightRead = inflightRead.recordFault .channelBusy := by decide

/-- V-CH-03's first step, and V-CH-07. -/
theorem test_chA_steps :
    (moved (.channel .chA) (inflightRead.pokeWord 0x20000000 0xFF00A246)).map (fun t => (t.cmdFifo, t.chA)) =
      some ([0xFF00A246], { running chA5 with mem := .holds 0x20000004, remaining := .holds 4 }) ∧
    (moved (.channel .chA) { inflightRead with cmdFifo := [1, 2, 3, 4] }).map (·.chA) = some (running chA5) := by
  decide

/-- chB's last word. -/
theorem test_chB_steps :
    (moved (.channel .chB) { inflightRead with dataFifo := [0xCAFEF00D] }).map
        (fun t => (t.wordAt 0x20001000, t.chB.finish, t.chB.mem)) =
      some (0xCAFEF00D, true, .holds 0x20001004) := by decide

/-- V-CH-04 and P5: a READ of one beat, whose chB finishes at start. -/
theorem test_zero_count_channel :
    (startChannels { idle with chB := { chB1 with remaining := .holds 0 } } [.chB]) =
      .ok { idle with chB := { chB1 with remaining := .holds 0, started := true } } := by decide

/-! ## Memory -/

/-- 20_memory.md R38: the four bytes in each order. -/
theorem test_byte_order :
    bytesOfWord .little 0x11223344 = [0x44, 0x33, 0x22, 0x11] ∧
    bytesOfWord .big 0x11223344 = [0x11, 0x22, 0x33, 0x44] := by decide

/-- The top word of the address space, and one past it. -/
theorem test_admits_edges :
    admits { cfgV with memAdmitted := [⟨0xFFFFFFF0, 8⟩] } 0xFFFFFFFC = true ∧
    admits { cfgV with memAdmitted := [⟨0xFFFFFFF0, 8⟩] } 0x100000000 = false := by decide

/-! ## Witnesses: a state and operands that meet the hypotheses of each obligation that has some -/

theorem ready_idle : idle.Ready := ⟨⟨rfl, rfl, rfl, rfl⟩, rfl, rfl⟩

theorem going_selectedRead : selectedRead.going := ⟨rfl, rfl, rfl, rfl⟩

theorem cfgV_wf : cfgV.Wf where
  base_aligned := by decide
  header_fits := by decide
  below_top := by decide
  depth_cmd := by decide
  depth_data := by decide
  txbuf_admitted := fun i hi => by
    have h : i < 512 := hi
    have e : cfgV.txbufBase.toNat = 0x20000000 := rfl
    rw [admits, e]
    simp [cfgV]
    omega

/-- `InvariantStatesStepToInvariantStates`: IDLE. -/
theorem witness_Inv_idle : idle.Inv where
  cfg_wf := cfgV_wf
  mem_wf := by decide
  dev_sorted := by decide
  cmd_within := by decide
  data_within := by decide
  chA_fits := ⟨by decide, by decide, fun h => (by cases h)⟩
  chB_fits := ⟨by decide, by decide, fun h => (by cases h)⟩
  cs_frames := by decide
  idle_no_buffer := fun _ => rfl
  latched := fun h => absurd rfl h
  armed_configured := fun h => by cases h
  port_puttable := fun _ h => by cases h
  open_no_response := fun _ => rfl
  never_unwritten := rfl
  never_misaligned := rfl

/-- `InvariantStatesStepToInvariantStates` and `FinishFlagsStay`: a READ in flight whose channels have finished. -/
theorem witness_Inv_inflight : inflightDone.Inv where
  cfg_wf := cfgV_wf
  mem_wf := by decide
  dev_sorted := by decide
  cmd_within := by decide
  data_within := by decide
  chA_fits := ⟨by decide, by decide, fun _ => ⟨_, _, _, rfl, rfl, by decide, rfl, rfl, rfl, fun h => (by cases h)⟩⟩
  chB_fits := ⟨by decide, by decide, fun _ => ⟨_, _, _, rfl, rfl, by decide, rfl, rfl, rfl, fun h => (by cases h)⟩⟩
  cs_frames := by decide
  idle_no_buffer := fun h => by cases h
  latched := fun _ => ⟨⟨_, rfl⟩, ⟨_, rfl⟩, ⟨2, rfl, by decide, rfl⟩, fun _ => ⟨_, rfl, by decide⟩, fun h => (by cases h)⟩
  armed_configured := fun h => by cases h
  port_puttable := fun _ h => by cases h
  open_no_response := fun _ => rfl
  never_unwritten := rfl
  never_misaligned := rfl

/-- `FinishFlagsStay`: the invariant state above with a move to make. -/
theorem witness_FinishFlagsStay :
    (inflightDone.channel .chA).finish = true ∧ (inflightDone.channel .chB).finish = true ∧
    (moved .orcAdvance inflightDone).map (·.orc.phase) = some .completed ∧
    ¬ (inflightDone.orc.phase = .selected) := by decide

/-- `ResetMoveFromEveryState`: the bytes on both sides of TXBUF's edges. -/
theorem witness_ResetMove :
    ({ inflightRead with agenda := [.reset] } : State).agenda = .reset :: [] ∧
    inTxbuf cfgV 0x1FFFFFFF = false ∧ inTxbuf cfgV 0x20000000 = true ∧ inTxbuf cfgV 0x200007FF = true ∧
    inTxbuf cfgV 0x20000800 = false := by decide

/-- `ConfigurationIsNeverWritten`, `PhaseTransitionsAreTheTable`, `ChipSelectIsFramed`: steps that change the phase
and chip select, one for each row of R138. -/
theorem witness_phases :
    ((moved .orcTake { idle with reqPort := some ⟨3, [0x10, 2, 0x20001000]⟩ }).map fun t => (t.orc.phase, t.csN)) =
      some (.selected, false) ∧
    ((moved .orcAdvance selectedRead).map fun t => (t.orc.phase, t.chA, t.chB)) = some (.armed, chA5, chB1) ∧
    ((moved .orcAdvance armedRead).map fun t => (t.orc.phase, t.chA, t.chB)) =
      some (.inflight, running chA5, running chB1) ∧
    ((moved .orcAdvance inflightDone).map fun t => (t.orc.phase, t.csN)) = some (.completed, false) ∧
    ((moved .orcTake { inflightRead with reqPort := some ⟨5, []⟩ }).map fun t => (t.orc.phase, t.csN)) =
      some (.abandoned, true) ∧
    ((moved .orcAdvance completedWrite).map fun t => (t.orc.phase, t.csN)) = some (.idle, true) ∧
    ((moved .reset abandoned).map fun t => (t.orc.phase, t.csN)) = some (.idle, true) := by decide

/-- `OnlyMalformedRequestsStopTheMachine`: a READ record with one operand. -/
theorem witness_OnlyMalformed :
    (match step { idle with agenda := [.orcTake], reqPort := some ⟨3, [1]⟩ } with
      | .next _ => none
      | .fault _ => none
      | .refused r => some r) = some (.malformedRequest 3) ∧
    (Request.mk 3 [1]).puttable = false := by decide

/-- `FletcherLaws`, the splitting clause: raw sums one below 0xFFFFFFFF. -/
theorem witness_FletcherLaws :
    (finalSums [0xFFFFFFFE] 0).1 ≠ 0xFFFFFFFF ∧ (finalSums [0xFFFFFFFE] 0).2 ≠ 0xFFFFFFFF := by decide

/-- `ChecksumCompletes`: five words, none, and the last word admitted. -/
theorem witness_ChecksumCompletes :
    idle.Ready ∧ (0x20030000 : Word).toNat % 4 = 0 ∧ AdmittedWords idle.cfg (0x20030000 : Word).toNat 5 ∧
    AdmittedWords idle.cfg (0xFFFFFFFC : Word).toNat 0 ∧ AdmittedWords idle.cfg (0x2003FFFC : Word).toNat 1 :=
  ⟨ready_idle, by decide, by unfold AdmittedWords; decide, by unfold AdmittedWords; decide,
    by unfold AdmittedWords; decide⟩

/-- `PacketLayout`, `EncoderRoundTrip`, `DecoderRejectsExactlyNonOutputs`, `EncodeCompletes`: the least and the
greatest word count. -/
theorem witness_wordCount : (1 : Word) ≠ 0 ∧ (0xFFFFFFFF : Word) ≠ 0 ∧ idle.Ready :=
  ⟨by decide, by decide, ready_idle⟩

/-- `DecodeOfEncode`, `EncodeOfDecode`: an instruction of each format. -/
theorem witness_DecodeOfEncode :
    (Instr.caRegWriteLinear 0xFFFFFFFF 0 0xFFFFFFFF).wellFormed = true ∧
    decode .packetCa (encode (.caRegWriteLinear 0xFFFFFFFF 0 0xFFFFFFFF)) =
      .ok (.caRegWriteLinear 0xFFFFFFFF 0 0xFFFFFFFF) ∧
    decode .packetCtrl (encode (.ctrlWrite 0xFFFF)) = .ok (.ctrlWrite 0xFFFF) ∧
    decode .request (encode (.checksum 4 1 0xFFFFFFFF00000000)) = .ok (.checksum 4 1 0xFFFFFFFF00000000) := by decide

/-- `StepRunsTheRequestOnThePort`. -/
theorem witness_StepRunsTheRequest :
    let s : State := { idle with agenda := [.orcTake], reqPort := some ⟨5, []⟩ }
    s.agenda = .orcTake :: [] ∧ s.reqPort = some ⟨5, []⟩ ∧ decode .request (Request.mk 5 []).words = .ok .abandon := by
  decide

/-- `StepRunsTheCommandTheSuPops`: a W3 and a W4. -/
theorem witness_StepRunsTheCommand :
    let s := State.setSuPhase (.header [0xFF00A246, 0x8ACF0005, 6]) { idle with agenda := [.su], cmdFifo := [1] }
    let t := takeCa ⟨true, false, true, 0x1234567D, 6, 2⟩ { idle with agenda := [.su], cmdFifo := [0x00070000] }
    s.agenda = .su :: [] ∧ s.cmdFifo = 1 :: [] ∧ s.su.phase = .header [0xFF00A246, 0x8ACF0005, 6] ∧
    decode .packetCa [0xFF00A246, 0x8ACF0005, 6, 1] = .ok (.caMemReadLinear 0x1234567D 6 2) ∧
    t.agenda = .su :: [] ∧ t.cmdFifo = 0x00070000 :: [] ∧
    t.su.phase = .command ⟨true, false, true, 0x1234567D, 6, 2⟩ ∧
    decode .packetCtrl [0x00070000] = .ok (.ctrlRead 7) := by decide

/-- `ReadIsAccepted`: a buffer that ends where TXBUF begins, one that begins where the header ends, and an empty one
inside it. -/
theorem witness_ReadIsAccepted :
    idle.Ready ∧ (2 : Word) ≠ 0 ∧ (0x1FFFFFFC : Word).toNat % 4 = 0 ∧ ClearOfTxbuf idle.cfg 0x1FFFFFFC 1 5 ∧
    ClearOfTxbuf idle.cfg 0x20000014 1 5 ∧ ClearOfTxbuf idle.cfg 0x20000000 0 5 ∧
    AdmittedWords idle.cfg idle.cfg.txbufBase.toNat 5 :=
  ⟨ready_idle, by decide, by decide, by unfold ClearOfTxbuf; decide, by unfold ClearOfTxbuf; decide,
    by unfold ClearOfTxbuf; decide, by unfold AdmittedWords; decide⟩

/-- `WriteIsAccepted`: one payload word. -/
theorem witness_WriteIsAccepted :
    idle.Ready ∧ (2 : Word) ≠ 0 ∧ (0x20000018 : Word).toNat % 4 = 0 ∧ 5 + (2 : Word).toNat / 2 ≤ idle.cfg.txbufWords ∧
    ClearOfTxbuf idle.cfg 0x20000018 1 6 ∧ AdmittedWords idle.cfg (0x20000018 : Word).toNat 1 ∧
    AdmittedWords idle.cfg idle.cfg.txbufBase.toNat 6 :=
  ⟨ready_idle, by decide, by decide, by decide, by unfold ClearOfTxbuf; decide, by unfold AdmittedWords; decide,
    by unfold AdmittedWords; decide⟩

/-- `WriteIsAccepted` at the longest payload, V-ORC-08: 507 words fill TXBUF. -/
theorem witness_WriteIsAccepted_longest :
    (1014 : Word) ≠ 0 ∧ 5 + (1014 : Word).toNat / 2 ≤ idle.cfg.txbufWords ∧
    AdmittedWords idle.cfg idle.cfg.txbufBase.toNat (5 + (1014 : Word).toNat / 2) :=
  ⟨by decide, by decide, fun i hi => cfgV_wf.txbuf_admitted i hi⟩

/-- `InvalidRequestsAreAnswered`: each clause at a boundary. -/
theorem witness_InvalidRequests :
    idle.Ready ∧ (0x20001001 : Word).toNat % 4 ≠ 0 ∧ (0x20001003 : Word).toNat % 4 ≠ 0 ∧
    (0x20002000 : Word).toNat % 4 = 0 ∧ idle.cfg.txbufWords < 5 + (1016 : Word).toNat / 2 :=
  ⟨ready_idle, by decide, by decide, by decide, by decide⟩

/-- `OverlappingBuffersAreMarked`: the last header word, and the last payload word of a WRITE. -/
theorem witness_Overlap :
    idle.Ready ∧ ¬ ClearOfTxbuf idle.cfg 0x20000010 1 5 ∧ 5 + (2 : Word).toNat / 2 ≤ idle.cfg.txbufWords ∧
    ¬ ClearOfTxbuf idle.cfg 0x20000014 1 6 :=
  ⟨ready_idle, by unfold ClearOfTxbuf; decide, by decide, by unfold ClearOfTxbuf; decide⟩

/-- `RequestsAreHeldElsewhere`: another phase, a response waiting, a mark. -/
theorem witness_RequestsAreHeld :
    ¬ selectedRead.Ready ∧ ¬ ({ idle with respPort := some ⟨0, .empty⟩ } : State).Ready ∧
    ¬ ({ idle with refusedOp := some 6 } : State).Ready ∧ ¬ (selectedRead.going ∧ selectedRead.orc.phase = .inflight) :=
  ⟨fun h => (by cases h.2.1), fun h => (by cases h.2.2), fun h => (by cases h.1.2.2.2), fun h => (by cases h.2)⟩

/-- `UnadmittedRequestsAreStuck`: each clause; TXBUF unadmitted for READ. -/
theorem witness_Unadmitted :
    idle.Ready ∧ ¬ AdmittedWords idle.cfg (0x2003FFFC : Word).toNat 2 ∧
    ¬ AdmittedWords { cfgV with memAdmitted := [] } (0x20000000 : Word).toNat 5 ∧
    ({ idle with cfg := { cfgV with memAdmitted := [] } } : State).Ready ∧
    ClearOfTxbuf idle.cfg 0x1FFFFFFC 1 6 ∧ ¬ AdmittedWords idle.cfg (0x1FFFFFFC : Word).toNat 1 :=
  ⟨ready_idle, by unfold AdmittedWords; decide, by unfold AdmittedWords; decide, ⟨⟨rfl, rfl, rfl, rfl⟩, rfl, rfl⟩,
    by unfold ClearOfTxbuf; decide, by unfold AdmittedWords; decide⟩

/-- `UnadmittedRequestsAreStuck`, a WRITE whose source is admitted and whose sixth TXBUF word is not. -/
theorem witness_UnadmittedTxbuf :
    let c : Cfg := { cfgV with memAdmitted := [⟨0x20000000, 5⟩, ⟨0x20002000, 1⟩] }
    ({ idle with cfg := c } : State).Ready ∧ c.txbufBase.toNat % 4 = 0 ∧ 5 + (2 : Word).toNat / 2 ≤ c.txbufWords ∧
    (0x20002000 : Word).toNat % 4 = 0 ∧ ClearOfTxbuf c 0x20002000 1 6 ∧
    AdmittedWords c (0x20002000 : Word).toNat 1 ∧ ¬ AdmittedWords c c.txbufBase.toNat 6 :=
  ⟨⟨⟨rfl, rfl, rfl, rfl⟩, rfl, rfl⟩, by decide, by decide, by decide, by unfold ClearOfTxbuf; decide,
    by unfold AdmittedWords; decide, by unfold AdmittedWords; decide⟩

/-- `AbandonReleasesTheDevice`. -/
theorem witness_Abandon : inflightRead.going ∧ inflightRead.orc.phase = .inflight := ⟨⟨rfl, rfl, rfl, rfl⟩, rfl⟩

/-- `ReservedOpsAreRefusedByMark`: the reserved ops at both ends. -/
theorem witness_ReservedOps :
    ({ idle with agenda := [.orcTake], reqPort := some ⟨6, []⟩ } : State).Ready ∧ 6 ≤ (6 : BitVec 4).toNat ∧
    ({ idle with agenda := [.orcTake], reqPort := some ⟨15, [1]⟩ } : State).Ready ∧
    ({ idle with agenda := [.orcTake], reqPort := some ⟨0, []⟩ } : State).Ready :=
  ⟨⟨⟨rfl, rfl, rfl, rfl⟩, rfl, rfl⟩, by decide, ⟨⟨rfl, rfl, rfl, rfl⟩, rfl, rfl⟩, ⟨⟨rfl, rfl, rfl, rfl⟩, rfl, rfl⟩⟩

/-- `StepTwoConfigures`, both directions. -/
theorem witness_StepTwo :
    selectedRead.agenda = .orcAdvance :: [] ∧ selectedRead.going ∧ selectedRead.orc.phase = .selected ∧ selectedRead.orc.n = .holds 1 ∧
    selectedRead.chA.busy = false ∧ selectedRead.orc.op = .holds .read ∧ selectedRead.orc.buf = some 0x20001000 ∧
    selectedRead.chB.busy = false ∧ selectedWrite.going ∧ selectedWrite.orc.op = .holds .write :=
  ⟨rfl, going_selectedRead, rfl, rfl, rfl, rfl, rfl, rfl, ⟨rfl, rfl, rfl, rfl⟩, rfl⟩

/-- `BusyChannelStopsStepTwo`: P5. -/
theorem witness_BusyChannel :
    let s : State := { selectedRead with chA := running chA5 }
    s.agenda = .orcAdvance :: [] ∧ s.going ∧ s.orc.phase = .selected ∧ s.orc.n = .holds 1 ∧
    s.orc.op = .holds .read ∧ s.orc.buf = some 0x20001000 ∧ s.chA.busy = true :=
  ⟨rfl, ⟨rfl, rfl, rfl, rfl⟩, rfl, rfl, rfl, rfl, rfl⟩

/-- `StepThreeStarts`, both directions. -/
theorem witness_StepThree :
    armedRead.agenda = .orcAdvance :: [] ∧ armedRead.going ∧ armedRead.orc.phase = .armed ∧ armedRead.chA.configured = true ∧
    armedRead.chA.remaining = .holds 5 ∧ armedRead.orc.op = .holds .read ∧ armedRead.chB.configured = true ∧
    armedRead.chB.remaining = .holds 1 ∧ armedWrite.going ∧ armedWrite.orc.phase = .armed ∧
    armedWrite.orc.op = .holds .write ∧ armedWrite.chA.configured = true ∧ armedWrite.chA.remaining = .holds 5 :=
  ⟨rfl, ⟨rfl, rfl, rfl, rfl⟩, rfl, rfl, rfl, rfl, rfl, rfl, ⟨rfl, rfl, rfl, rfl⟩, rfl, rfl, rfl, rfl⟩

/-- `StepFourWaitsForTheWatchedChannel`: finished, and not. -/
theorem witness_StepFour :
    inflightDone.agenda = .orcAdvance :: [] ∧ inflightDone.going ∧ inflightDone.orc.phase = .inflight ∧ inflightDone.orc.op = .holds .read ∧
    (inflightDone.chB.started = true ∧ inflightDone.chB.busy = false) ∧
    ¬ (inflightRead.chB.started = true ∧ inflightRead.chB.busy = false) ∧ inflightWrite.going ∧
    inflightWrite.orc.op = .holds .write ∧ ¬ (inflightWrite.chA.started = true ∧ inflightWrite.chA.busy = false) :=
  ⟨rfl, ⟨rfl, rfl, rfl, rfl⟩, rfl, rfl, by decide, by decide, ⟨rfl, rfl, rfl, rfl⟩, rfl, by decide⟩

/-- `StepFiveResponds`, both directions. -/
theorem witness_StepFive :
    completedRead.agenda = .orcAdvance :: [] ∧ completedRead.going ∧ completedRead.orc.phase = .completed ∧ completedRead.orc.op = .holds .read ∧
    completedRead.orc.n = .holds 1 ∧ completedRead.orc.buf = some 0x20001000 ∧
    AdmittedWords completedRead.cfg (0x20001000 : Word).toNat 1 ∧ completedWrite.going ∧
    completedWrite.orc.phase = .completed ∧ completedWrite.orc.op = .holds .write ∧
    completedWrite.orc.result = .holds 0xCAFEF00DCAFEF00D :=
  ⟨rfl, ⟨rfl, rfl, rfl, rfl⟩, rfl, rfl, rfl, rfl, by unfold AdmittedWords; decide, ⟨rfl, rfl, rfl, rfl⟩, rfl, rfl, rfl⟩

/-- `AbandonedIsTerminalUntilReset`: V-ORC-11, with a request waiting. -/
theorem witness_Abandoned :
    abandoned.orc.phase = .abandoned ∧
    (moved .orcTake { abandoned with reqPort := some ⟨1, [0x20001000, 0, 0, 0]⟩ }).map (·.reqPort) =
      some (some ⟨1, [0x20001000, 0, 0, 0]⟩) := by decide

/-- `MarksAreStickyAndHaltTheOrchestrator`: each kind of mark recorded, and a step. -/
theorem witness_Marks :
    (State.recordFault .channelBusy idle).orc.faults.has .channelBusy = true ∧
    ({ idle with refusedOp := some 6 } : State).refusedOp = some 6 ∧
    ¬ (State.recordFault .unwritten idle).going ∧ (moved .orcTake (State.recordFault .overlap idle)).isSome = true :=
  ⟨rfl, rfl, fun h => (by cases h.1), by decide⟩

/-- The faults one move leaves. -/
def faultsAfter (m : Move) (s : State) : Option FaultSet := (moved m s).map (·.orc.faults)

/-- `UnwrittenReadsAreMarked`, the latches: each case of steps 2 to 5. -/
theorem witness_UnwrittenLatches :
    let only := some (⟨true, false, false, false⟩ : FaultSet)
    let without := fun (s : State) (f : Orc → Orc) => ({ s with orc := f s.orc } : State)
    selectedRead.going ∧ selectedRead.agenda = .orcAdvance :: [] ∧
    faultsAfter .orcAdvance (without inflightRead fun o => { o with op := .unwritten }) = only ∧
    faultsAfter .orcAdvance (without selectedWrite fun o => { o with n := .unwritten }) = only ∧
    faultsAfter .orcAdvance (without selectedRead fun o => { o with buf := none }) = only ∧
    faultsAfter .orcAdvance (selectedRead.setPhase .armed) = only ∧
    faultsAfter .orcAdvance { armedRead with chB := Channel.reset } = only ∧
    faultsAfter .orcAdvance { armedRead with chB := { chB1 with remaining := .unwritten } } = only ∧
    faultsAfter .orcAdvance (without completedRead fun o => { o with n := .unwritten }) = only ∧
    faultsAfter .orcAdvance (without completedRead fun o => { o with buf := none }) = only ∧
    faultsAfter .orcAdvance (without completedWrite fun o => { o with result := .unwritten }) = only :=
  ⟨going_selectedRead, rfl, by decide, by decide, by decide, by decide, by decide, by decide, by decide, by decide,
    by decide⟩

/-- `UnwrittenReadsAreMarked`: the latch `op` where the phase waits for a channel, and a busy chA deciding before `n`
and `buf` are read, for both directions. -/
theorem witness_UnwrittenAfterBusy :
    let only := some (⟨false, false, false, true⟩ : FaultSet)
    let busy := fun (s : State) => ({ s with
      chA := running chA5, orc := { s.orc with n := .unwritten, buf := none } } : State)
    faultsAfter .orcAdvance ({ selectedRead with orc := { selectedRead.orc with op := .unwritten } } : State) =
      some ⟨true, false, false, false⟩ ∧
    faultsAfter .orcAdvance (busy selectedRead) = only ∧ faultsAfter .orcAdvance (busy selectedWrite) = only := by decide

/-- `UnwrittenReadsAreMarked`, the channels and the sums. -/
theorem witness_UnwrittenCells :
    let only := some (⟨true, false, false, false⟩ : FaultSet)
    let turn := fun (c : Channel) => ({ chATurn with chA := c } : State)
    faultsAfter (.channel .chA) (turn { running chA5 with dir := .unwritten }) = only ∧
    faultsAfter (.channel .chA) (turn { running chA5 with mem := .unwritten }) = only ∧
    faultsAfter (.channel .chA) (turn { running chA5 with fifo := .unwritten }) = only ∧
    faultsAfter (.channel .chA) (turn { running chA5 with remaining := .unwritten }) = only ∧
    faultsAfter (.channel .chB) ({ chBTurn with chB := { running chB1 with mem := .unwritten } } : State) = only ∧
    ckAccum Ck.reset 1 = .marked .unwritten ∧ ckResult ⟨.holds 1, .unwritten⟩ = .marked .unwritten := by decide

/-- `UnwrittenReadsAreMarked`, what decides before an unwritten cell is read: a full FIFO, an empty one, an address that
is not admitted, a READ of no words. Nothing is recorded. -/
theorem witness_HeldBeforeUnwritten :
    let clear := some FaultSet.none
    let unread := fun (c : Channel) => ({ running c with mem := .unwritten, remaining := .unwritten } : Channel)
    faultsAfter (.channel .chA) ({ chATurn with cmdFifo := [1, 2, 3, 4], chA := unread chA5 } : State) = clear ∧
    faultsAfter (.channel .chB) ({ chBTurn with dataFifo := [], chB := unread chB1 } : State) = clear ∧
    faultsAfter (.channel .chA) ({ chATurn with
      chA := { unread chA5 with mem := .holds 0x20040000 } } : State) = clear ∧
    faultsAfter .orcAdvance ({ completedRead with
      orc := { completedRead.orc with n := .holds 0, buf := none } } : State) = clear := by decide

/-- `SuKeepsTheWeakContract`: the free SU pops and pushes. -/
theorem witness_SuWeak :
    (moved .suPop { idle with cmdFifo := [1, 2] }).map (·.cmdFifo) = some [2] ∧
    (moved (.suPush 7) idle).map (·.dataFifo) = some [7] ∧
    (moved .su { idle with cmdFifo := [1] }).map (·.su.phase) = some (.header [1]) := by decide

/-- `ConfigureSetsTheDescriptor`: a busy channel and a free one. -/
theorem witness_Configure : (inflightRead.channel .chA).busy = true ∧ (idle.channel .chB).busy = false := by decide

/-- `ChannelMovesAWordToItsFifo`: one place left in CMD_FIFO. -/
theorem witness_ToFifo :
    chATurn.agenda = .channel .chA :: [] ∧ (chATurn.channel .chA).busy = true ∧
    (chATurn.channel .chA).dir = .holds .memToFifo ∧ (chATurn.channel .chA).mem = .holds 0x20000000 ∧
    (chATurn.channel .chA).fifo = .holds .cmd ∧ (chATurn.channel .chA).remaining = .holds 5 ∧
    (chATurn.fifo .cmd).length < fifoDepth chATurn.cfg .cmd ∧ admits chATurn.cfg 0x20000000 = true := by decide

/-- `ChannelMovesAWordToMemory`: the last word. -/
theorem witness_ToMemory :
    chBTurn.agenda = .channel .chB :: [] ∧ (chBTurn.channel .chB).busy = true ∧
    (chBTurn.channel .chB).dir = .holds .fifoToMem ∧ (chBTurn.channel .chB).mem = .holds 0x20001000 ∧
    (chBTurn.channel .chB).fifo = .holds .data ∧ (chBTurn.channel .chB).remaining = .holds 1 ∧
    chBTurn.fifo .data = 7 :: [] ∧ admits chBTurn.cfg 0x20001000 = true := by decide

/-- `ChannelsHold`: a channel never configured, and one finished; then, busy, each of the three causes: full, empty,
and one word past the admitted memory. -/
theorem witness_ChannelsHold :
    idle.chA = ⟨.unwritten, .unwritten, .unwritten, .unwritten, .unwritten, false, false, false⟩ ∧
    (moved (.channel .chA) idle).map (fun t => (t.chA, t.orc.faults)) = some (idle.chA, FaultSet.none) ∧
    (({ chBTurn with chB := finished chB1 } : State).channel .chB).busy = false ∧
    fifoDepth chATurn.cfg .cmd ≤ (({ chATurn with cmdFifo := [1, 2, 3, 4] } : State).fifo .cmd).length ∧
    (({ chBTurn with dataFifo := [] } : State).fifo .data) = [] ∧
    (({ chATurn with chA := { running chA5 with mem := .holds 0x20040000 } } : State).channel .chA).mem =
      .holds 0x20040000 ∧
    (0x20040000 % 4 = 0 ∧ admits chATurn.cfg 0x20040000 = false) := by decide

/-- `ControlWordsComplete`: an ideal read that ends at the device's last beat, one past it, an odd count, and none. -/
theorem witness_ControlWords :
    (takeCa ⟨true, false, true, 0x1FFFFFFE, 6, 2⟩ idle).su.phase = .command ⟨true, false, true, 0x1FFFFFFE, 6, 2⟩ ∧
    (0x1FFFFFFE : Word).toNat + (2 : Word).toNat ≤ cfgV.deviceWords ∧
    cfgV.deviceWords < (0x1FFFFFFF : Word).toNat + (2 : Word).toNat ∧ (3 : Word).toNat % 2 = 1 ∧
    (after (.ctrlRead 7) (takeCa ⟨true, false, true, 0x1FFFFFFF, 6, 2⟩ idle)).map (·.su.phase) = some .free ∧
    (after (.ctrlRead 7) (takeCa ⟨true, false, true, 0, 6, 0⟩ idle)).map (·.su.phase) = some .free := by decide

/-- `SuPopsTheHeader`: the first and the third word, a header whose count field is the greatest there is, each malformed
header, both masks beside a malformed one, and an empty CMD_FIFO. -/
theorem witness_SuPops :
    let s := fun (p : SuPhase) (ws : List Word) =>
      State.setSuPhase p { idle with agenda := [.su], cmdFifo := ws }
    let fields : CaFields := ⟨true, false, true, 0x1234567D, 6, 2⟩
    (s (.header []) [7]).su.phase = .header [] ∧ (s (.header []) [7]).cmdFifo = 7 :: [] ∧
    (moved .su (s (.header [1, 2]) [7])).map (·.su.phase) = some (.header [1, 2, 7]) ∧
    (moved .su (s (.header [0xFF00A246, 0x8ACF0005, 6]) [0xFFFFFFFE])).map (·.su.phase) =
      some (.command { fields with wordCount := 0xFFFFFFFF }) ∧
    (moved .su (s (.header [0xFF00A246, 0x8ACF0005, 6]) [0xFFFFFFFF])).map (·.su.phase) = some .free ∧
    (moved .su (s (.header [0xFE00A246, 0x8ACF0005, 6]) [1])).map (·.su.phase) = some .free ∧
    (moved .su (s (.header [0xFF00A246, 0x8ACF000D, 6]) [1, 2])).map (fun t => (t.su.phase, t.cmdFifo)) =
      some (.free, [2]) ∧
    (moved .su (s (.command fields) [0x00070100])).map (·.su) = some { idle.su with phase := .free } ∧
    (moved .su (s (.command fields) [0x0007000F])).map (·.su.phase) = some .free ∧
    (s (.command fields) []).cmdFifo = [] ∧ (moved .su (s (.command fields) [])).map (·.su.phase) =
      some (.command fields) := by decide

/-- `IdealSuPushesTheNextDeviceWord`: room in DATA_FIFO, and none. -/
theorem witness_IdealSuPushes :
    let s := State.setSuPhase (.pushing 0x10 1) { idle with agenda := [.su] }
    s.agenda = .su :: [] ∧ s.su.phase = .pushing 0x10 1 ∧ 0 < 1 ∧ s.dataFifo.length < s.cfg.fifoDepthData ∧
    s.cfg.fifoDepthData ≤ ({ s with dataFifo := [1, 2, 3, 4] } : State).dataFifo.length := by decide

/-- `IdealSuStoresTheNextPayloadWord`: a word waiting, and none. -/
theorem witness_IdealSuStores :
    let s := State.setSuPhase (.popping 0x10 1) { idle with agenda := [.su], cmdFifo := [7] }
    s.agenda = .su :: [] ∧ s.su.phase = .popping 0x10 1 ∧ 0 < 1 ∧ s.cmdFifo = 7 :: [] ∧
    ({ s with cmdFifo := [] } : State).cmdFifo = [] := by decide

/-- The stream of a WRITE of one word and a READ of it, whole in a CMD_FIFO that has room for it, and the SU's turns to
take it. -/
def readBack : State :=
  { idle with
    cfg := { cfgV with fifoDepthCmd := 11 }
    cmdFifo := (buildCommand false false true 0x1234567D 2 6 0x7 0x11).toList ++ [0xCAFEF00D]
      ++ (buildCommand true false true 0x1234567D 2 6 0x7 0x11).toList
    agenda := List.replicate 12 .su }

/-- `IdealSuReadsBackWhatItWrote`: one payload word. -/
theorem witness_IdealSuReadsBack :
    (2 : Word) ≠ 0 ∧ (2 : Word).toNat % 2 = 0 ∧ [(0xCAFEF00D : Word)].length = (2 : Word).toNat / 2 ∧
    (0x1234567D : Word).toNat + (2 : Word).toNat ≤ readBack.cfg.deviceWords ∧
    [(0xCAFEF00D : Word)].length ≤ readBack.cfg.fifoDepthData ∧ readBack.su.phase = .header [] ∧
    readBack.dataFifo = [] ∧ readBack.cmdFifo.length ≤ readBack.cfg.fifoDepthCmd ∧
    readBack.cmdFifo = (buildCommand false false true 0x1234567D 2 6 0x7 0x11).toList ++ [0xCAFEF00D]
      ++ (buildCommand true false true 0x1234567D 2 6 0x7 0x11).toList ∧
    readBack.agenda = List.replicate (10 + 2 * [(0xCAFEF00D : Word)].length) .su := by decide

/-- A WRITE of ten words, more than either FIFO holds, and the READ of them. -/
def roundTrip : State :=
  { idle with agenda := writeMoves 0x10 20 0x20002000 ++ readMoves 0x10 20 0x20001000 }

/-- `WriteThenReadReturnsThePayload`: a payload longer than DATA_FIFO. -/
theorem witness_RoundTrip :
    roundTrip.cfg.Wf ∧ roundTrip.Ready ∧ roundTrip.cfg.regSpace = false ∧ roundTrip.cfg.linearBurst = true ∧
    roundTrip.reqPort = none ∧ roundTrip.chA.busy = false ∧ roundTrip.chB.busy = false ∧
    roundTrip.su.phase = .header [] ∧ roundTrip.cmdFifo = [] ∧ roundTrip.dataFifo = [] ∧
    (20 : Word) ≠ 0 ∧ (20 : Word).toNat % 2 = 0 ∧ (0x10 : Word).toNat + (20 : Word).toNat ≤ roundTrip.cfg.deviceWords ∧
    5 + (20 : Word).toNat / 2 ≤ roundTrip.cfg.txbufWords ∧ roundTrip.cfg.fifoDepthData < (20 : Word).toNat / 2 ∧
    (0x20002000 : Word).toNat % 4 = 0 ∧ AdmittedWords roundTrip.cfg (0x20002000 : Word).toNat ((20 : Word).toNat / 2) ∧
    ClearOfTxbuf roundTrip.cfg 0x20002000 ((20 : Word).toNat / 2) (5 + (20 : Word).toNat / 2) ∧
    (0x20001000 : Word).toNat % 4 = 0 ∧ AdmittedWords roundTrip.cfg (0x20001000 : Word).toNat ((20 : Word).toNat / 2) ∧
    ClearOfTxbuf roundTrip.cfg 0x20001000 ((20 : Word).toNat / 2) 5 ∧
    roundTrip.agenda = writeMoves 0x10 20 0x20002000 ++ readMoves 0x10 20 0x20001000 :=
  ⟨cfgV_wf, ready_idle, rfl, rfl, rfl, rfl, rfl, rfl, rfl, rfl, by decide, by decide, by decide, by decide, by decide,
    by decide, by unfold AdmittedWords; decide, by unfold ClearOfTxbuf; decide, by decide,
    by unfold AdmittedWords; decide, by unfold ClearOfTxbuf; decide, rfl⟩

/-- A READ of one word on the port, for the moves that put it. -/
def readRequest : Request := ⟨3, [0x10, 2, 0x20001000]⟩

/-- `HostMovesFollowTheTable`, the puts and the take: enabled in IDLE, and not where a response waits, in ABANDONED,
over a waiting request, or for a record of no request; ABANDON elsewhere; the take in IDLE and in ABANDONED. -/
theorem witness_HostPuts :
    decode .request readRequest.words = .ok (.read 0x10 2 0x20001000) ∧
    (moved (.put readRequest) idle).map (·.reqPort) = some (some readRequest) ∧
    (moved (.put readRequest) { idle with respPort := some ⟨0, .empty⟩ }).map (·.reqPort) = some none ∧
    (moved (.put readRequest) abandoned).map (·.reqPort) = some none ∧
    (moved (.put readRequest) { idle with reqPort := some ⟨5, []⟩ }).map (·.reqPort) = some (some ⟨5, []⟩) ∧
    (moved (.put ⟨6, []⟩) idle).map (·.reqPort) = some none ∧
    (moved (.put ⟨3, [1]⟩) idle).map (·.reqPort) = some none ∧
    (moved (.put ⟨5, []⟩) { selectedRead with respPort := some ⟨0, .empty⟩ }).map (·.reqPort) = some (some ⟨5, []⟩) ∧
    (moved .takeResponse { selectedRead with respPort := some ⟨0, .empty⟩ }).map (fun t => (t.respPort, t.owned)) =
      some (none, none) ∧
    (moved .takeResponse { abandoned with respPort := some ⟨0, .empty⟩ }).map (fun t => (t.respPort, t.owned)) =
      some (none, some (0x20001000, 1)) ∧
    (moved .takeResponse selectedRead).map (·.owned) = some (some (0x20001000, 1)) := by decide

/-- `HostMovesFollowTheTable`, the last clause: a reserved op and, as in P4 and V-ORC-11, a CHECKSUM in ABANDONED. -/
theorem witness_HostPresents :
    (moved (.present ⟨6, []⟩) idle).map (·.reqPort) = some (some ⟨6, []⟩) ∧
    (moved (.present ⟨0, [7]⟩) abandoned).map (·.reqPort) = some (some ⟨0, [7]⟩) ∧
    (moved (.present ⟨1, [0x20001000, 0, 0, 0]⟩) abandoned).map (·.reqPort) =
      some (some ⟨1, [0x20001000, 0, 0, 0]⟩) ∧
    (moved (.present ⟨6, []⟩) selectedRead).map (·.reqPort) = some none ∧
    (moved (.present ⟨3, [1]⟩) idle).map (·.reqPort) = some none := by decide

/-- A CHECKSUM of two words waiting on the port. -/
def checksumWaiting : State := { idle with reqPort := some ⟨1, [0x20001000, 2, 0, 0]⟩ }

/-- `HostMovesFollowTheTable`, the words the host may write, on both sides of each edge: TXBUF's, the owned range's, a
waiting CHECKSUM's; and a misaligned one. -/
theorem witness_HostsWord :
    (idle.HostsWord 0x1FFFFFFC ∧ ¬ idle.HostsWord 0x20000000 ∧ ¬ idle.HostsWord 0x200007FC ∧
      idle.HostsWord 0x20000800 ∧ ¬ idle.HostsWord 0x20001002) ∧
    (selectedRead.HostsWord 0x20000FFC ∧ ¬ selectedRead.HostsWord 0x20001000 ∧ selectedRead.HostsWord 0x20001004) ∧
    (checksumWaiting.HostsWord 0x20000FFC ∧ ¬ checksumWaiting.HostsWord 0x20001000 ∧
      ¬ checksumWaiting.HostsWord 0x20001004 ∧ checksumWaiting.HostsWord 0x20001008) := by
  simp only [← State.hostMayAccess_iff]
  decide

/-- `BootPreparesTheEnvironment`: IDLE with nothing going on, and each thing that hinders it. -/
theorem witness_Boot :
    (moved .boot { idle with su := Su.unset, cmdFifo := [1], dataFifo := [2] }).map
        (fun t => (t.su, t.cmdFifo, t.dataFifo)) = some (⟨.header [], .unwritten, .unwritten, some ⟨0, 8, 2⟩⟩, [], []) ∧
    (moved .boot { selectedRead with cmdFifo := [1] }).map (·.cmdFifo) = some [1] ∧
    (moved .boot { idle with reqPort := some ⟨5, []⟩, cmdFifo := [1] }).map (·.cmdFifo) = some [1] ∧
    (moved .boot { idle with chA := running chA5, cmdFifo := [1] }).map (·.cmdFifo) = some [1] ∧
    (moved .boot { idle with chB := running chB1, cmdFifo := [1] }).map (·.cmdFifo) = some [1] := by decide

/-- `OwnedRangesAreNotTheHosts`: a write to the received word, held off. -/
theorem witness_OwnedRanges :
    (moved (.hostWrite 0x20001000 7) selectedRead).map (·.mem) = some [] ∧
    selectedRead.owned = some (0x20001000, 1) ∧ inTxbuf cfgV 0x20000000 = true := by decide

/-- `MemoryHoldsWords`: each clause at an edge of the admitted range. -/
theorem witness_MemoryHoldsWords :
    admits cfgV 0x2003FFFC = true ∧ 0x2003FFFE % 4 ≠ 0 ∧ (0x20040000 % 4 = 0 ∧ admits cfgV 0x20040000 = false) ∧
    2 ^ 32 ≤ 0x100000000 := by decide

/-- `FifosAreFirstInFirstOut`: each clause. -/
theorem witness_Fifos :
    (({ idle with cmdFifo := [1, 2, 3] } : State).fifo .cmd).length < fifoDepth cfgV .cmd ∧
    fifoDepth cfgV .cmd ≤ (({ idle with cmdFifo := [1, 2, 3, 4] } : State).fifo .cmd).length ∧
    ({ idle with dataFifo := [1] } : State).fifo .data = 1 :: [] ∧ idle.fifo .data = [] := by decide

/-- `RequestsThatMoveNoDataFrame` and `TransfersFrame`: instructions that answer a next state. -/
theorem witness_frames :
    (after (.checksum 0x20030000 0 0) idle).isSome = true ∧ (after .abandon inflightRead).isSome = true ∧
    (after (.encode true false true 0 1 6 7 0x11) idle).isSome = true ∧
    (after (.read 0 2 0x20001000) idle).isSome = true ∧ (after (.write 0 2 0x20001000) idle).isSome = true := by decide

end Sys2Proof.Tests
end

section
/-! What a step leaves of the configuration and of the marks (10_state.md R21, R26; 60_exceptions.md R164, R168). -/

namespace Sys2Proof.Machine

/-! ## What the choice of a move leaves alone -/

@[simp] theorem spendMove_cfg (s : State) : (spendMove s).cfg = s.cfg := by
  obtain ⟨_, _, e⟩ := spendMove_eq s; rw [e]

@[simp] theorem spendMove_orc (s : State) : (spendMove s).orc = s.orc := by
  obtain ⟨_, _, e⟩ := spendMove_eq s; rw [e]

@[simp] theorem spendMove_refusedOp (s : State) : (spendMove s).refusedOp = s.refusedOp := by
  obtain ⟨_, _, e⟩ := spendMove_eq s; rw [e]

theorem spendMove_going (s : State) : (spendMove s).going ↔ s.going := by
  obtain ⟨_, _, e⟩ := spendMove_eq s; rw [e]; rfl

/-! ## The host's moves and the platform's, outside the environment -/

@[simp] theorem hostPut_cfg (r : Request) (s : State) : (hostPut r s).cfg = s.cfg := by
  unfold hostPut; split <;> rfl
@[simp] theorem hostPut_orc (r : Request) (s : State) : (hostPut r s).orc = s.orc := by
  unfold hostPut; split <;> rfl
@[simp] theorem hostPut_refusedOp (r : Request) (s : State) : (hostPut r s).refusedOp = s.refusedOp := by
  unfold hostPut; split <;> rfl
@[simp] theorem presentRequest_cfg (r : Request) (s : State) : (presentRequest r s).cfg = s.cfg := by
  unfold presentRequest; split <;> rfl
@[simp] theorem presentRequest_orc (r : Request) (s : State) : (presentRequest r s).orc = s.orc := by
  unfold presentRequest; split <;> rfl
@[simp] theorem presentRequest_refusedOp (r : Request) (s : State) :
    (presentRequest r s).refusedOp = s.refusedOp := by
  unfold presentRequest; split <;> rfl
@[simp] theorem hostTake_cfg (s : State) : (hostTake s).cfg = s.cfg := by
  unfold hostTake; split <;> rfl
@[simp] theorem hostTake_orc (s : State) : (hostTake s).orc = s.orc := by
  unfold hostTake; split <;> rfl
@[simp] theorem hostTake_refusedOp (s : State) : (hostTake s).refusedOp = s.refusedOp := by
  unfold hostTake; split <;> rfl
@[simp] theorem hostWrite_cfg (a v : Word) (s : State) : (hostWrite a v s).cfg = s.cfg := by
  unfold hostWrite; split <;> rfl
@[simp] theorem hostWrite_orc (a v : Word) (s : State) : (hostWrite a v s).orc = s.orc := by
  unfold hostWrite; split <;> rfl
@[simp] theorem hostWrite_refusedOp (a v : Word) (s : State) : (hostWrite a v s).refusedOp = s.refusedOp := by
  unfold hostWrite; split <;> rfl
@[simp] theorem platformBoot_cfg (s : State) : (platformBoot s).cfg = s.cfg := by
  unfold platformBoot; split <;> rfl
@[simp] theorem platformBoot_orc (s : State) : (platformBoot s).orc = s.orc := by
  unfold platformBoot; split <;> rfl
@[simp] theorem platformBoot_refusedOp (s : State) : (platformBoot s).refusedOp = s.refusedOp := by
  unfold platformBoot; split <;> rfl

/-! ## CFG under each agent's move -/

theorem Taken.cfg_eq {u t : State} {r : Request} (h : Taken u r t) : t.cfg = u.cfg := by
  cases h <;> rfl

theorem Advanced.cfg_eq {u t : State} (h : Advanced u t) : t.cfg = u.cfg := by
  cases h <;> rfl

theorem ChannelMoved.cfg_eq {c : ChannelId} {u t : State} (h : ChannelMoved c u t) : t.cfg = u.cfg := by
  cases h <;> simp

theorem SuMoved.cfg_eq {u t : State} (h : SuMoved u t) : t.cfg = u.cfg := by
  cases h <;> rfl

/-! ## Marks under each agent's move -/

/-- The marks that stand in `u` stand in `t` (10_state.md R21). -/
structure State.KeepsMarks (u t : State) : Prop where
  faults : ∀ f, u.orc.faults.has f = true → t.orc.faults.has f = true
  refused : ∀ op, u.refusedOp = some op → t.refusedOp = some op

theorem State.KeepsMarks.of_eq {u t : State} (hf : t.orc.faults = u.orc.faults) (hr : t.refusedOp = u.refusedOp) :
    u.KeepsMarks t := ⟨fun f h => by rw [hf]; exact h, fun op h => by rw [hr]; exact h⟩

/-- Recording a mark keeps those before it. -/
theorem State.KeepsMarks.of_recordFault {u t : State} (f : Fault) (hf : t.orc.faults = u.orc.faults)
    (hr : t.refusedOp = u.refusedOp) : u.KeepsMarks (t.recordFault f) where
  faults g hg := by simp [FaultSet.has_add, hf, hg]
  refused := (State.KeepsMarks.of_eq hf hr).refused

/-- A refusal comes only where none was (60_exceptions.md R168). -/
theorem Taken.keepsMarks {u t : State} {r : Request} (h : Taken u r t) : u.KeepsMarks t := by
  cases h with
  | reserved hr =>
    obtain ⟨⟨_, _, _, none_refused⟩, _⟩ := hr
    exact ⟨fun _ h => h, fun op h => by rw [none_refused] at h; cases h⟩
  | overlap => exact .of_recordFault _ rfl rfl
  | marked => exact .of_recordFault _ rfl rfl
  | _ => exact .of_eq rfl rfl

theorem Advanced.keepsMarks {u t : State} (h : Advanced u t) : u.KeepsMarks t := by
  cases h with
  | marked => exact .of_recordFault _ rfl rfl
  | busyA => exact .of_recordFault _ rfl rfl
  | busyB => exact .of_recordFault _ rfl rfl
  | _ => exact .of_eq rfl rfl

theorem ChannelMoved.keepsMarks {c : ChannelId} {u t : State} (h : ChannelMoved c u t) : u.KeepsMarks t := by
  cases h with
  | marked => exact .of_recordFault _ rfl rfl
  | _ => exact .of_eq (by simp) (by simp)

theorem SuMoved.keepsMarks {u t : State} (h : SuMoved u t) : u.KeepsMarks t := by
  cases h <;> exact .of_eq rfl rfl

/-- Every step but reset keeps the marks. -/
theorem step_keepsMarks {s t : State} (h : step s = .next t) (hm : nextMove s ≠ .reset) :
    (spendMove s).KeepsMarks t := by
  apply step_cases h
  case hold => exact .of_eq rfl rfl
  case take => exact fun _ _ _ _ ht => ht.keepsMarks
  case adv => exact fun _ _ _ ht => ht.keepsMarks
  case chan => exact fun _ _ _ ht => ht.keepsMarks
  case su => exact fun _ _ ht => ht.keepsMarks
  case rs => exact fun e => absurd e hm
  all_goals intros; exact .of_eq (by simp) (by simp)

/-- A request is taken only with no stopping mark recorded. -/
theorem Taken.eq_of_not_going {u t : State} {r : Request} (h : Taken u r t) (hg : ¬ u.going) : t = u := by
  cases h with
  | held => rfl
  | abandon _ hu => exact absurd hu hg
  | invalid _ hr | reserved hr | overlap hr | marked hr | checksum _ _ _ hr | encode _ hr | read _ _ _ _ hr
  | write _ _ _ _ hr => exact absurd hr.1 hg

/-- With a stopping mark recorded, neither of the orchestrator's moves does anything (log 5). -/
theorem orchestrator_stops {s t : State} (h : step s = .next t) (hg : ¬ s.going)
    (hm : nextMove s = .orcTake ∨ nextMove s = .orcAdvance) : t = spendMove s := by
  have hu : ¬ (spendMove s).going := mt (spendMove_going s).1 hg
  rcases hm with hm | hm
  · rcases orcTake_cases hm h with e | ⟨r, _, ht⟩
    · exact e
    · exact ht.eq_of_not_going hu
  · rw [step_orcAdvance hm] at h
    cases h
    rcases orcAdvance_cases (spendMove s) with ⟨_, e⟩ | ⟨hg', _⟩
    · exact e
    · exact absurd hg' hu

/-! ## The statements -/

/-- Settles O5: no agent's move writes CFG. -/
theorem configurationIsNeverWritten : Obligations.ConfigurationIsNeverWritten := by
  intro s t h
  rw [← spendMove_cfg s]
  apply step_cases h
  case hold => rfl
  case take => exact fun _ _ _ _ ht => ht.cfg_eq
  case adv => exact fun _ _ _ ht => ht.cfg_eq
  case chan => exact fun _ _ _ ht => ht.cfg_eq
  case su => exact fun _ _ ht => ht.cfg_eq
  case rs => exact fun _ => rfl
  all_goals intros; simp

/-- Settles O38: every move but reset keeps the marks, and the orchestrator acts only where none stops it. -/
theorem marksAreStickyAndHaltTheOrchestrator : Obligations.MarksAreStickyAndHaltTheOrchestrator := by
  intro s t h hm
  obtain ⟨hf, hr⟩ := step_keepsMarks h hm
  rw [spendMove_orc] at hf
  rw [spendMove_refusedOp] at hr
  exact ⟨hf, hr, orchestrator_stops h⟩

end Sys2Proof.Machine
end

section
/-! The invariant of the machine (10_state.md R34, R35; 20_memory.md R37): it holds after reset, every agent's move
keeps it, and in a state that meets it every step answers. -/

namespace Sys2Proof.Machine

/-! ## Reset (10_state.md R31) -/

theorem Config.txbufIndex_lt : Config.txbufIndex < 2 ^ 30 - 4 := Nat.mod_lt _ (by norm_num)

theorem Config.txbufWords_bounds : 5 ≤ Config.txbufWords ∧ Config.txbufIndex + Config.txbufWords ≤ 2 ^ 30 := by
  have hi := Config.txbufIndex_lt
  have hm : Config.txbufExtraWords % (2 ^ 30 - 4 - Config.txbufIndex) < 2 ^ 30 - 4 - Config.txbufIndex :=
    Nat.mod_lt _ (by omega)
  unfold Config.txbufWords
  omega

theorem Cfg.ofPlatform_txbufBase : Cfg.ofPlatform.txbufBase.toNat = 4 * Config.txbufIndex := by
  have hi := Config.txbufIndex_lt
  exact (BitVec.toNat_ofNat _ _).trans (Nat.mod_eq_of_lt (by omega))

/-- The platform's values are within the bounds of 00_scope.md R8, whatever they are. -/
theorem Cfg.ofPlatform_wf : Cfg.ofPlatform.Wf := by
  obtain ⟨five_words, below⟩ := Config.txbufWords_bounds
  have base := Cfg.ofPlatform_txbufBase
  have words : Cfg.ofPlatform.txbufWords = Config.txbufWords := rfl
  refine ⟨by omega, five_words, by omega, Nat.le_add_right .., Nat.le_add_right .., fun i hi => ?_⟩
  rw [words] at hi
  rw [base, admits, Bool.and_eq_true, Bool.and_eq_true, decide_eq_true_eq, decide_eq_true_eq]
  refine ⟨⟨by omega, by omega⟩, List.any_eq_true.2 ⟨_, List.mem_cons_self, ?_⟩⟩
  rw [Bool.and_eq_true, decide_eq_true_eq, decide_eq_true_eq]
  dsimp only
  omega

theorem Channel.fits_reset (d : ChannelDir) (f : FifoName) : Channel.reset.Fits d f := ⟨nofun, nofun, nofun⟩

/-- Reset brings the block to R31's values, which leaves only what it does not touch to be asked of the state. -/
theorem applyReset_inv {s : State} (hc : s.cfg.Wf) (hm : Memory.wf s.mem) (hd : Table.Sorted s.dev) :
    (applyReset s).Inv where
  cfg_wf := hc
  mem_wf := Table.sorted_erase _ _ _ hm
  dev_sorted := hd
  cmd_within := List.length_take_le _ _
  data_within := List.length_take_le _ _
  chA_fits := Channel.fits_reset _ _
  chB_fits := Channel.fits_reset _ _
  cs_frames := ⟨nofun, nofun⟩
  idle_no_buffer _ := rfl
  latched hp := absurd rfl hp
  armed_configured := nofun
  port_puttable := nofun
  open_no_response _ := rfl
  never_unwritten := rfl
  never_misaligned := rfl

/-- The state right after power-on is one that the reset move leaves. -/
theorem State.reset_eq_applyReset : State.reset = applyReset { State.reset with draws := 0 } := rfl

/-- Settles O3: power-on is a reset of an empty memory on the platform's own configuration. -/
theorem resetMeetsInvariant : Obligations.ResetMeetsInvariant := by
  unfold Obligations.ResetMeetsInvariant
  rw [State.reset_eq_applyReset]
  exact applyReset_inv Cfg.ofPlatform_wf List.Pairwise.nil List.Pairwise.nil

/-- Settles O1: R31's table row by row; the two FIFOs are cut to capacity. -/
theorem resetStateFollowsTheTable : Obligations.ResetStateFollowsTheTable :=
  ⟨rfl, rfl, rfl, rfl, rfl, rfl, rfl, rfl, rfl, rfl, rfl, rfl, List.length_take_le _ _, List.length_take_le _ _,
    rfl, rfl, rfl, rfl⟩

/-! ## Channel descriptors -/

/-- The direction each channel is configured with (42_orchestrator.md R118, R127). -/
def ChannelId.ownDir : ChannelId → ChannelDir
  | .chA => .memToFifo
  | .chB => .fifoToMem

/-- The FIFO each channel is configured with. -/
def ChannelId.ownFifo : ChannelId → FifoName
  | .chA => .cmd
  | .chB => .data

theorem State.Inv.channel_fits {s : State} (h : s.Inv) (c : ChannelId) : (s.channel c).Fits c.ownDir c.ownFifo := by
  cases c with
  | chA => exact h.chA_fits
  | chB => exact h.chB_fits

theorem Channel.fits_configured {d : ChannelDir} {f : FifoName} {m : Nat} (hm : m % 4 = 0) (n : Nat) :
    (Machine.configured d m f n false).Fits d f :=
  ⟨nofun, nofun, fun _ => ⟨m, n, false, rfl, rfl, hm, rfl, rfl, rfl, nofun⟩⟩

theorem Channel.Fits.startWith {d : ChannelDir} {f : FifoName} {c : Channel} {r : Nat} (h : c.Fits d f)
    (hc : c.configured = true) (hr : c.remaining = .holds r) : (c.startWith r).Fits d f where
  busy_started _ := rfl
  started_configured _ := hc
  written _ := by
    obtain ⟨m, _, auto, hd, hm, ha, hf, _, hs, _⟩ := h.written hc
    exact ⟨m, r, auto, hd, hm, ha, hf, hr, hs, of_decide_eq_true⟩

theorem Channel.Fits.moved {d : ChannelDir} {f : FifoName} {c : Channel} {m r : Nat} (h : c.Fits d f)
    (hb : c.busy = true) (hm : c.mem = .holds m) : (c.moved m r).Fits d f where
  busy_started _ := h.busy_started hb
  started_configured := h.started_configured
  written hc := by
    obtain ⟨m', _, auto, hd, hm', ha, hf, _, hs, _⟩ := h.written hc
    obtain rfl : m' = m := Cell.holds.inj (hm'.symm.trans hm)
    exact ⟨m' + 4, r - 1, auto, hd, rfl, by omega, hf, rfl, hs, of_decide_eq_true⟩

/-- In a state of the invariant a busy channel's move records no fault. -/
theorem State.Inv.moveWord_not_marked {s : State} (h : s.Inv) {c : ChannelId} (hb : (s.channel c).busy = true)
    (f : Fault) : moveWord s c ≠ .marked f := by
  have fits := h.channel_fits c
  obtain ⟨m, r, _, hd, hm, ha, hf, hr, _⟩ := fits.written (fits.started_configured (fits.busy_started hb))
  exact Machine.moveWord_not_marked hd hm ha hf hr

/-! ## Updates of the state that keep the invariant -/

theorem spendMove_inv {s : State} (h : s.Inv) : (spendMove s).Inv := by
  obtain ⟨g, d, e⟩ := spendMove_eq s
  rw [e]
  exact { h with }

/-- A descriptor that fits may replace a channel's; in ARMED it must be as step 2 left it. -/
theorem State.Inv.setChannel {s : State} (h : s.Inv) {c : ChannelId} {x : Channel}
    (fits : x.Fits c.ownDir c.ownFifo)
    (armed : s.orc.phase = .armed → ∀ d, s.orc.op = .holds d → c ∈ startedChannels d →
      x.configured = true ∧ x.started = false) : (s.setChannel c x).Inv := by
  have still : s.orc.phase = .armed → ∀ d, s.orc.op = .holds d → ∀ e ∈ startedChannels d,
      ((s.setChannel c x).channel e).configured = true ∧ ((s.setChannel c x).channel e).started = false := by
    intro hp d hd e he
    rw [State.setChannel_channel]
    split
    · subst e; exact armed hp d hd he
    · exact h.armed_configured hp d hd e he
  cases c with
  | chA => exact { h with chA_fits := fits, armed_configured := still }
  | chB => exact { h with chB_fits := fits, armed_configured := still }

/-- The phase may pass from one open phase to another, to ARMED once the channels are configured. -/
theorem State.Inv.setPhase {s : State} (h : s.Inv) {p : Phase} (hs : s.orc.phase.open = true) (hp : p.open = true)
    (armed : p = .armed → ∀ d, s.orc.op = .holds d →
      ∀ c ∈ startedChannels d, (s.channel c).configured = true ∧ (s.channel c).started = false) :
    (s.setPhase p).Inv :=
  { h with
    cs_frames := ⟨fun _ => hp, fun _ => h.cs_frames.2 hs⟩
    idle_no_buffer := by rintro rfl; cases hp
    latched := fun _ => { h.latched (by intro e; rw [e] at hs; cases hs) with }
    armed_configured := armed
    open_no_response := fun _ => h.open_no_response hs }

theorem State.Inv.recordFault {s : State} (h : s.Inv) {f : Fault} (hu : f ≠ .unwritten) (hm : f ≠ .misaligned) :
    (s.recordFault f).Inv := by
  cases f with
  | unwritten => exact absurd rfl hu
  | misaligned => exact absurd rfl hm
  | overlap | channelBusy => exact { h with latched := fun hp => { h.latched hp with } }

theorem State.Inv.takeRequest {s : State} (h : s.Inv) : s.takeRequest.Inv := { h with port_puttable := nofun }

/-- A response may stand while no transaction is open. -/
theorem State.Inv.respond {s : State} (h : s.Inv) (hp : s.orc.phase.open = false) (st : Byte) (p : Payload) :
    (s.respond st p).Inv :=
  { h with open_no_response := fun ho => absurd (hp.symm.trans ho) Bool.false_ne_true }

theorem State.Inv.raiseInvalid {s : State} (h : s.Inv) (hp : s.orc.phase.open = false) (r : Byte) :
    (s.raiseInvalid r).Inv := h.takeRequest.respond hp _ _

/-! ## ORC takes a request -/

theorem State.Ready.phase_closed {s : State} (h : s.Ready) : s.orc.phase.open = false := by
  obtain ⟨_, idle, _⟩ := h
  rw [idle]; rfl

theorem State.Ready.no_response {s : State} (h : s.Ready) : s.respPort = none := by
  obtain ⟨_, _, empty⟩ := h
  exact empty

/-- READ and WRITE step 1 open the transaction with every latch written. -/
theorem State.Inv.afterReadStep1 {s : State} (h : s.Inv) (hr : s.Ready) {address wc buf : Word} (hw : wc ≠ 0)
    (hb : buf.toNat % 4 = 0) : (afterReadStep1 address wc buf s).Inv :=
  { h with
    mem_wf := s.pokeWords_wf _ _ h.mem_wf
    cs_frames := ⟨fun _ => rfl, fun _ => rfl⟩
    idle_no_buffer := nofun
    latched := fun _ => ⟨⟨_, rfl⟩, ⟨_, rfl⟩, ⟨_, rfl, hw, rfl⟩, fun _ => ⟨_, rfl, hb⟩, nofun⟩
    armed_configured := nofun
    port_puttable := nofun
    open_no_response := fun _ => hr.no_response }

theorem State.Inv.afterWriteStep1 {s : State} (h : s.Inv) (hr : s.Ready) {address wc buf : Word} (hw : wc ≠ 0) :
    (afterWriteStep1 address wc buf s).Inv :=
  { h with
    mem_wf := s.pokeWords_wf _ _ h.mem_wf
    cs_frames := ⟨fun _ => rfl, fun _ => rfl⟩
    idle_no_buffer := nofun
    latched := fun _ => ⟨⟨_, rfl⟩, ⟨_, rfl⟩, ⟨_, rfl, hw, rfl⟩, nofun, fun _ => ⟨rfl, _, rfl⟩⟩
    armed_configured := nofun
    port_puttable := nofun
    open_no_response := fun _ => hr.no_response }

/-- ABANDON closes the transaction and keeps its latches (42_orchestrator.md R132). -/
theorem State.Inv.abandon {s : State} (h : s.Inv) (hp : s.orc.phase = .inflight) :
    (State.setPhase .abandoned s.takeRequest.deselect).Inv :=
  { h with
    cs_frames := ⟨nofun, nofun⟩
    idle_no_buffer := nofun
    latched := fun _ => { h.latched (by rw [hp]; nofun) with }
    armed_configured := nofun
    port_puttable := nofun
    open_no_response := nofun }

theorem Taken.inv {s t : State} {r : Request} (h : s.Inv) (ht : Taken s r t) : t.Inv := by
  cases ht with
  | held => exact h
  | invalid reason hr => exact h.raiseInvalid hr.phase_closed reason
  | reserved hr => exact { h.takeRequest with }
  | overlap hr => exact h.takeRequest.recordFault nofun nofun
  | marked hr hb => exact absurd h.cfg_wf.base_aligned hb
  | checksum base count seed hr => exact { h.takeRequest.respond hr.phase_closed _ _ with }
  | encode p hr => exact h.takeRequest.respond hr.phase_closed _ _
  | read a wc buf hop hr hw hb hc hm => exact h.afterReadStep1 hr hw hb
  | write a wc buf hop hr hw hl => exact h.afterWriteStep1 hr hw
  | abandon hop hg hp => exact (h.abandon hp).respond rfl _ _

/-! ## ORC advances a transaction -/

theorem readStep2_not_marked {s : State} {n : Nat} {buf : Word} (hn : s.orc.n = .holds n) (hb : s.orc.buf = some buf)
    (f : Fault) : readStep2 s ≠ .marked f := by
  unfold readStep2
  split
  · nofun
  split
  · nofun
  · rw [hn, Orc.bufAddress_eq_ok.2 hb]; nofun

theorem writeStep2_not_marked {s : State} {n : Nat} (hn : s.orc.n = .holds n) (f : Fault) :
    writeStep2 s ≠ .marked f := by
  unfold writeStep2
  split
  · nofun
  · rw [hn]; nofun

theorem readStep5_not_marked {s : State} {n : Nat} {buf : Word} (hn : s.orc.n = .holds n) (hb : s.orc.buf = some buf)
    (ha : buf.toNat % 4 = 0) (f : Fault) : readStep5 s ≠ .marked f := by
  intro h
  rw [readStep5, hn, Cell.read_holds, Access.bind_ok] at h
  rcases Access.bind_eq_marked.1 h with h | ⟨ws, _, h⟩
  · exact receivedWords_not_marked hb ha h
  · rw [ck_runs_fletcher64, Access.bind_ok, ckResult_ofSums, Access.bind_ok] at h
    cases h

/-- A configured channel that fits has its count written, which step 3 reads. -/
theorem Channel.Fits.remaining_written {d : ChannelDir} {f : FifoName} {c : Channel} (h : c.Fits d f)
    (hc : c.configured = true) : ∃ r, c.remaining = .holds r := by
  obtain ⟨_, r, _, _, _, _, _, hr, _⟩ := h.written hc
  exact ⟨r, hr⟩

/-- In a state of the invariant no step of an open transaction reads an unwritten cell or misaligns an access. -/
theorem State.Inv.transactionStep_not_marked {s : State} (h : s.Inv) (f : Fault) :
    transactionStep s ≠ .marked f := by
  by_cases hi : s.orc.phase = .idle
  · rw [transactionStep, hi]; nofun
  obtain ⟨⟨d, hd⟩, _, ⟨w, _, _, hn⟩, buffer, result⟩ := h.latched hi
  cases hp : s.orc.phase with
  | idle => exact absurd hp hi
  | abandoned => rw [transactionStep, hp]; nofun
  | selected =>
    rw [transactionStep, hp, hd]
    cases d with
    | read =>
      obtain ⟨buf, hb, _⟩ := buffer hd
      exact readStep2_not_marked hn hb f
    | write => exact writeStep2_not_marked hn f
  | armed =>
    have armed := h.armed_configured hp d hd
    cases d with
    | read =>
      obtain ⟨ca, _⟩ := armed .chA (by decide)
      obtain ⟨cb, _⟩ := armed .chB (by decide)
      obtain ⟨a, ra⟩ := h.chA_fits.remaining_written ca
      obtain ⟨b, rb⟩ := h.chB_fits.remaining_written cb
      rw [transactionStep_startedRead hp hd ca cb ra rb]; nofun
    | write =>
      obtain ⟨ca, _⟩ := armed .chA (by decide)
      obtain ⟨a, ra⟩ := h.chA_fits.remaining_written ca
      rw [transactionStep_startedWrite hp hd ca ra]; nofun
  | inflight => rw [transactionStep_inflight hp hd]; split <;> nofun
  | completed =>
    cases d with
    | read =>
      obtain ⟨buf, hb, ha⟩ := buffer hd
      rw [transactionStep, hp, hd]
      exact readStep5_not_marked hn hb ha f
    | write =>
      obtain ⟨_, r, hr⟩ := result hd
      rw [transactionStep_answeredWrite hp hd hr]; nofun

/-- Step 5 closes the transaction: deselected, no buffer retained, the response on its port (42_orchestrator.md R121,
R130). -/
theorem State.Inv.close {s : State} (h : s.Inv) (ck : Ck) (result : Cell Dword) (p : Response) :
    ({ s with
      csN := true, ck := ck, orc := { s.orc with result := result, buf := none, phase := .idle },
      respPort := some p } : State).Inv :=
  { h with
    cs_frames := ⟨nofun, nofun⟩
    idle_no_buffer := fun _ => rfl
    latched := fun hp => absurd rfl hp
    armed_configured := nofun
    open_no_response := nofun }

/-- The channels step 2 configures fit. -/
theorem readChA_fits {c : Cfg} (h : c.Wf) : (readChA c).Fits .memToFifo .cmd := Channel.fits_configured h.base_aligned 5
theorem writeChA_fits {c : Cfg} (h : c.Wf) (n : Nat) : (writeChA c n).Fits .memToFifo .cmd :=
  Channel.fits_configured h.base_aligned (5 + n)

theorem Advanced.inv {s t : State} (h : s.Inv) (ht : Advanced s t) : t.Inv := by
  cases ht with
  | held => exact h
  | marked f hf => exact absurd hf (h.transactionStep_not_marked f)
  | busyA hp hb => exact h.recordFault nofun nofun
  | busyB hp ho ha hb =>
    have hA := h.setChannel (c := .chA) (readChA_fits h.cfg_wf) (fun ha => nomatch hp.symm.trans ha)
    exact hA.recordFault nofun nofun
  | armedRead n buf hp ho hn hbuf ha hb =>
    obtain ⟨buf', hb', ha'⟩ := (h.latched (by rw [hp]; nofun)).read_buffer ho
    obtain rfl : buf' = buf := Option.some.inj (hb'.symm.trans hbuf)
    have hA := h.setChannel (c := .chA) (readChA_fits h.cfg_wf) (fun ha => nomatch hp.symm.trans ha)
    have hB := hA.setChannel (c := .chB) (x := readChB n buf') (Channel.fits_configured ha' n)
      (fun ha => nomatch hp.symm.trans ha)
    refine hB.setPhase (by rw [State.setChannel_orc, State.setChannel_orc, hp]; rfl) rfl fun _ d _ c _ => ?_
    cases c <;> exact ⟨rfl, rfl⟩
  | armedWrite n hp ho hn ha =>
    have hA := h.setChannel (c := .chA) (writeChA_fits h.cfg_wf n) (fun ha => nomatch hp.symm.trans ha)
    refine hA.setPhase (by rw [State.setChannel_orc, hp]; rfl) rfl fun _ d hd c hc => ?_
    obtain rfl : d = .write := Cell.holds.inj ((show s.orc.op = .holds d from hd).symm.trans ho)
    obtain rfl : c = .chA := List.mem_singleton.1 hc
    exact ⟨rfl, rfl⟩
  | startedRead a b hp ho ca cb ra rb =>
    have hI := h.setPhase (p := .inflight) (by rw [hp]; rfl) rfl nofun
    have hA := hI.setChannel (c := .chA) (h.chA_fits.startWith ca ra) nofun
    exact hA.setChannel (c := .chB) (h.chB_fits.startWith cb rb) nofun
  | startedWrite a hp ho ca ra =>
    have hI := h.setPhase (p := .inflight) (by rw [hp]; rfl) rfl nofun
    exact hI.setChannel (c := .chA) (h.chA_fits.startWith ca ra) nofun
  | finished d hp ho hf => exact h.setPhase (by rw [hp]; rfl) rfl nofun
  | answeredRead n ws hp ho hn hw => exact h.close _ _ _
  | answeredWrite r hp ho hr =>
    obtain ⟨no_buffer, _⟩ := (h.latched (by rw [hp]; nofun)).write_result ho
    have := h.close s.ck s.orc.result ⟨statusOk, .checksum r⟩
    rw [← no_buffer] at this
    exact this

/-! ## The other agents -/

/-- A FIFO may hold any words within its capacity. -/
theorem State.Inv.setFifo {s : State} (h : s.Inv) {f : FifoName} {ws : List Word}
    (hl : ws.length ≤ fifoDepth s.cfg f) : (s.setFifo f ws).Inv := by
  cases f with
  | cmd => exact { h with cmd_within := hl }
  | data => exact { h with data_within := hl }

theorem State.Inv.fifo_within {s : State} (h : s.Inv) (f : FifoName) : (s.fifo f).length ≤ fifoDepth s.cfg f := by
  cases f with
  | cmd => exact h.cmd_within
  | data => exact h.data_within

theorem State.Inv.pop {s : State} (h : s.Inv) {f : FifoName} {v : Word} {vs : List Word} (hv : s.fifo f = v :: vs) :
    (s.setFifo f vs).Inv := by
  refine h.setFifo (Nat.le_of_succ_le ?_)
  have := h.fifo_within f
  rwa [hv] at this

theorem State.Inv.push {s : State} (h : s.Inv) {f : FifoName} (v : Word)
    (room : (s.fifo f).length < fifoDepth s.cfg f) : (s.setFifo f (s.fifo f ++ [v])).Inv :=
  h.setFifo (by rw [List.length_append]; exact room)

theorem State.Inv.pokeWord {s : State} (h : s.Inv) (a : Nat) (v : Word) : (s.pokeWord a v).Inv :=
  { h with mem_wf := s.pokeWord_wf a v h.mem_wf }

theorem ChannelMoved.inv {c : ChannelId} {s t : State} (h : s.Inv) (ht : ChannelMoved c s t) : t.Inv := by
  cases ht with
  | held => exact h
  | marked f hb hf => exact absurd hf (h.moveWord_not_marked hb f)
  | toFifo m r f hb hd hm hf hr room adm =>
    refine (h.push _ room).setChannel ((h.channel_fits c).moved hb hm) ?_
    rw [State.setFifo_orc]
    exact fun hp d ho hc => h.armed_configured hp d ho c hc
  | toMem m r f v vs hb hd hm hf hr hv adm =>
    refine ((h.pop hv).pokeWord m v).setChannel ((h.channel_fits c).moved hb hm) ?_
    rw [State.pokeWord_orc, State.setFifo_orc]
    exact fun hp d ho hc => h.armed_configured hp d ho c hc

theorem SuMoved.inv {s t : State} (h : s.Inv) (ht : SuMoved s t) : t.Inv := by
  cases ht with
  | quiet p n => exact { h with }
  | popped p n w ws hw => exact { h.pop (f := .cmd) hw with }
  | stored p a w ws hw =>
    exact { h.pop (f := .cmd) hw with
      dev_sorted := Table.sorted_write _ _ _ (Table.sorted_write _ _ _ h.dev_sorted) }
  | pushed p n v room => exact { h.push (f := .data) v room with }

theorem State.Inv.portRequest {s : State} (h : s.Inv) {r : Request} (hr : r.puttable = true) :
    ({ s with reqPort := some r } : State).Inv :=
  { h with port_puttable := fun q hq => by rw [← Option.some.inj hq]; exact hr }

theorem State.Inv.hostPut {s : State} (h : s.Inv) (r : Request) : (hostPut r s).Inv := by
  rcases hostPut_cases r s with e | ⟨hr, _, e⟩ <;> rw [e]
  · exact h
  · exact h.portRequest hr

theorem State.Inv.presentRequest {s : State} (h : s.Inv) (r : Request) : (presentRequest r s).Inv := by
  rcases presentRequest_cases r s with e | ⟨hr, _, e⟩ <;> rw [e]
  · exact h
  · exact h.portRequest hr

theorem State.Inv.hostTake {s : State} (h : s.Inv) : (hostTake s).Inv := by
  unfold Machine.hostTake
  split
  · exact { h with open_no_response := fun _ => rfl }
  · exact h

theorem State.Inv.hostWrite {s : State} (h : s.Inv) (a v : Word) : (hostWrite a v s).Inv := by
  unfold Machine.hostWrite
  split
  · exact h.pokeWord _ _
  · exact h

theorem State.Inv.platformBoot {s : State} (h : s.Inv) : (platformBoot s).Inv := by
  unfold Machine.platformBoot
  split
  · exact { h with
      dev_sorted := List.Pairwise.nil, cmd_within := Nat.zero_le _, data_within := Nat.zero_le _ }
  · exact h

/-! ## Every step -/

/-- Whatever agent moves, the next state meets the invariant. -/
theorem State.Inv.step {s t : State} (h : s.Inv) (e : step s = .next t) : t.Inv := by
  have hu := spendMove_inv h
  apply step_cases e
  case hold => exact hu
  case take => exact fun _ _ _ _ ht => ht.inv hu
  case adv => exact fun _ _ _ ht => ht.inv hu
  case chan => exact fun _ _ _ ht => ht.inv hu
  case su => exact fun _ _ ht => ht.inv hu
  case put => exact fun r _ => hu.hostPut r
  case prs => exact fun r _ => hu.presentRequest r
  case tk => exact fun _ => hu.hostTake
  case hw => exact fun a v _ => hu.hostWrite a v
  case rs => exact fun _ => applyReset_inv hu.cfg_wf hu.mem_wf hu.dev_sorted
  case bt => exact fun _ => hu.platformBoot

/-- A request that may stand on the port is run, or taken and marked: the fetch does not refuse it. -/
theorem fetchRequest_answers {s : State} (h : ∀ r, s.reqPort = some r → r.puttable = true) :
    (∃ i, fetchRequest s = .run i s) ∨ ∃ t, fetchRequest s = .done t := by
  unfold fetchRequest
  cases hr : s.reqPort with
  | none => exact .inr ⟨_, rfl⟩
  | some r =>
    rcases Request.puttable_iff.1 (h r hr) with ⟨i, hd⟩ | ⟨op, hd⟩ <;> simp only [hd]
    · exact .inl ⟨i, rfl⟩
    · exact .inr ⟨_, rfl⟩

/-- From a state of the invariant every move answers a next state. -/
theorem State.Inv.step_answers {s : State} (h : s.Inv) : ∃ t, Machine.step s = .next t := by
  cases hm : nextMove s with
  | orcTake =>
    rcases fetchRequest_answers (spendMove_inv h).port_puttable with ⟨i, e⟩ | ⟨t, e⟩
    · rw [step_run (by rw [hm]; exact e)]; exact exec_answers i _
    · exact ⟨t, step_done (by rw [hm]; exact e)⟩
  | orcAdvance => exact ⟨_, step_orcAdvance hm⟩
  | channel c => exact ⟨_, step_channel hm⟩
  | su =>
    obtain ⟨t, e, _⟩ := su_move_cases (.inl hm)
    exact ⟨t, e⟩
  | suPop => exact ⟨_, step_done (by rw [hm]; rfl)⟩
  | suPush v => exact ⟨_, step_done (by rw [hm]; rfl)⟩
  | put r => exact ⟨_, step_put hm⟩
  | present r => exact ⟨_, step_present hm⟩
  | takeResponse => exact ⟨_, step_takeResponse hm⟩
  | hostWrite a v => exact ⟨_, step_hostWrite hm⟩
  | hostRead a => exact ⟨_, step_hostRead hm⟩
  | reset => exact ⟨_, step_reset hm⟩
  | boot => exact ⟨_, step_boot hm⟩

/-- Settles O4: the move answers, and its agent keeps the invariant. -/
theorem invariantStatesStepToInvariantStates : Obligations.InvariantStatesStepToInvariantStates := by
  intro s h
  obtain ⟨t, e⟩ := h.step_answers
  exact ⟨t, e, h.step e⟩

end Sys2Proof.Machine
end

section
/-! Reads of unwritten cells (10_state.md R34, 43_external_interfaces.md R149): where a step of the orchestrator or of
a channel meets one, and which moves can record the mark. -/

namespace Sys2Proof.Machine

/-! ## Steps 2 to 5 -/

/-- A step that reads an unwritten cell, or records another mark, has no other effect. -/
theorem orcAdvance_of_marked {u : State} {f : Fault} (hg : u.going) (h : transactionStep u = .marked f) :
    orcAdvance u = u.recordFault f := by
  rw [orcAdvance, State.halted_iff.2 hg, h]; rfl

/-- `ORC.op` is read first of all (log 32). -/
theorem transactionStep_op_unwritten {u : State}
    (hp : u.orc.phase = .selected ∨ u.orc.phase = .armed ∨ u.orc.phase = .inflight ∨ u.orc.phase = .completed)
    (ho : u.orc.op = .unwritten) : transactionStep u = .marked .unwritten := by
  rcases hp with hp | hp | hp | hp <;> rw [transactionStep, hp, ho] <;> rfl

theorem transactionStep_selectedWrite_unwritten {u : State} (hp : u.orc.phase = .selected)
    (ho : u.orc.op = .holds .write) (ha : u.chA.busy = false) (hn : u.orc.n = .unwritten) :
    transactionStep u = .marked .unwritten := by
  rw [transactionStep, hp, ho]
  simp only [Cell.read_holds, Access.bind_ok]
  rw [writeStep2, ha, hn]; rfl

theorem transactionStep_selectedRead_unwritten {u : State} (hp : u.orc.phase = .selected)
    (ho : u.orc.op = .holds .read) (ha : u.chA.busy = false) (hb : u.chB.busy = false)
    (h : u.orc.n = .unwritten ∨ u.orc.buf = none) : transactionStep u = .marked .unwritten := by
  have first : transactionStep u = readStep2 u := by rw [transactionStep, hp, ho]; rfl
  rw [first, readStep2, ha, hb]
  cases hn : u.orc.n with
  | unwritten => rfl
  | holds n =>
    have no_buffer : u.orc.buf = none := h.resolve_left (by rw [hn]; nofun)
    rw [Orc.bufAddress, no_buffer]; rfl

/-- Starting an unconfigured channel reads its count, which is unwritten (43_external_interfaces.md R149). -/
theorem startChannel_unwritten {s : State} {c : ChannelId}
    (h : (s.channel c).configured = false ∨ (s.channel c).remaining = .unwritten) :
    startChannel s c = .marked .unwritten := by
  cases hc : (s.channel c).configured with
  | false => rw [startChannel, hc]; rfl
  | true =>
    have no_count := h.resolve_left (by rw [hc]; nofun)
    rw [startChannel, if_pos hc, no_count]; rfl

/-- All a start can come to: the channel's own descriptor changes, or an unwritten cell has been read. -/
theorem startChannel_cases (s : State) (c : ChannelId) :
    startChannel s c = .marked .unwritten ∨ ∃ x, startChannel s c = .ok (s.setChannel c x) := by
  cases hc : (s.channel c).configured with
  | false => exact .inl (startChannel_unwritten (.inl hc))
  | true =>
    cases hr : (s.channel c).remaining with
    | unwritten => exact .inl (startChannel_unwritten (.inr hr))
    | holds r => exact .inr ⟨_, startChannel_eq_ok.2 ⟨hc, r, hr, rfl⟩⟩

theorem step3_chA_unwritten {u : State} (h : u.chA.configured = false ∨ u.chA.remaining = .unwritten)
    (d : Direction) : step3 d u = .marked .unwritten := by
  have start := startChannel_unwritten (s := u) (c := .chA) h
  cases d <;> rw [step3, startedChannels, startChannels, start] <;> rfl

theorem step3_chB_unwritten {u : State} (h : u.chB.configured = false ∨ u.chB.remaining = .unwritten) :
    step3 .read u = .marked .unwritten := by
  rw [step3, startedChannels, startChannels]
  rcases startChannel_cases u .chA with e | ⟨x, e⟩
  · rw [e]; rfl
  · have start := startChannel_unwritten (s := u.setChannel .chA x) (c := .chB) h
    rw [e, Access.bind_ok, startChannels, start]; rfl

theorem transactionStep_armed_chA_unwritten {u : State} (hp : u.orc.phase = .armed)
    (h : u.chA.configured = false ∨ u.chA.remaining = .unwritten) : transactionStep u = .marked .unwritten := by
  rw [transactionStep, hp]
  cases u.orc.op with
  | unwritten => rfl
  | holds d => exact step3_chA_unwritten h d

theorem transactionStep_armed_chB_unwritten {u : State} (hp : u.orc.phase = .armed) (ho : u.orc.op = .holds .read)
    (h : u.chB.configured = false ∨ u.chB.remaining = .unwritten) : transactionStep u = .marked .unwritten := by
  rw [transactionStep, hp, ho]
  exact step3_chB_unwritten h

theorem transactionStep_completedRead_unwritten {u : State} (hp : u.orc.phase = .completed)
    (ho : u.orc.op = .holds .read) (h : u.orc.n = .unwritten ∨ (u.orc.n ≠ .holds 0 ∧ u.orc.buf = none)) :
    transactionStep u = .marked .unwritten := by
  have last : transactionStep u = readStep5 u := by rw [transactionStep, hp, ho]; rfl
  rw [last, readStep5]
  cases hn : u.orc.n with
  | unwritten => rfl
  | holds n =>
    obtain ⟨some_words, no_buffer⟩ := h.resolve_left (by rw [hn]; nofun)
    have hn0 : n ≠ 0 := fun e => some_words (by rw [hn, e])
    rw [Cell.read_holds, Access.bind_ok, receivedWords, if_neg hn0, Orc.bufAddress, no_buffer]; rfl

theorem transactionStep_completedWrite_unwritten {u : State} (hp : u.orc.phase = .completed)
    (ho : u.orc.op = .holds .write) (hr : u.orc.result = .unwritten) : transactionStep u = .marked .unwritten := by
  rw [transactionStep, hp, ho]
  simp only [Cell.read_holds, Access.bind_ok]
  rw [writeStep5, hr]; rfl

/-- ORC's step from an agenda, where its reading is marked. -/
theorem step_orcAdvance_marked {s : State} {rest : List Move} {f : Fault} (ha : s.agenda = .orcAdvance :: rest)
    (hg : s.going) (h : transactionStep { s with agenda := rest } = .marked f) :
    step s = .next (State.recordFault f { s with agenda := rest }) := by
  rw [step_orcAdvance (nextMove_of_agenda ha), spendMove_of_agenda ha, orcAdvance_of_marked (by exact hg) h]

/-- ORC's step 2 from an agenda, with chA busy (43_external_interfaces.md R148). -/
theorem step_orcAdvance_busyA {s : State} {rest : List Move} {d : Direction} (ha : s.agenda = .orcAdvance :: rest)
    (hg : s.going) (hp : s.orc.phase = .selected) (ho : s.orc.op = .holds d) (hb : s.chA.busy = true) :
    step s = .next (State.recordFault .channelBusy { s with agenda := rest }) := by
  have running : State.halted { s with agenda := rest } = false := State.halted_iff.2 hg
  rw [step_orcAdvance (nextMove_of_agenda ha), spendMove_of_agenda ha, orcAdvance, running,
    transactionStep_busyA (u := { s with agenda := rest }) hp ho hb]
  rfl

/-! ## A channel's move -/

/-- The enabling condition of a channel's move at its FIFO end: room, or an entry (R150, R151). -/
def FifoEnables (s : State) (d : ChannelDir) (f : FifoName) : Prop :=
  (d = .memToFifo → (s.fifo f).length < fifoDepth s.cfg f) ∧ (d = .fifoToMem → s.fifo f ≠ [])

theorem moveWord_of_not_enabled {s : State} {c : ChannelId} {d : ChannelDir} {f : FifoName}
    (hd : (s.channel c).dir = .holds d) (hf : (s.channel c).fifo = .holds f) (dis : ¬ FifoEnables s d f) :
    moveWord s c = .stuck := by
  rw [moveWord, hd, hf]
  simp only [Cell.read_holds, Access.bind_ok]
  cases d with
  | memToFifo =>
    have full : ¬ (s.fifo f).length < fifoDepth s.cfg f := fun room => dis ⟨fun _ => room, nofun⟩
    simp only [fifoRoom, if_neg full, Access.bind_stuck]
  | fifoToMem =>
    have empty : s.fifo f = [] := by
      by_contra some_entry
      exact dis ⟨nofun, fun _ => some_entry⟩
    simp only [fifoPop, empty, Access.bind_stuck]

/-- What is left of a move once its FIFO end is enabled: the address, the check of the access there, and last the count
(log 32). The state between, `move`, is that with the word moved and the descriptor as it was. -/
theorem moveWord_of_enabled {s : State} {c : ChannelId} {d : ChannelDir} {f : FifoName}
    (hd : (s.channel c).dir = .holds d) (hf : (s.channel c).fifo = .holds f) (en : FifoEnables s d f) :
    ∃ move : Nat → State, moveWord s c =
      (s.channel c).mem.read.bind fun m => (checkAccess s.cfg m).bind fun _ =>
        (s.channel c).remaining.read.bind fun r => .ok ((move m).setChannel c ((s.channel c).moved m r)) := by
  rw [moveWord, hd, hf]
  simp only [Cell.read_holds, Access.bind_ok]
  cases d with
  | memToFifo =>
    have room := en.1 rfl
    refine ⟨fun m => s.setFifo f (s.fifo f ++ [s.wordAt m]), ?_⟩
    simp only [fifoPush, fifoRoom, if_pos room, Access.bind_ok, memRead]
    congr 1; funext m
    cases checkAccess s.cfg m <;> rfl
  | fifoToMem =>
    obtain ⟨v, vs, entries⟩ := List.exists_cons_of_ne_nil (en.2 rfl)
    refine ⟨fun m => (s.setFifo f vs).pokeWord m v, ?_⟩
    rw [fifoPop_eq_ok.2 ⟨v, vs, entries, rfl⟩, Access.bind_ok]
    simp only [memWrite, State.setFifo_cfg]
    congr 1; funext m
    cases checkAccess s.cfg m <;> rfl

theorem moveWord_end_unwritten {s : State} {c : ChannelId}
    (h : (s.channel c).dir = .unwritten ∨ (s.channel c).fifo = .unwritten) : moveWord s c = .marked .unwritten := by
  rw [moveWord]
  cases hd : (s.channel c).dir with
  | unwritten => rfl
  | holds d => rw [h.resolve_left (by rw [hd]; nofun)]; rfl

theorem moveWord_mem_unwritten {s : State} {c : ChannelId} {d : ChannelDir} {f : FifoName}
    (hd : (s.channel c).dir = .holds d) (hf : (s.channel c).fifo = .holds f) (en : FifoEnables s d f)
    (hm : (s.channel c).mem = .unwritten) : moveWord s c = .marked .unwritten := by
  obtain ⟨_, e⟩ := moveWord_of_enabled hd hf en
  rw [e, hm]; rfl

theorem moveWord_unadmitted {s : State} {c : ChannelId} {d : ChannelDir} {f : FifoName} {m : Nat}
    (hd : (s.channel c).dir = .holds d) (hf : (s.channel c).fifo = .holds f) (en : FifoEnables s d f)
    (hm : (s.channel c).mem = .holds m) (aligned : m % 4 = 0) (hadm : admits s.cfg m = false) :
    moveWord s c = .stuck := by
  obtain ⟨_, e⟩ := moveWord_of_enabled hd hf en
  have stuck : checkAccess s.cfg m = .stuck := by rw [checkAccess, if_pos aligned, hadm]; rfl
  rw [e, hm, Cell.read_holds, Access.bind_ok, stuck]; rfl

theorem moveWord_remaining_unwritten {s : State} {c : ChannelId} {d : ChannelDir} {f : FifoName} {m : Nat}
    (hd : (s.channel c).dir = .holds d) (hf : (s.channel c).fifo = .holds f) (en : FifoEnables s d f)
    (hm : (s.channel c).mem = .holds m) (hadm : admits s.cfg m = true) (hr : (s.channel c).remaining = .unwritten) :
    moveWord s c = .marked .unwritten := by
  obtain ⟨_, e⟩ := moveWord_of_enabled hd hf en
  rw [e, hm, Cell.read_holds, Access.bind_ok, checkAccess_eq_ok (u := ()) |>.2 hadm, Access.bind_ok, hr]; rfl

/-- A busy channel's step from an agenda, where its reading is marked. -/
theorem step_channel_marked {s : State} {rest : List Move} {c : ChannelId} {f : Fault}
    (ha : s.agenda = .channel c :: rest) (hb : (s.channel c).busy = true)
    (h : moveWord { s with agenda := rest } c = .marked f) :
    step s = .next (State.recordFault f { s with agenda := rest }) := by
  rw [step_channel (nextMove_of_agenda ha), spendMove_of_agenda ha, channelStep, if_pos (by exact hb), h]; rfl

/-- The same where the channel has no step: nothing but the agenda changes (log 4). -/
theorem step_channel_stuck {s : State} {rest : List Move} {c : ChannelId}
    (ha : s.agenda = .channel c :: rest) (hb : (s.channel c).busy = true)
    (h : moveWord { s with agenda := rest } c = .stuck) : step s = .next { s with agenda := rest } := by
  rw [step_channel (nextMove_of_agenda ha), spendMove_of_agenda ha, channelStep, if_pos (by exact hb), h]; rfl

/-! ## The checksum engine -/

theorem Ck.sums_unwritten {ck : Ck} (h : ck.sum1 = .unwritten ∨ ck.sum2 = .unwritten) :
    ck.sums = .marked .unwritten := by
  rw [Ck.sums]
  cases h1 : ck.sum1 with
  | unwritten => rfl
  | holds a => rw [h.resolve_left (by rw [h1]; nofun)]; rfl

/-! ## Which moves record `F_UNWRITTEN` -/

/-- Taking a request records no unwritten read: its meaning writes the cells it reads. -/
theorem Taken.unwritten_eq {u t : State} {r : Request} (h : Taken u r t) :
    t.orc.faults.unwritten = u.orc.faults.unwritten := by
  cases h <;> rfl

theorem SuMoved.unwritten_eq {u t : State} (h : SuMoved u t) :
    t.orc.faults.unwritten = u.orc.faults.unwritten := by
  cases h <;> rfl

/-- Only steps 2 to 5 and the channels' moves record an unwritten read. -/
theorem unwritten_recorded_by {s t : State} (h : step s = .next t) (h0 : s.orc.faults.unwritten = false) :
    t.orc.faults.unwritten = true → nextMove s = .orcAdvance ∨ ∃ c, nextMove s = .channel c := by
  have unmarked : (spendMove s).orc.faults.unwritten = false := by rw [spendMove_orc]; exact h0
  apply step_cases h
  case adv => exact fun hm _ _ _ _ => .inl hm
  case chan => exact fun c hm _ _ _ => .inr ⟨c, hm⟩
  case take => exact fun _ _ _ _ ht h1 => by rw [ht.unwritten_eq, unmarked] at h1; cases h1
  case su => exact fun _ _ ht h1 => by rw [ht.unwritten_eq, unmarked] at h1; cases h1
  case rs => exact nofun
  all_goals simp [h0]

/-! ## The statement -/

/-- Settles O39: the reads of steps 2 to 5, step 2 against a busy chA, a channel's reads with what decides before them,
the sums, and the moves that can record the mark. -/
theorem unwrittenReadsAreMarked : Obligations.UnwrittenReadsAreMarked := by
  refine ⟨fun s rest ha hg h => step_orcAdvance_marked (f := .unwritten) ha hg ?_,
    fun s rest d ha hg hp ho hb => step_orcAdvance_busyA ha hg hp ho hb,
    fun s rest c ha hb => ?_,
    fun ck w h => ?_,
    fun s t h h0 => unwritten_recorded_by h h0⟩
  · rcases h with ⟨hp, _, _, ho⟩ | ⟨hp, ho⟩ | ⟨hp, ho, hA, hn⟩ | ⟨hp, ho, hA, hB, h⟩ |
      ⟨hp, h⟩ | ⟨hp, ho, h⟩ | ⟨hp, ho, h⟩ | ⟨hp, ho, h⟩
    · exact transactionStep_op_unwritten (.inl hp) ho
    · exact transactionStep_op_unwritten (.inr hp) ho
    · exact transactionStep_selectedWrite_unwritten hp ho hA hn
    · exact transactionStep_selectedRead_unwritten hp ho hA hB h
    · exact transactionStep_armed_chA_unwritten hp h
    · exact transactionStep_armed_chB_unwritten hp ho h
    · exact transactionStep_completedRead_unwritten hp ho h
    · exact transactionStep_completedWrite_unwritten hp ho h
  · refine ⟨fun h => ?_, fun d f hd hf => ⟨fun dis => ?_, fun en hm => ?_, fun m en hm =>
      ⟨fun aligned hadm => ?_, fun hadm hr => ?_⟩⟩⟩
    · exact step_channel_marked (f := .unwritten) ha hb (moveWord_end_unwritten h)
    · exact step_channel_stuck ha hb (moveWord_of_not_enabled hd hf dis)
    · exact step_channel_marked (f := .unwritten) ha hb (moveWord_mem_unwritten hd hf en hm)
    · exact step_channel_stuck ha hb (moveWord_unadmitted hd hf en hm aligned hadm)
    · exact step_channel_marked (f := .unwritten) ha hb (moveWord_remaining_unwritten hd hf en hm hadm hr)
  · rw [ckAccum, ckResult, Ck.sums_unwritten h]
    exact ⟨rfl, rfl⟩

end Sys2Proof.Machine
end

section
/-! System memory and the FIFOs (20_memory.md): an admitted word reads back, a buffer over TXBUF is marked, an access
that is not admitted has no step, and the host's writes reach neither TXBUF nor an owned range. -/

namespace Sys2Proof.Machine

/-! ## Accesses that are not enabled -/

/-- A step with neither a value nor a mark leaves the state (log 29). -/
theorem State.settle_eq_self {s : State} {x : Access State} (no_value : ∀ t, x ≠ .ok t)
    (no_mark : ∀ f, x ≠ .marked f) : s.settle x = s := by
  rcases s.settle_cases x with ⟨t, e, _⟩ | ⟨_, e⟩ | ⟨f, e, _⟩
  · exact absurd e (no_value t)
  · exact e
  · exact absurd e (no_mark f)

/-- Addresses do not wrap (20_memory.md R40). -/
theorem admits_eq_false_of_le {c : Cfg} {a : Nat} (h : 2 ^ 32 ≤ a) : admits c a = false := by
  have out : decide (a < 2 ^ 32) = false := decide_eq_false (Nat.not_lt.2 h)
  rw [admits, out, Bool.false_and, Bool.false_and]

theorem checkAccess_of_unadmitted {c : Cfg} {a : Nat} (aligned : a % 4 = 0) (out : admits c a = false) :
    checkAccess c a = .stuck := by
  rw [checkAccess, if_pos aligned, out]; rfl

theorem memRead_of_unadmitted {s : State} {a : Nat} (aligned : a % 4 = 0) (out : admits s.cfg a = false) :
    memRead s a = .stuck := by
  rw [memRead, checkAccess_of_unadmitted aligned out, Access.bind_stuck]

theorem memWrite_of_unadmitted {s : State} {a : Nat} (v : Word) (aligned : a % 4 = 0)
    (out : admits s.cfg a = false) : memWrite s a v = .stuck := by
  rw [memWrite, checkAccess_of_unadmitted aligned out, Access.bind_stuck]

theorem fifoPush_of_full {s : State} {f : FifoName} (v : Word) (full : fifoDepth s.cfg f ≤ (s.fifo f).length) :
    fifoPush s f v = .stuck := by
  rw [fifoPush, fifoRoom, if_neg (Nat.not_lt.2 full), Access.bind_stuck]

theorem fifoPop_of_empty {s : State} {f : FifoName} (empty : s.fifo f = []) : fifoPop s f = .stuck := by
  rw [fifoPop, empty]

/-! ## READ and WRITE past their checks -/

theorem execRead_of_overlap {s : State} {address wc buf : Word} (hr : s.Ready)
    (hv : validateRead s.cfg wc buf = .overlap) :
    execRead address wc buf s = .next (s.takeRequest.recordFault .overlap) := by
  rw [execRead, State.accepting_iff.2 hr, hv]; rfl

theorem execWrite_of_overlap {s : State} {address wc buf : Word} (hr : s.Ready)
    (hv : validateWrite s.cfg wc buf = .overlap) :
    execWrite address wc buf s = .next (s.takeRequest.recordFault .overlap) := by
  rw [execWrite, State.accepting_iff.2 hr, hv]; rfl

theorem execRead_of_accept {s : State} {address wc buf : Word} (hr : s.Ready)
    (hv : validateRead s.cfg wc buf = .accept) :
    execRead address wc buf s = .next (s.settle (readStep1 address wc buf s)) := by
  rw [execRead, State.accepting_iff.2 hr, hv]; rfl

theorem execWrite_of_accept {s : State} {address wc buf : Word} (hr : s.Ready)
    (hv : validateWrite s.cfg wc buf = .accept) :
    execWrite address wc buf s = .next (s.settle (writeStep1 address wc buf s)) := by
  rw [execWrite, State.accepting_iff.2 hr, hv]; rfl

/-! ## Requests with an access outside `MEM_ADMITTED` -/

theorem execChecksum_of_unadmitted {s : State} {base count : Word} (seed : Dword) (hb : base.toNat % 4 = 0)
    (out : ¬ AdmittedWords s.cfg base.toNat count.toNat) : execChecksum base count seed s = .next s := by
  rcases execChecksum_cases base count seed s with e | ⟨_, misaligned, _⟩ | ⟨_, _, admitted, _⟩
  · exact e
  · exact absurd hb misaligned
  · exact absurd admitted out

/-- READ step 1 stores the header in TXBUF (42_orchestrator.md R117). -/
theorem settle_readStep1_of_unadmitted {s : State} (address wc buf : Word) (ht : s.cfg.txbufBase.toNat % 4 = 0)
    (out : ¬ AdmittedWords s.cfg s.cfg.txbufBase.toNat 5) : s.settle (readStep1 address wc buf s) = s := by
  refine State.settle_eq_self (fun t e => ?_) fun _ => readStep1_not_marked ht
  obtain ⟨admitted, _⟩ := readStep1_eq_ok.1 e
  exact out admitted

/-- WRITE step 1 reads the source and stores header and payload in TXBUF (42_orchestrator.md R126). -/
theorem settle_writeStep1_of_unadmitted {s : State} (address : Word) {wc buf : Word}
    (ht : s.cfg.txbufBase.toNat % 4 = 0) (hb : buf.toNat % 4 = 0)
    (out : ¬ AdmittedWords s.cfg buf.toNat (payloadWords wc) ∨
      ¬ AdmittedWords s.cfg s.cfg.txbufBase.toNat (5 + payloadWords wc)) :
    s.settle (writeStep1 address wc buf s) = s := by
  refine State.settle_eq_self (fun t e => ?_) fun _ => writeStep1_not_marked ht hb
  obtain ⟨source, txbuf, _⟩ := writeStep1_eq_ok.1 e
  exact out.elim (fun no => no source) fun no => no txbuf

/-! ## The host's writes -/

theorem inTxbuf_iff {c : Cfg} {a : Nat} :
    inTxbuf c a = true ↔ c.txbufBase.toNat ≤ a ∧ a < c.txbufBase.toNat + 4 * c.txbufWords := by
  simp [inTxbuf]

/-- A byte of a range is none of the four bytes of a word clear of it. -/
theorem WordClear.outside {a base words b : Nat} (h : WordClear a base words) (lo : base ≤ b)
    (hi : b < base + 4 * words) : b < a ∨ a + 4 ≤ b := by
  unfold WordClear at h
  omega

/-- A host write changes no byte but of a word the host has. -/
theorem hostWrite_byteAt {s : State} {a : Word} {b : Nat} (v : Word)
    (h : s.HostsWord a → b < a.toNat ∨ a.toNat + 4 ≤ b) : (hostWrite a v s).byteAt b = s.byteAt b := by
  by_cases may : s.hostMayAccess a = true
  · rw [hostWrite, if_pos may]
    exact s.byteAt_pokeWord a.toNat b v (h (State.hostMayAccess_iff.1 may))
  · rw [hostWrite, if_neg may]

theorem hostWrite_keeps_txbuf {s : State} {b : Nat} (a v : Word) (h : inTxbuf s.cfg b = true) :
    (hostWrite a v s).byteAt b = s.byteAt b := by
  obtain ⟨lo, hi⟩ := inTxbuf_iff.1 h
  exact hostWrite_byteAt v fun own => own.outside_txbuf.outside lo hi

theorem hostWrite_keeps_owned {s : State} {base words b : Nat} (a v : Word) (h : s.owned = some (base, words))
    (lo : base ≤ b) (hi : b < base + 4 * words) : (hostWrite a v s).byteAt b = s.byteAt b :=
  hostWrite_byteAt v fun own => (own.outside_owned base words h).outside lo hi

@[simp] theorem spendMove_owned (s : State) : (spendMove s).owned = s.owned := by
  obtain ⟨_, _, e⟩ := spendMove_eq s; rw [e]

@[simp] theorem spendMove_byteAt (s : State) (a : Nat) : (spendMove s).byteAt a = s.byteAt a := by
  obtain ⟨_, _, e⟩ := spendMove_eq s
  rw [e]
  exact State.byteAt_congr rfl rfl rfl a

/-! ## The statements -/

/-- Settles O25: the overlap is the last check, and its answer is the mark on the request taken. -/
theorem overlappingBuffersAreMarked : Obligations.OverlappingBuffersAreMarked := by
  intro s address wc buf hr hw hb
  refine ⟨fun meets => ?_, fun fits meets => ?_⟩
  · exact execRead_of_overlap hr (validateRead_overlap hw hb meets)
  · exact execWrite_of_overlap hr (validateWrite_overlap hw hb fits meets)

/-- Settles O27: past the checks, the step comes to a value only where all its accesses are admitted, and to a mark only
where one is misaligned. -/
theorem unadmittedRequestsAreStuck : Obligations.UnadmittedRequestsAreStuck := by
  intro s hr ht
  refine ⟨fun base count seed hb out => execChecksum_of_unadmitted seed hb out,
    fun address wc buf hw hb clear out => ?_, fun address wc buf hw hb fits clear out => ?_,
    fun address wc buf hw hb fits clear out => ?_⟩
  · rw [exec, execRead_of_accept hr (validateRead_accept hw hb clear),
      settle_readStep1_of_unadmitted address wc buf ht out]
  · rw [exec, execWrite_of_accept hr (validateWrite_accept hw hb fits clear),
      settle_writeStep1_of_unadmitted address ht hb (.inl out)]
  · rw [exec, execWrite_of_accept hr (validateWrite_accept hw hb fits clear),
      settle_writeStep1_of_unadmitted address ht hb (.inr out)]

/-- Settles O55: the word a host write changes is clear of TXBUF and of the owned range. -/
theorem ownedRangesAreNotTheHosts : Obligations.OwnedRangesAreNotTheHosts := by
  intro s t a v hm h
  rw [step_hostWrite hm] at h
  cases h
  refine ⟨fun b hb => ?_, fun base words b ho lo hi => ?_⟩
  · rw [hostWrite_keeps_txbuf a v (by rw [spendMove_cfg]; exact hb), spendMove_byteAt]
  · rw [hostWrite_keeps_owned a v (by rw [spendMove_owned]; exact ho) lo hi, spendMove_byteAt]

/-- Settles O57: an admitted store is `pokeWord`, and the other accesses fail their check. -/
theorem memoryHoldsWords : Obligations.MemoryHoldsWords := by
  intro s a v
  refine ⟨fun adm => ⟨s.pokeWord a v, memWrite_eq_ok.2 ⟨adm, rfl⟩, ?_, ?_, rfl, s.pokeWord_wf a v⟩,
    fun misaligned => ⟨memRead_eq_marked.2 ⟨misaligned, rfl⟩, memWrite_eq_marked.2 ⟨misaligned, rfl⟩⟩,
    fun aligned out => ⟨memRead_of_unadmitted aligned out, memWrite_of_unadmitted v aligned out⟩,
    admits_eq_false_of_le⟩
  · exact memRead_eq_ok.2 ⟨adm, (s.wordAt_pokeWord_same a v).symm⟩
  · exact fun b outside => s.byteAt_pokeWord a b v outside

/-- Settles O58: a push is enabled by room and a pop by an entry. -/
theorem fifosAreFirstInFirstOut : Obligations.FifosAreFirstInFirstOut := by
  intro s f v
  refine ⟨fun room => fifoPush_eq_ok.2 ⟨room, rfl⟩, fifoPush_of_full v, fun w ws entries => ?_, fifoPop_of_empty,
    fun ws g => s.setFifo_fifo f g ws⟩
  exact fifoPop_eq_ok.2 ⟨w, ws, entries, rfl⟩

end Sys2Proof.Machine
end

section
/-! The encodings (30_encoding.md): what a packet's words hold bit by bit, that decoding and encoding are inverse to
each other, and which op codes and packets are rejected. -/

namespace Sys2Proof.Machine

/-! ## Words put together from fields -/

theorem ofBool_getLsbD {n : Nat} (x : BitVec n) (i : Nat) : BitVec.ofBool (x.getLsbD i) = x.extractLsb' i 1 := by
  apply BitVec.eq_of_getLsbD_eq
  intro j hj
  simp [show j = 0 by omega]

section
variable {a b c : Nat}

theorem extractLsb'_append_append_left (x : BitVec a) (y : BitVec b) (z : BitVec c) :
    (x ++ y ++ z).extractLsb' (b + c) a = x := by
  rw [BitVec.extractLsb'_append_eq_of_le (Nat.le_add_left c b), Nat.add_sub_cancel, BitVec.extractLsb'_append_eq_left]

theorem extractLsb'_append_append_middle (x : BitVec a) (y : BitVec b) (z : BitVec c) :
    (x ++ y ++ z).extractLsb' c b = y := by
  rw [BitVec.extractLsb'_append_eq_of_le le_rfl, Nat.sub_self, BitVec.extractLsb'_append_eq_right]

/-- Fields in a row are the same number however they are grouped. -/
theorem toNat_append_append (x : BitVec a) (y : BitVec b) (z : BitVec c) :
    (x ++ (y ++ z)).toNat = (x ++ y ++ z).toNat := by
  simp [BitVec.toNat_append, Nat.shiftLeft_or_distrib, ← Nat.shiftLeft_add, Nat.or_assoc]

theorem append_append_extractLsb' (w : BitVec (a + b + c)) :
    w.extractLsb' (b + c) a ++ w.extractLsb' c b ++ w.extractLsb' 0 c = w := by
  rw [BitVec.extractLsb'_append_extractLsb'_eq_extractLsb' (Nat.add_comm b c),
    BitVec.extractLsb'_append_extractLsb'_eq_extractLsb' (Nat.zero_add c).symm, BitVec.extractLsb'_eq_self]

theorem zero_append_eq_setWidth {n : Nat} (x : BitVec a) : 0#n ++ x = x.setWidth (n + a) := by
  apply BitVec.eq_of_getLsbD_eq
  intro i hi
  rw [BitVec.getLsbD_append]
  simpa [hi] using fun h => BitVec.lt_of_getLsbD (x := x) h

theorem append_shiftRight (x : BitVec a) (y : BitVec b) : (x ++ y) >>> b = x.setWidth (a + b) := by
  apply BitVec.eq_of_getLsbD_eq
  intro i hi
  simp [BitVec.getLsbD_append, hi]

/-- A left shift by the width of the high field drops it. -/
theorem append_shiftLeft (x : BitVec a) (y : BitVec b) : (x ++ y) <<< a = y.setWidth (a + b) <<< a := by
  apply BitVec.eq_of_getLsbD_eq
  intro i hi
  by_cases h : i < a
  · simp [h]
  · simp [BitVec.getElem_append, h, hi, show i - a < b by omega]

theorem setWidth_shiftLeft_shiftRight (y : BitVec b) : y.setWidth (a + b) <<< a >>> a = y.setWidth (a + b) := by
  apply BitVec.eq_of_getLsbD_eq
  intro i hi
  by_cases h : i < b
  · simp [hi, h]
  · simp [hi, y.getLsbD_of_ge i (Nat.not_lt.1 h)]

theorem shiftLeft_or_eq_append (x : BitVec a) (y : BitVec b) :
    x.setWidth (a + b) <<< b ||| y.setWidth (a + b) = x ++ y := by
  rw [← BitVec.setWidth_append_eq_shiftLeft_setWidth_or, BitVec.setWidth_eq]

end

theorem address_parts (a : Word) : a.extractLsb' 19 13 ++ a.extractLsb' 3 16 ++ a.extractLsb' 0 3 = a :=
  append_append_extractLsb' (a := 13) (b := 16) (c := 3) a

/-! ## The CA field's top half word, which stands in W0 (30_encoding.md R68) -/

/-- RW, AS, BT and the top 13 address bits. -/
def caTop (read registerSpace linearBurst : Bool) (addressTop : BitVec 13) : BitVec 16 :=
  BitVec.ofBool read ++ BitVec.ofBool registerSpace ++ BitVec.ofBool linearBurst ++ addressTop

section
variable (read rs lin : Bool) (top : BitVec 13)

theorem caTop_read : (caTop read rs lin top).getLsbD 15 = read := by
  rw [caTop, BitVec.getLsbD_append, BitVec.getLsbD_append, BitVec.getLsbD_append]
  simp

theorem caTop_registerSpace : (caTop read rs lin top).getLsbD 14 = rs := by
  rw [caTop, BitVec.getLsbD_append, BitVec.getLsbD_append, BitVec.getLsbD_append]
  simp

theorem caTop_linearBurst : (caTop read rs lin top).getLsbD 13 = lin := by
  rw [caTop, BitVec.getLsbD_append, BitVec.getLsbD_append]
  simp

theorem caTop_addressTop : (caTop read rs lin top).extractLsb' 0 13 = top := BitVec.extractLsb'_append_eq_right

end

/-- W0: a marker above the CA field's top half word. -/
def headerWord0 (marker : BitVec 16) (read rs lin : Bool) (top : BitVec 13) : Word := marker ++ caTop read rs lin top

section
variable (marker : BitVec 16) (read rs lin : Bool) (top : BitVec 13)

@[simp] theorem headerWord0_marker : (headerWord0 marker read rs lin top).extractLsb' 16 16 = marker :=
  BitVec.extractLsb'_append_eq_left

theorem headerWord0_getLsbD {i : Nat} (h : i < 16) :
    (headerWord0 marker read rs lin top).getLsbD i = (caTop read rs lin top).getLsbD i := by
  rw [headerWord0, BitVec.getLsbD_append, if_pos h]

theorem headerWord0_read : (headerWord0 marker read rs lin top).getLsbD 15 = read := by
  rw [headerWord0_getLsbD _ _ _ _ _ (by decide), caTop_read]

theorem headerWord0_registerSpace : (headerWord0 marker read rs lin top).getLsbD 14 = rs := by
  rw [headerWord0_getLsbD _ _ _ _ _ (by decide), caTop_registerSpace]

theorem headerWord0_linearBurst : (headerWord0 marker read rs lin top).getLsbD 13 = lin := by
  rw [headerWord0_getLsbD _ _ _ _ _ (by decide), caTop_linearBurst]

@[simp] theorem headerWord0_addressTop : (headerWord0 marker read rs lin top).extractLsb' 0 13 = top := by
  rw [headerWord0, BitVec.extractLsb'_append_eq_of_add_le (by decide), caTop_addressTop]

/-- The table of R68 lists the four parts one after another. -/
theorem headerWord0_eq :
    headerWord0 marker read rs lin top =
      marker ++ BitVec.ofBool read ++ BitVec.ofBool rs ++ BitVec.ofBool lin ++ top := by
  apply BitVec.eq_of_toNat_eq
  rw [headerWord0, caTop]
  repeat rw [BitVec.toNat_append]
  simp only [Nat.shiftLeft_or_distrib, ← Nat.shiftLeft_add, Nat.or_assoc]

end

theorem headerWord0_fields (w : Word) :
    headerWord0 (w.extractLsb' 16 16) (w.getLsbD 15) (w.getLsbD 14) (w.getLsbD 13) (w.extractLsb' 0 13) = w := by
  rw [headerWord0_eq, ofBool_getLsbD, ofBool_getLsbD, ofBool_getLsbD]
  iterate 4 rw [BitVec.extractLsb'_append_extractLsb'_eq_extractLsb' (by rfl)]
  rw [BitVec.extractLsb'_eq_self]

/-! ## W1 and W4 (30_encoding.md R69, R72) -/

/-- W1: two address fields about the reserved bits. -/
def headerWord1 (middle : BitVec 16) (reserved : BitVec 13) (low : BitVec 3) : Word := middle ++ reserved ++ low

section
variable (middle : BitVec 16) (reserved : BitVec 13) (low : BitVec 3)

@[simp] theorem headerWord1_middle : (headerWord1 middle reserved low).extractLsb' 16 16 = middle :=
  extractLsb'_append_append_left middle reserved low

@[simp] theorem headerWord1_reserved : (headerWord1 middle reserved low).extractLsb' 3 13 = reserved :=
  extractLsb'_append_append_middle middle reserved low

@[simp] theorem headerWord1_low : (headerWord1 middle reserved low).extractLsb' 0 3 = low :=
  BitVec.extractLsb'_append_eq_right

end

theorem headerWord1_fields (w : Word) :
    headerWord1 (w.extractLsb' 16 16) (w.extractLsb' 3 13) (w.extractLsb' 0 3) = w :=
  append_append_extractLsb' (a := 16) (b := 13) (c := 3) w

/-- W4: the entry, the reserved bits and the pin-direction mask. -/
def ctrlWord (entry : BitVec 16) (reserved mask : Byte) : Word := entry ++ reserved ++ mask

section
variable (entry : BitVec 16) (reserved mask : Byte)

@[simp] theorem ctrlWord_entry : (ctrlWord entry reserved mask).extractLsb' 16 16 = entry :=
  extractLsb'_append_append_left entry reserved mask

@[simp] theorem ctrlWord_reserved : (ctrlWord entry reserved mask).extractLsb' 8 8 = reserved :=
  extractLsb'_append_append_middle entry reserved mask

@[simp] theorem ctrlWord_mask : (ctrlWord entry reserved mask).extractLsb' 0 8 = mask :=
  BitVec.extractLsb'_append_eq_right

end

theorem ctrlWord_fields (w : Word) :
    ctrlWord (w.extractLsb' 16 16) (w.extractLsb' 8 8) (w.extractLsb' 0 8) = w :=
  append_append_extractLsb' (a := 16) (b := 8) (c := 8) w

theorem ctrlWord_eq {w : Word} {read : Bool} (reserved : w.extractLsb' 8 8 = 0#8)
    (mask : w.extractLsb' 0 8 = pinMask read) : ctrlWord (w.extractLsb' 16 16) 0#8 (pinMask read) = w := by
  rw [← reserved, ← mask, ctrlWord_fields]

/-! ## The header's encoder and decoder -/

theorem encodeCa_eq (ca : CaFields) : encodeCa ca =
    [headerWord0 0xFF00#16 ca.read ca.registerSpace ca.linearBurst (ca.address.extractLsb' 19 13),
      headerWord1 (ca.address.extractLsb' 3 16) 0#13 (ca.address.extractLsb' 0 3),
      ca.waitCycles, ca.wordCount - 1] := by
  rw [headerWord0_eq, encodeCa, headerWord1]

/-- W3 holds the word count minus 1, so a count of at least 1 is not written as `0xFFFFFFFF` (30_encoding.md R71). -/
theorem sub_one_eq_allOnes_iff {wc : Word} : wc - 1 = 0xFFFFFFFF#32 ↔ wc = 0 := by bv_omega

theorem add_one_eq_zero_iff {w : Word} : w + 1 = 0 ↔ w = 0xFFFFFFFF#32 := by bv_omega

/-- The fields of a header's words are the ones encoded. -/
theorem caFields_headerWords (marker : BitVec 16) (reserved : BitVec 13) (ca : CaFields) :
    caFields (headerWord0 marker ca.read ca.registerSpace ca.linearBurst (ca.address.extractLsb' 19 13))
      (headerWord1 (ca.address.extractLsb' 3 16) reserved (ca.address.extractLsb' 0 3)) ca.waitCycles
      (ca.wordCount - 1) = ca := by
  simp only [caFields, headerWord0_read, headerWord0_registerSpace, headerWord0_linearBurst, headerWord0_addressTop,
    headerWord1_middle, headerWord1_low, address_parts, BitVec.sub_add_cancel]

theorem decode_encodeCa {ca : CaFields} (h : ca.wordCount ≠ 0) :
    decode .packetCa (encodeCa ca) = .ok (caInstr ca) := by
  rw [encodeCa_eq, decode, decodeCa, caFields_headerWords, headerWord0_marker, headerWord1_reserved,
    if_neg (not_not.2 rfl), if_neg (not_not.2 rfl), if_neg (mt sub_one_eq_allOnes_iff.1 h)]

/-- The fields of four words with the marker and the reserved bits encode to those words. -/
theorem encodeCa_caFields {w0 w1 : Word} (w2 w3 : Word) (marker : w0.extractLsb' 16 16 = 0xFF00#16)
    (reserved : w1.extractLsb' 3 13 = 0#13) : encodeCa (caFields w0 w1 w2 w3) = [w0, w1, w2, w3] := by
  have top : (caFields w0 w1 w2 w3).address.extractLsb' 19 13 = w0.extractLsb' 0 13 :=
    extractLsb'_append_append_left (b := 16) (c := 3) _ _ _
  have middle : (caFields w0 w1 w2 w3).address.extractLsb' 3 16 = w1.extractLsb' 16 16 :=
    extractLsb'_append_append_middle _ _ _
  have low : (caFields w0 w1 w2 w3).address.extractLsb' 0 3 = w1.extractLsb' 0 3 := BitVec.extractLsb'_append_eq_right
  rw [encodeCa_eq, top, middle, low, ← marker, ← reserved, headerWord1_fields]
  simp only [caFields, headerWord0_fields, BitVec.add_sub_cancel]

/-! ## The CA kinds and the control words -/

@[simp] theorem caInstr_format (ca : CaFields) : (caInstr ca).format = .packetCa := by
  obtain ⟨read, rs, lin, a, wait, wc⟩ := ca
  cases read <;> cases rs <;> cases lin <;> rfl

theorem caInstr_wellFormed (ca : CaFields) : (caInstr ca).wellFormed = (ca.wordCount != 0) := by
  obtain ⟨read, rs, lin, a, wait, wc⟩ := ca
  cases read <;> cases rs <;> cases lin <;> rfl

@[simp] theorem encode_caInstr (ca : CaFields) : encode (caInstr ca) = encodeCa ca := by
  obtain ⟨read, rs, lin, a, wait, wc⟩ := ca
  cases read <;> cases rs <;> cases lin <;> rfl

/-- Each CA kind's meaning: the SU holds the fields of its header. -/
theorem exec_caInstr (ca : CaFields) (s : State) : exec (caInstr ca) s = .next (s.setSuPhase (.command ca)) := by
  obtain ⟨read, rs, lin, a, wait, wc⟩ := ca
  cases read <;> cases rs <;> cases lin <;> rfl

/-- The control word of a direction (41_command_encoder.md R99). -/
def ctrlInstr (read : Bool) (entry : BitVec 16) : Instr := if read then .ctrlRead entry else .ctrlWrite entry

theorem encode_ctrlInstr (read : Bool) (entry : BitVec 16) :
    encode (ctrlInstr read entry) = [ctrlWord entry 0#8 (pinMask read)] := by cases read <;> rfl

/-! ## The instruction a word list is, format by format -/

/-- The words of a well-formed instruction in its format. -/
inductive LaidOut : Format → List Word → Instr → Prop
  | request (r : Request) (i : Instr) (h : Request.Is r.op r.operands i) : LaidOut .request r.words i
  | ca (ca : CaFields) (h : ca.wordCount ≠ 0) : LaidOut .packetCa (encodeCa ca) (caInstr ca)
  | ctrl (read : Bool) (entry : BitVec 16) :
    LaidOut .packetCtrl [ctrlWord entry 0#8 (pinMask read)] (ctrlInstr read entry)

@[simp] theorem bitOf_bitWord (b : Bool) : bitOf (bitWord b) = some b := by cases b <;> rfl

theorem bitWord_of_bitOf {w : Word} {b : Bool} (h : bitOf w = some b) : bitWord b = w := by
  unfold bitOf at h
  split at h
  · cases h; exact Eq.symm ‹_›
  split at h
  · cases h; exact Eq.symm ‹_›
  · cases h

theorem seed_parts (seed : Dword) : seed.extractLsb' 32 32 ++ seed.extractLsb' 0 32 = seed :=
  BitVec.extractLsb'_append_extractLsb' (w := 32) (len := 32)

theorem Request.Is.decodeRequest {op : BitVec 4} {ws : List Word} {i : Instr} (h : Request.Is op ws i) :
    decodeRequest op ws = .ok i := by
  cases h with
  | encode wr wrs wl r rs lin a wc wait er ew hop h1 h2 h3 =>
    subst hop
    rw [Sys2Proof.decodeRequest, if_neg (by decide), if_pos rfl, decodeEncode, h1, h2, h3]
  | checksum _ _ _ _ hop | read _ _ _ hop | write _ _ _ hop | abandon hop => subst hop; rfl

theorem Request.Is.encode_eq {op : BitVec 4} {ws : List Word} {i : Instr} (h : Request.Is op ws i) :
    Sys2Proof.encode i = op.setWidth 32 :: ws := by
  cases h with
  | checksum base count lo hi hop =>
    subst hop
    rw [Sys2Proof.encode, BitVec.extractLsb'_append_eq_right, BitVec.extractLsb'_append_eq_left]
    rfl
  | encode wr wrs wl r rs lin a wc wait er ew hop h1 h2 h3 =>
    subst hop
    rw [Sys2Proof.encode, bitWord_of_bitOf h1, bitWord_of_bitOf h2, bitWord_of_bitOf h3]
    rfl
  | read _ _ _ hop | write _ _ _ hop | abandon hop => subst hop; rfl

theorem Request.Is.format {op : BitVec 4} {ws : List Word} {i : Instr} (h : Request.Is op ws i) :
    i.format = .request := by cases h <;> rfl

theorem Request.Is.wellFormed {op : BitVec 4} {ws : List Word} {i : Instr} (h : Request.Is op ws i) :
    i.wellFormed = true := by cases h <;> rfl

/-- Every well-formed instruction's words are laid out in its format. -/
theorem Instr.laidOut {i : Instr} (h : i.wellFormed = true) : LaidOut i.format (encode i) i := by
  cases i with
  | checksum base count seed =>
    refine .request ⟨1, _⟩ _ ?_
    have record := Request.Is.checksum (op := 1) base count (seed.extractLsb' 0 32) (seed.extractLsb' 32 32) rfl
    rwa [seed_parts] at record
  | encode r rs lin a wc wait er ew =>
    exact .request ⟨2, _⟩ _
      (.encode _ _ _ _ _ _ _ _ _ _ _ rfl (bitOf_bitWord r) (bitOf_bitWord rs) (bitOf_bitWord lin))
  | read a wc buf => exact .request ⟨3, _⟩ _ (.read a wc buf rfl)
  | write a wc buf => exact .request ⟨4, _⟩ _ (.write a wc buf rfl)
  | abandon => exact .request ⟨5, _⟩ _ (.abandon rfl)
  | caMemWriteWrapped a wait wc => exact .ca ⟨false, false, false, a, wait, wc⟩ (bne_iff_ne.1 h)
  | caMemWriteLinear a wait wc => exact .ca ⟨false, false, true, a, wait, wc⟩ (bne_iff_ne.1 h)
  | caRegWriteWrapped a wait wc => exact .ca ⟨false, true, false, a, wait, wc⟩ (bne_iff_ne.1 h)
  | caRegWriteLinear a wait wc => exact .ca ⟨false, true, true, a, wait, wc⟩ (bne_iff_ne.1 h)
  | caMemReadWrapped a wait wc => exact .ca ⟨true, false, false, a, wait, wc⟩ (bne_iff_ne.1 h)
  | caMemReadLinear a wait wc => exact .ca ⟨true, false, true, a, wait, wc⟩ (bne_iff_ne.1 h)
  | caRegReadWrapped a wait wc => exact .ca ⟨true, true, false, a, wait, wc⟩ (bne_iff_ne.1 h)
  | caRegReadLinear a wait wc => exact .ca ⟨true, true, true, a, wait, wc⟩ (bne_iff_ne.1 h)
  | ctrlRead entry => exact .ctrl true entry
  | ctrlWrite entry => exact .ctrl false entry

theorem LaidOut.decode {f : Format} {ws : List Word} {i : Instr} (h : LaidOut f ws i) : decode f ws = .ok i := by
  cases h with
  | request r i h => rw [decode_words, h.decodeRequest]
  | ca ca h => exact decode_encodeCa h
  | ctrl read entry =>
    rw [Sys2Proof.decode, decodeCtrl, ctrlWord_reserved, ctrlWord_mask, ctrlWord_entry]
    cases read <;> rfl

theorem LaidOut.words {f : Format} {ws : List Word} {i : Instr} (h : LaidOut f ws i) :
    i.format = f ∧ i.wellFormed = true ∧ encode i = ws := by
  cases h with
  | request r i h => exact ⟨h.format, h.wellFormed, h.encode_eq⟩
  | ca ca h => exact ⟨caInstr_format ca, by rw [caInstr_wellFormed]; exact bne_iff_ne.2 h, encode_caInstr ca⟩
  | ctrl read entry => exact ⟨by cases read <;> rfl, by cases read <;> rfl, encode_ctrlInstr read entry⟩

theorem decodeOpWord_eq_ok {w : Word} {ws : List Word} {i : Instr} (h : decodeOpWord w ws = .ok i) :
    LaidOut .request (w :: ws) i := by
  unfold decodeOpWord at h
  split at h
  next upper =>
    have e : (w.extractLsb' 0 4).setWidth 32 = w := by
      rw [← zero_append_eq_setWidth (n := 28), ← upper]
      exact BitVec.extractLsb'_append_extractLsb' (w := 28) (len := 4)
    have laid := LaidOut.request ⟨w.extractLsb' 0 4, ws⟩ i (decodeRequest_eq_ok h)
    rwa [Request.words, e] at laid
  · cases h

theorem decodeCa_eq_ok {w0 w1 w2 w3 : Word} {i : Instr} (h : decodeCa w0 w1 w2 w3 = .ok i) :
    LaidOut .packetCa [w0, w1, w2, w3] i := by
  unfold decodeCa at h
  split_ifs at h with marker reserved count
  cases h
  rw [← encodeCa_caFields w2 w3 (not_not.1 marker) (not_not.1 reserved)]
  exact .ca _ (mt add_one_eq_zero_iff.1 count)

theorem LaidOut.ctrl_of_fields {w : Word} {read : Bool} (reserved : w.extractLsb' 8 8 = 0#8)
    (mask : w.extractLsb' 0 8 = pinMask read) : LaidOut .packetCtrl [w] (ctrlInstr read (w.extractLsb' 16 16)) := by
  have h := LaidOut.ctrl read (w.extractLsb' 16 16)
  rwa [ctrlWord_eq reserved mask] at h

theorem decodeCtrl_eq_ok {w : Word} {i : Instr} (h : decodeCtrl w = .ok i) : LaidOut .packetCtrl [w] i := by
  unfold decodeCtrl at h
  split_ifs at h with reserved inputs outputs <;> cases h
  · exact .ctrl_of_fields (read := true) (not_not.1 reserved) inputs
  · exact .ctrl_of_fields (read := false) (not_not.1 reserved) outputs

/-- Words decode only where they are laid out as the instruction's. -/
theorem decode_eq_ok {f : Format} {ws : List Word} {i : Instr} (h : decode f ws = .ok i) : LaidOut f ws i := by
  unfold decode at h
  split at h
  · exact decodeOpWord_eq_ok h
  · exact decodeCa_eq_ok h
  · exact decodeCtrl_eq_ok h
  all_goals cases h

/-! ## The CommandEncoder's arithmetic as fields (41_command_encoder.md R92 to R100) -/

/-- The CA field is three half words: the flags with the top of the address, its middle, and its low bits under the
reserved ones. -/
theorem caField_eq (read rs lin : Bool) (a : Word) : caField read rs lin a =
    caTop read rs lin (a.extractLsb' 19 13) ++ a.extractLsb' 3 16 ++ (0#13 ++ a.extractLsb' 0 3) := by
  have split : a.extractLsb' 3 29 = a.extractLsb' 19 13 ++ a.extractLsb' 3 16 :=
    (BitVec.extractLsb'_append_extractLsb'_eq_extractLsb' (start₁ := 3) (len₁ := 16) rfl).symm
  rw [caField, split, caTop, ← BitVec.setWidth_eq (_ ++ (0#13 ++ _))]
  simp only [BitVec.setWidth_append_eq_shiftLeft_setWidth_or, BitVec.shiftLeft_or_distrib, ← BitVec.shiftLeft_add]
  simp [flagBit, BitVec.or_assoc]

theorem packetW0_append (x y z : BitVec 16) : packetW0 (x ++ y ++ z) = 0xFF00#16 ++ x := by
  rw [packetW0, BitVec.extractLsb'_append_eq_left (a := x ++ y), append_shiftRight]
  exact shiftLeft_or_eq_append (0xFF00#16) x

theorem packetW1_append (x y z : BitVec 16) : packetW1 (x ++ y ++ z) = y ++ z := by
  rw [packetW1, BitVec.extractLsb'_append_eq_left, BitVec.extractLsb'_append_eq_right, append_shiftLeft,
    setWidth_shiftLeft_shiftRight (a := 16) (b := 16)]
  exact shiftLeft_or_eq_append y z

section
variable (read rs lin : Bool) (address wc wait er ew : Word)

theorem buildCommand_w0 : (buildCommand read rs lin address wc wait er ew).w0 =
    headerWord0 0xFF00#16 read rs lin (address.extractLsb' 19 13) := by
  rw [buildCommand, caField_eq, packetW0_append, headerWord0]

theorem buildCommand_w1 : (buildCommand read rs lin address wc wait er ew).w1 =
    headerWord1 (address.extractLsb' 3 16) 0#13 (address.extractLsb' 0 3) := by
  rw [buildCommand, caField_eq, packetW1_append, headerWord1]
  exact BitVec.eq_of_toNat_eq (toNat_append_append _ _ _)

theorem buildCommand_w4 : (buildCommand read rs lin address wc wait er ew).w4 =
    ctrlWord ((if read then er else ew).extractLsb' 0 16) 0#8 (pinMask read) := by
  generalize e : (if read then er else ew) = entry
  have split : entry = entry.extractLsb' 16 16 ++ entry.extractLsb' 0 16 :=
    (BitVec.extractLsb'_append_extractLsb' (w := 16) (len := 16)).symm
  have shifted : entry <<< 16 = (entry.extractLsb' 0 16).setWidth 32 <<< 16 := by
    rw [split, append_shiftLeft, ← split]
  rw [buildCommand, packetW4, e, shifted, ctrlWord, ← BitVec.setWidth_eq (_ ++ _ ++ pinMask read)]
  simp only [BitVec.setWidth_append_eq_shiftLeft_setWidth_or, BitVec.shiftLeft_or_distrib, ← BitVec.shiftLeft_add]
  simp

/-- A packet is the header of its fields and its control word. -/
theorem buildCommand_toList : (buildCommand read rs lin address wc wait er ew).toList =
    encodeCa ⟨read, rs, lin, address, wait, wc⟩ ++
      encode (ctrlInstr read ((if read then er else ew).extractLsb' 0 16)) := by
  rw [CommandPacket.toList, buildCommand_w0, buildCommand_w1, buildCommand_w4, encodeCa_eq, encode_ctrlInstr]
  rfl

end

/-! ## Which packets `decodeCommand` rejects (30_encoding.md R75) -/

/-- The marker, the reserved bits, the direction and the count are those the encoder writes. -/
def CommandPacket.Canonical (p : CommandPacket) : Prop :=
  p.w0.extractLsb' 16 16 = 0xFF00#16 ∧ p.w1.extractLsb' 3 13 = 0#13 ∧ p.w4.extractLsb' 8 8 = 0#8 ∧
    p.w4.extractLsb' 0 8 = pinMask (p.w0.getLsbD 15) ∧ p.w3 ≠ 0xFFFFFFFF#32

/-- The mask of a direction, as `decodeCommand` checks it: one of two masks, then the one of RW. -/
theorem eq_pinMask_iff {mask : Byte} {read : Bool} : mask = pinMask read ↔
    (mask = 0x00#8 ∨ mask = 0xFF#8) ∧ decide (mask = 0x00#8) = read := by
  cases read
  · by_cases h : mask = 0xFF#8 <;> simp [pinMask, h]
  · by_cases h : mask = 0x00#8 <;> simp [pinMask, h]

theorem CommandPacket.not_canonical_iff {p : CommandPacket} : ¬ p.Canonical ↔
    p.w0.extractLsb' 16 16 ≠ 0xFF00#16 ∨ p.w1.extractLsb' 3 13 ≠ 0#13 ∨ p.w4.extractLsb' 8 8 ≠ 0#8 ∨
      (p.w4.extractLsb' 0 8 ≠ 0x00#8 ∧ p.w4.extractLsb' 0 8 ≠ 0xFF#8) ∨
      ((p.w4.extractLsb' 0 8 = 0xFF#8 ∧ p.w0.getLsbD 15 = true) ∨
        (p.w4.extractLsb' 0 8 = 0x00#8 ∧ p.w0.getLsbD 15 = false)) ∨
      p.w3 = 0xFFFFFFFF#32 := by
  rw [Canonical, eq_pinMask_iff]
  generalize p.w4.extractLsb' 0 8 = mask
  generalize p.w0.getLsbD 15 = read
  by_cases h0 : mask = 0x00#8
  · subst h0; cases read <;> simp [imp_iff_not_or]
  · by_cases hf : mask = 0xFF#8
    · subst hf; cases read <;> simp [imp_iff_not_or]
    · simp [h0, hf]

theorem exists_error_ite {α : Type} {c : Prop} [Decidable c] {e : DecodeError} {r : Except DecodeError α} :
    (∃ e', (if c then .error e else r) = .error e') ↔ c ∨ ∃ e', r = .error e' := by
  by_cases h : c <;> simp [h]

/-- The decoder's six checks fail on exactly the packets that are not canonical. -/
theorem decodeCommand_error_iff {p : CommandPacket} : (∃ e, decodeCommand p = .error e) ↔ ¬ p.Canonical := by
  rw [decodeCommand, CommandPacket.Canonical, eq_pinMask_iff]
  simp only [exists_error_ite, not_and_or, not_or, or_assoc, ne_eq, not_not, reduceCtorEq, exists_const, or_false]

theorem CommandPacket.toList_injective {p q : CommandPacket} (h : p.toList = q.toList) : p = q := by
  obtain ⟨_, _, _, _, _⟩ := p
  obtain ⟨_, _, _, _, _⟩ := q
  simpa [toList] using h

/-- The fields of a canonical packet are arguments that encode to it. -/
theorem CommandPacket.Canonical.eq_buildCommand {p : CommandPacket} (h : p.Canonical) :
    ∃ read rs lin address wc wait er ew, wc ≠ 0 ∧ buildCommand read rs lin address wc wait er ew = p := by
  obtain ⟨marker, reserved, ctrlReserved, direction, count⟩ := h
  have header := encodeCa_caFields p.w2 p.w3 marker reserved
  have entry : ((p.w4.extractLsb' 16 16).setWidth 32).extractLsb' 0 16 = p.w4.extractLsb' 16 16 := by
    rw [BitVec.extractLsb'_setWidth_of_le (by decide), BitVec.extractLsb'_eq_self]
  refine ⟨p.w0.getLsbD 15, p.w0.getLsbD 14, p.w0.getLsbD 13, (caFields p.w0 p.w1 p.w2 p.w3).address, p.w3 + 1, p.w2,
    (p.w4.extractLsb' 16 16).setWidth 32, (p.w4.extractLsb' 16 16).setWidth 32, mt add_one_eq_zero_iff.1 count,
    toList_injective ?_⟩
  rw [buildCommand_toList, encode_ctrlInstr, ite_self, entry, ctrlWord_eq ctrlReserved direction]
  exact congrArg (· ++ [p.w4]) header

theorem buildCommand_canonical (read rs lin : Bool) (address : Word) {wc : Word} (wait er ew : Word) (h : wc ≠ 0) :
    (buildCommand read rs lin address wc wait er ew).Canonical := by
  rw [CommandPacket.Canonical, buildCommand_w0, buildCommand_w1, buildCommand_w4, headerWord0_marker,
    headerWord0_read, headerWord1_reserved, ctrlWord_reserved, ctrlWord_mask]
  exact ⟨rfl, rfl, rfl, rfl, mt sub_one_eq_allOnes_iff.1 h⟩

/-! ## Op codes (30_encoding.md R57, R63) -/

/-- The op codes without a request. -/
theorem reserved_iff {op : BitVec 4} : (op = 0 ∨ 6 ≤ op.toNat) ↔ op ≠ 1 ∧ op ≠ 2 ∧ op ≠ 3 ∧ op ≠ 4 ∧ op ≠ 5 := by
  revert op; decide

theorem decodeChecksum_eq_error {ws : List Word} {e : DecodeError} (h : decodeChecksum ws = .error e) : e = .shape := by
  unfold decodeChecksum at h
  split at h <;> cases h
  rfl

theorem decodeEncode_eq_error {ws : List Word} {e : DecodeError} (h : decodeEncode ws = .error e) : e = .shape := by
  unfold decodeEncode at h
  split at h
  · split at h <;> cases h
    rfl
  · cases h; rfl

theorem decodeRead_eq_error {ws : List Word} {e : DecodeError} (h : decodeRead ws = .error e) : e = .shape := by
  unfold decodeRead at h
  split at h <;> cases h
  rfl

theorem decodeWrite_eq_error {ws : List Word} {e : DecodeError} (h : decodeWrite ws = .error e) : e = .shape := by
  unfold decodeWrite at h
  split at h <;> cases h
  rfl

theorem decodeAbandon_eq_error {ws : List Word} {e : DecodeError} (h : decodeAbandon ws = .error e) : e = .shape := by
  unfold decodeAbandon at h
  split at h <;> cases h
  rfl

theorem decodeRequest_of_reserved {op : BitVec 4} (ws : List Word) (h : op = 0 ∨ 6 ≤ op.toNat) :
    decodeRequest op ws = .error (.reservedOp op) := by
  obtain ⟨h1, h2, h3, h4, h5⟩ := reserved_iff.1 h
  rw [decodeRequest, if_neg h1, if_neg h2, if_neg h3, if_neg h4, if_neg h5]

theorem decodeRequest_eq_reservedOp {op o : BitVec 4} {ws : List Word}
    (h : decodeRequest op ws = .error (.reservedOp o)) : op = 0 ∨ 6 ≤ op.toNat := by
  unfold decodeRequest at h
  split at h
  · cases decodeChecksum_eq_error h
  split at h
  · cases decodeEncode_eq_error h
  split at h
  · cases decodeRead_eq_error h
  split at h
  · cases decodeWrite_eq_error h
  split at h
  · cases decodeAbandon_eq_error h
  · exact reserved_iff.2 ⟨‹_›, ‹_›, ‹_›, ‹_›, ‹_›⟩

/-- ORC, ready, takes a reserved op and marks it. -/
theorem fetchRequest_of_reserved {s : State} {r : Request} (hr : s.reqPort = some r)
    (h : r.op = 0 ∨ 6 ≤ r.op.toNat) (ready : s.Ready) :
    fetchRequest s = .done { s.takeRequest with refusedOp := some r.op } := by
  rw [fetchRequest, hr]
  simp only [decode_words, decodeRequest_of_reserved r.operands h, State.accepting_iff.2 ready, if_true]

/-! ## The statements -/

/-- Settles O16: a well-formed instruction's words are laid out in its format, and words laid out so decode. -/
theorem decodeOfEncode : Obligations.DecodeOfEncode := fun _ h => (Instr.laidOut h).decode

/-- Settles O17: words that decode are laid out as the instruction's, so they are its words. -/
theorem encodeOfDecode : Obligations.EncodeOfDecode := fun _ _ _ h => (decode_eq_ok h).words

/-- Settles O11: each word of the packet in its fields, the count one above W3. -/
theorem packetLayout : Obligations.PacketLayout := by
  intro read rs lin address wc wait er ew
  have count : wc ≠ 0 → (wc - 1).toNat + 1 = wc.toNat := fun h => by bv_omega
  simp only [buildCommand_w0, buildCommand_w1, buildCommand_w4, headerWord0_marker, headerWord0_read,
    headerWord0_registerSpace, headerWord0_linearBurst, headerWord0_addressTop, headerWord1_middle,
    headerWord1_reserved, headerWord1_low, ctrlWord_entry, ctrlWord_reserved, ctrlWord_mask, true_and]
  exact ⟨rfl, count, rfl⟩

/-- Settles O13: the checks fail on the packets that are not canonical, and the canonical ones are the encoder's. -/
theorem decoderRejectsExactlyNonOutputs : Obligations.DecoderRejectsExactlyNonOutputs := by
  intro p
  rw [decodeCommand_error_iff]
  refine ⟨CommandPacket.not_canonical_iff, fun h read rs lin address wc wait er ew hw e => ?_, fun h hp => ?_⟩
  · exact h (e ▸ buildCommand_canonical read rs lin address wait er ew hw)
  · obtain ⟨read, rs, lin, address, wc, wait, er, ew, hw, e⟩ := hp.eq_buildCommand
    exact h read rs lin address wc wait er ew hw e

/-- Settles O14: the packet's fields are those of its CA kind and its control word. -/
theorem packetIsHeaderThenControl : Obligations.PacketIsHeaderThenControl := by
  intro read rs lin address wc wait er ew
  rw [buildCommand_toList, encode_caInstr]
  cases read <;> rfl

/-- Settles O18: only the reserved ops answer `reservedOp`, before any operand is looked at. -/
theorem reservedOpCodes : Obligations.ReservedOpCodes := by
  intro op operands
  rw [decode_words]
  exact ⟨decodeRequest_eq_reservedOp, decodeRequest_of_reserved operands⟩

/-- Settles O19: six word lists, each decoded. -/
theorem specWordsDecode : Obligations.SpecWordsDecode :=
  ⟨by decide, by decide, by decide, by decide, by decide, by decide⟩

/-- Settles O29: the reserved op is taken by ORC's look at the port. -/
theorem reservedOpsAreRefusedByMark : Obligations.ReservedOpsAreRefusedByMark := by
  intro s rest r ha hr h ready
  refine step_done ?_
  rw [nextMove_of_agenda ha, spendMove_of_agenda ha]
  exact fetchRequest_of_reserved (s := { s with agenda := rest }) hr h ready

/-- Settles O46: each kind is `caInstr` of its flags. -/
theorem caKindsComplete : Obligations.CaKindsComplete := by
  intro s a wait wc
  have held := fun read rs lin => exec_caInstr ⟨read, rs, lin, a, wait, wc⟩ s
  exact ⟨held false false false, held false false true, held false true false, held false true true,
    held true false false, held true false true, held true true false, held true true true⟩

end Sys2Proof.Machine
end

section
/-! The checksum engine (40_checksum.md): the two sums of a sequence in numbers, the seed and the result as halves that
undo each other below the modulus, and CHECKSUM where it completes. -/

namespace Sys2Proof.Machine

/-! ## The seed, the step and the result in numbers -/

theorem toNat_sumsOfSeed_fst (seed : Dword) : (sumsOfSeed seed).1.toNat = seed.toNat % 2 ^ 32 :=
  BitVec.extractLsb'_toNat 0 32 seed

theorem toNat_sumsOfSeed_snd (seed : Dword) : (sumsOfSeed seed).2.toNat = seed.toNat / 2 ^ 32 := by
  have fits : seed.toNat / 2 ^ 32 < 2 ^ 32 := Nat.div_lt_of_lt_mul seed.isLt
  rw [sumsOfSeed, BitVec.extractLsb'_toNat, Nat.shiftRight_eq_div_pow, Nat.mod_eq_of_lt fits]

theorem toNat_sumsResult (x : Sums) :
    (sumsResult x).toNat = x.2.toNat % 0xFFFFFFFF * 2 ^ 32 + x.1.toNat % 0xFFFFFFFF := by
  rw [sumsResult, BitVec.toNat_append, ← Nat.shiftLeft_add_eq_or_of_lt (BitVec.isLt _), Nat.shiftLeft_eq,
    BitVec.toNat_umod, BitVec.toNat_umod]
  rfl

/-! ## A whole sequence -/

/-- The words each counted once for every `sum2` they have entered: the first for all of them, the last once. -/
def weightedSum (ws : List Word) : Nat :=
  ((List.range ws.length).map fun i => (ws.length - i) * (ws.getD i 0).toNat).sum

theorem weightedSum_cons (w : Word) (ws : List Word) :
    weightedSum (w :: ws) = (ws.length + 1) * w.toNat + weightedSum ws := by
  simp [weightedSum, List.range_succ_eq_map, Function.comp_def]

/-- The sums of a sequence, from sums given as numbers mod 2^32 (40_checksum.md R78, R80). -/
theorem foldl_sumsAccum_ofNat (ws : List Word) (a b : Nat) :
    ws.foldl sumsAccum (BitVec.ofNat 32 a, BitVec.ofNat 32 b) =
      (BitVec.ofNat 32 (a + (ws.map BitVec.toNat).sum), BitVec.ofNat 32 (b + ws.length * a + weightedSum ws)) := by
  induction ws generalizing a b with
  | nil => simp [weightedSum]
  | cons w ws ih =>
    have step : sumsAccum (BitVec.ofNat 32 a, BitVec.ofNat 32 b) w =
        (BitVec.ofNat 32 (a + w.toNat), BitVec.ofNat 32 (b + (a + w.toNat))) := by
      simp [sumsAccum, BitVec.ofNat_add]
    have sum1 : a + w.toNat + (ws.map BitVec.toNat).sum = a + ((w :: ws).map BitVec.toNat).sum := by
      rw [List.map_cons, List.sum_cons, Nat.add_assoc]
    have sum2 : b + (a + w.toNat) + ws.length * (a + w.toNat) + weightedSum ws =
        b + (w :: ws).length * a + weightedSum (w :: ws) := by
      rw [weightedSum_cons, List.length_cons]; ring
    rw [List.foldl_cons, step, ih, sum1, sum2]

theorem finalSums_eq_ofNat (ws : List Word) (seed : Dword) :
    finalSums ws seed =
      (BitVec.ofNat 32 (seed.toNat % 2 ^ 32 + (ws.map BitVec.toNat).sum),
        BitVec.ofNat 32 (seed.toNat / 2 ^ 32 + ws.length * (seed.toNat % 2 ^ 32) + weightedSum ws)) := by
  have halves : sumsOfSeed seed = (BitVec.ofNat 32 (seed.toNat % 2 ^ 32), BitVec.ofNat 32 (seed.toNat / 2 ^ 32)) := by
    rw [← toNat_sumsOfSeed_fst, ← toNat_sumsOfSeed_snd, BitVec.ofNat_toNat, BitVec.ofNat_toNat,
      BitVec.setWidth_eq, BitVec.setWidth_eq]
  rw [finalSums, halves, foldl_sumsAccum_ofNat]

/-! ## Chaining through the result -/

@[simp] theorem finalSums_nil (seed : Dword) : finalSums [] seed = sumsOfSeed seed := rfl

theorem finalSums_append (a b : List Word) (seed : Dword) :
    finalSums (a ++ b) seed = b.foldl sumsAccum (finalSums a seed) := List.foldl_append

/-- Seeding from a result takes its halves back, each reduced. -/
theorem sumsOfSeed_sumsResult (x : Sums) :
    sumsOfSeed (sumsResult x) = (x.1 % 0xFFFFFFFF#32, x.2 % 0xFFFFFFFF#32) :=
  Prod.ext BitVec.extractLsb'_append_eq_right BitVec.extractLsb'_append_eq_left

/-- 0xFFFFFFFF is the one word the reduction changes. -/
theorem umod_eq_self {w : Word} (h : w ≠ 0xFFFFFFFF) : w % 0xFFFFFFFF#32 = w :=
  BitVec.umod_eq_of_lt (by bv_omega)

/-- Where neither raw sum is 0xFFFFFFFF, the result carries both of them (40_checksum.md R82(c)). -/
theorem sumsOfSeed_fletcher64 {ws : List Word} {seed : Dword} (h1 : (finalSums ws seed).1 ≠ 0xFFFFFFFF)
    (h2 : (finalSums ws seed).2 ≠ 0xFFFFFFFF) : sumsOfSeed (fletcher64 ws seed) = finalSums ws seed := by
  rw [fletcher64, sumsOfSeed_sumsResult, umod_eq_self h1, umod_eq_self h2]

/-! ## CHECKSUM where it completes -/

theorem execChecksum_of_admitted {s : State} {base count : Word} (seed : Dword) (hr : s.Ready)
    (hb : base.toNat % 4 = 0) (admitted : AdmittedWords s.cfg base.toNat count.toNat) :
    execChecksum base count seed s = .next (afterChecksum base count seed s) := by
  rw [execChecksum, State.accepting_iff.2 hr, aligned_iff.2 hb, memReadWords_eq_ok.2 ⟨admitted, rfl⟩, Access.bind_ok,
    ck_runs_fletcher64, Access.bind_ok, ckResult_ofSums, Access.bind_ok]
  rfl

/-! ## The statements -/

/-- Settles O7: the registers run the sums, whose seed, step and result are known in numbers. -/
theorem checksumRegisterSteps : Obligations.ChecksumRegisterSteps := by
  refine ⟨fun seed => ?_, fun a b w => ?_, fun a b => ?_⟩
  · exact ⟨_, _, rfl, toNat_sumsOfSeed_fst seed, toNat_sumsOfSeed_snd seed⟩
  · exact ⟨_, _, ckAccum_ofSums (a, b) w, BitVec.toNat_add a w, BitVec.toNat_add b (a + w)⟩
  · exact ⟨_, ckResult_ofSums (a, b), toNat_sumsResult (a, b)⟩

/-- Settles O8, by induction on the words: each step adds the new `sum1`, in which every word so far stands once. -/
theorem fletcherClosedForm : Obligations.FletcherClosedForm := by
  intro ws seed
  refine ⟨?_, ?_, toNat_sumsResult (finalSums ws seed)⟩
  · rw [finalSums_eq_ofNat, BitVec.toNat_ofNat]
  · rw [finalSums_eq_ofNat, BitVec.toNat_ofNat, weightedSum]

/-- Settles O9: the result carries the raw sums to the rest of the sequence unless one of them is 0xFFFFFFFF, which it
answers as 0. -/
theorem fletcherLaws : Obligations.FletcherLaws := by
  refine ⟨fun seed => ?_, by decide, by decide, fun a b seed h1 h2 => ?_, by decide⟩
  · rw [fletcher64, toNat_sumsResult, finalSums_nil, toNat_sumsOfSeed_fst, toNat_sumsOfSeed_snd]
  · calc fletcher64 (a ++ b) seed = sumsResult (b.foldl sumsAccum (finalSums a seed)) := by
          rw [fletcher64, finalSums_append]
      _ = sumsResult (b.foldl sumsAccum (sumsOfSeed (fletcher64 a seed))) := by rw [sumsOfSeed_fletcher64 h1 h2]
      _ = fletcher64 b (fletcher64 a seed) := rfl

/-- Settles O10: with the words admitted every read has a value, and seeding first leaves no sum unwritten. -/
theorem checksumCompletes : Obligations.ChecksumCompletes :=
  fun _ _ _ seed hr hb admitted => execChecksum_of_admitted seed hr hb admitted

end Sys2Proof.Machine
end

section
/-! The CommandEncoder (41_command_encoder.md): the fields a packet's words say, which the encoder's packet gives back,
and ENCODE where it completes. -/

namespace Sys2Proof.Machine

/-! ## The fields of a packet (41_command_encoder.md R102, R103) -/

/-- The fields of a packet: those of its header's four words, and the entry and mask of its control word. -/
def CommandPacket.fields (p : CommandPacket) : DecodedCommand :=
  let ca := caFields p.w0 p.w1 p.w2 p.w3
  { read := ca.read, registerSpace := ca.registerSpace, linearBurst := ca.linearBurst, address := ca.address,
    wordCount := ca.wordCount, waitCycles := ca.waitCycles,
    entry := p.w4.extractLsb' 16 16, mask := p.w4.extractLsb' 0 8 }

/-- A canonical packet passes the decoder's six checks, in the order they are made. -/
theorem CommandPacket.Canonical.decodeCommand_eq {p : CommandPacket} (h : p.Canonical) :
    decodeCommand p = .ok p.fields := by
  obtain ⟨marker, reserved, ctrlReserved, direction, count⟩ := h
  obtain ⟨pinDir, matched⟩ := eq_pinMask_iff.1 direction
  rw [decodeCommand, if_neg (not_not.2 marker), if_neg (not_not.2 reserved), if_neg (not_not.2 ctrlReserved),
    if_neg (fun other => pinDir.elim other.1 other.2), if_neg (not_not.2 matched), if_neg count]
  rfl

/-- Each field of the encoder's packet is the input it was laid out from, whatever the word count. -/
theorem fields_buildCommand (read rs lin : Bool) (address wc wait er ew : Word) :
    (buildCommand read rs lin address wc wait er ew).fields =
      { read := read, registerSpace := rs, linearBurst := lin, address := address, wordCount := wc,
        waitCycles := wait, entry := (if read then er else ew).extractLsb' 0 16, mask := pinMask read } := by
  have header : caFields (headerWord0 0xFF00#16 read rs lin (address.extractLsb' 19 13))
      (headerWord1 (address.extractLsb' 3 16) 0#13 (address.extractLsb' 0 3)) wait (wc - 1) =
      ⟨read, rs, lin, address, wait, wc⟩ := caFields_headerWords _ _ ⟨read, rs, lin, address, wait, wc⟩
  rw [CommandPacket.fields, buildCommand_w0, buildCommand_w1, buildCommand_w4, ctrlWord_entry, ctrlWord_mask]
  simp only [buildCommand, header]

/-! ## ENCODE where it completes (41_command_encoder.md R101) -/

theorem execEncode_of_ready {s : State} (read rs lin : Bool) (address : Word) {wc : Word} (wait er ew : Word)
    (ready : s.Ready) (h : wc ≠ 0) : execEncode read rs lin address wc wait er ew s =
      .next (s.takeRequest.respond statusOk (.words (buildCommand read rs lin address wc wait er ew))) := by
  rw [execEncode, State.accepting_iff.2 ready, if_neg h]
  rfl

/-! ## The statements -/

/-- Settles O12: the encoder's packet is canonical, so it decodes to its fields, which are the inputs. -/
theorem encoderRoundTrip : Obligations.EncoderRoundTrip := by
  intro read rs lin address wc wait er ew h
  rw [(buildCommand_canonical read rs lin address wait er ew h).decodeCommand_eq, fields_buildCommand]
  rfl

/-- Settles O15: ready and with a count of at least 1, ENCODE takes the request and answers the packet. -/
theorem encodeCompletes : Obligations.EncodeCompletes :=
  fun _ read rs lin address _ wait er ew ready h => execEncode_of_ready read rs lin address wait er ew ready h

end Sys2Proof.Machine
end

section
/-! The TransferOrchestrator (42_orchestrator.md): requests at acceptance, steps 2 to 5 of a transaction, and what
every step keeps of ORC.phase and CS_N. -/

namespace Sys2Proof.Machine

/-! ## A request on the port -/

theorem fetchRequest_of_decode {s : State} {r : Request} {i : Instr} (hr : s.reqPort = some r)
    (hd : decode .request r.words = .ok i) : fetchRequest s = .run i s := by
  simp only [fetchRequest, hr, hd]

theorem State.Ready.idle {s : State} (h : s.Ready) : s.orc.phase = .idle := by
  obtain ⟨_, idle, _⟩ := h
  exact idle

theorem State.accepting_of_not_ready {s : State} (h : ¬ s.Ready) : s.accepting = false :=
  Bool.eq_false_iff.2 (mt State.accepting_iff.1 h)

theorem State.abandonable_of_not_inflight {s : State} (h : ¬ (s.going ∧ s.orc.phase = .inflight)) :
    s.abandonable = false := Bool.eq_false_iff.2 (mt State.abandonable_iff.1 h)

/-! ## READ, WRITE and ABANDON where they complete -/

theorem execRead_of_admitted {s : State} (address : Word) {wc rxbuf : Word} (ready : s.Ready) (hw : wc ≠ 0)
    (hb : rxbuf.toNat % 4 = 0) (clear : ClearOfTxbuf s.cfg rxbuf (wc.toNat / 2) 5)
    (txbuf : AdmittedWords s.cfg s.cfg.txbufBase.toNat 5) :
    execRead address wc rxbuf s = .next (afterReadStep1 address wc rxbuf s) := by
  rw [execRead_of_accept ready (validateRead_accept hw hb clear), readStep1_eq_ok.2 ⟨txbuf, rfl⟩, State.settle_ok]

theorem execWrite_of_admitted {s : State} (address : Word) {wc srcbuf : Word} (ready : s.Ready) (hw : wc ≠ 0)
    (hb : srcbuf.toNat % 4 = 0) (fits : 5 + wc.toNat / 2 ≤ s.cfg.txbufWords)
    (clear : ClearOfTxbuf s.cfg srcbuf (wc.toNat / 2) (5 + wc.toNat / 2))
    (source : AdmittedWords s.cfg srcbuf.toNat (wc.toNat / 2))
    (txbuf : AdmittedWords s.cfg s.cfg.txbufBase.toNat (5 + wc.toNat / 2)) :
    execWrite address wc srcbuf s = .next (afterWriteStep1 address wc srcbuf s) := by
  rw [execWrite_of_accept ready (validateWrite_accept hw hb fits clear), writeStep1_eq_ok.2 ⟨source, txbuf, rfl⟩,
    State.settle_ok]

theorem execAbandon_of_inflight {s : State} (hg : s.going) (hp : s.orc.phase = .inflight) :
    execAbandon s = .next (State.respond statusOk .empty (State.setPhase .abandoned s.takeRequest.deselect)) := by
  rw [execAbandon, State.abandonable_iff.2 ⟨hg, hp⟩]
  rfl

/-! ## The frame of READ and WRITE -/

/-- States with the same memory read the same everywhere. -/
theorem State.SameBytesOutside.of_mem_eq {s t : State} (hc : t.cfg = s.cfg) (hm : t.mem = s.mem)
    (he : t.txEpoch = s.txEpoch) (a len : Nat) : s.SameBytesOutside t a len :=
  fun b _ => State.byteAt_congr hc hm he b

/-- In every state READ stores only the packet's bytes, and outside memory writes the orchestrator's registers, chip
select, the ports and the window alone; it computes no checksum. -/
theorem execRead_frame {address wc buf : Word} {s t : State} (h : execRead address wc buf s = .next t) :
    s.SameBytesOutside t s.cfg.txbufBase.toNat 20 ∧ t.orc.result = s.orc.result ∧
      ∃ orc csN mem req resp owned, t = { s with
        orc := orc, csN := csN, mem := mem, reqPort := req, respPort := resp, owned := owned } := by
  rcases execRead_cases address wc buf s with e | ⟨_, _, e⟩ | ⟨_, e⟩ | ⟨_, _, e⟩ | ⟨_, _, _, _, _, e⟩ <;>
    obtain rfl := Host.Outcome.next.inj (h.symm.trans e)
  case inr.inr.inr.inr =>
    exact ⟨fun _ outside => afterReadStep1_byteAt address wc buf s outside, rfl, _, _, _, _, _, _, rfl⟩
  all_goals exact ⟨.of_mem_eq rfl rfl rfl _ _, rfl, _, _, _, _, _, _, rfl⟩

/-- The same of WRITE, which stores the payload besides and writes the sums, but opens no window. -/
theorem execWrite_frame {address wc buf : Word} {s t : State} (h : execWrite address wc buf s = .next t) :
    s.SameBytesOutside t s.cfg.txbufBase.toNat (4 * (5 + payloadWords wc)) ∧
      ∃ ck orc csN mem req resp, t = { s with
        ck := ck, orc := orc, csN := csN, mem := mem, reqPort := req, respPort := resp } := by
  rcases execWrite_cases address wc buf s with
      e | ⟨_, _, e⟩ | ⟨_, e⟩ | ⟨_, _, e⟩ | ⟨_, _, _, _, _, _, _, e⟩ <;>
    obtain rfl := Host.Outcome.next.inj (h.symm.trans e)
  case inr.inr.inr.inr =>
    exact ⟨fun _ outside => afterWriteStep1_byteAt address wc buf s outside, _, _, _, _, _, _, rfl⟩
  all_goals exact ⟨.of_mem_eq rfl rfl rfl _ _, _, _, _, _, _, _, rfl⟩

/-! ## Steps 2 to 5 from an agenda -/

/-- ORC's step where no mark stops it: the next step of the open transaction, settled. -/
theorem step_orcAdvance_settle {s : State} {rest : List Move} (ha : s.agenda = .orcAdvance :: rest) (hg : s.going) :
    step s = .next (State.settle { s with agenda := rest } (transactionStep { s with agenda := rest })) := by
  have running : State.halted { s with agenda := rest } = false := State.halted_iff.2 hg
  rw [step_orcAdvance (nextMove_of_agenda ha), spendMove_of_agenda ha, orcAdvance, running]
  rfl

theorem step_orcAdvance_ok {s t : State} {rest : List Move} (ha : s.agenda = .orcAdvance :: rest) (hg : s.going)
    (h : transactionStep { s with agenda := rest } = .ok t) : step s = .next t := by
  rw [step_orcAdvance_settle ha hg, h, State.settle_ok]

theorem step_orcAdvance_stuck {s : State} {rest : List Move} (ha : s.agenda = .orcAdvance :: rest) (hg : s.going)
    (h : transactionStep { s with agenda := rest } = .stuck) : step s = .next { s with agenda := rest } := by
  rw [step_orcAdvance_settle ha hg, h, State.settle_stuck]

theorem Channel.finish_iff {c : Channel} : c.finish = true ↔ c.started = true ∧ c.busy = false := by
  simp [Channel.finish]

theorem State.channel_watchedChannel (s : State) (d : Direction) :
    s.channel (watchedChannel d) = if d = .read then s.chB else s.chA := by
  cases d <;> rfl

/-! ## What a move leaves of the transaction -/

/-- The transaction stands in `t` as in `s` (42_orchestrator.md R133): its phase, its count and buffer, the sums, chip
select, and the request that waits; the response stands or has been taken. -/
structure State.KeepsTransaction (s t : State) : Prop where
  phase : t.orc.phase = s.orc.phase
  buf : t.orc.buf = s.orc.buf
  n : t.orc.n = s.orc.n
  ck : t.ck = s.ck
  csN : t.csN = s.csN
  request : s.reqPort ≠ none → t.reqPort = s.reqPort
  response : t.respPort = s.respPort ∨ t.respPort = none

theorem State.KeepsTransaction.refl (s : State) : s.KeepsTransaction s :=
  ⟨rfl, rfl, rfl, rfl, rfl, fun _ => rfl, .inl rfl⟩

theorem spendMove_keepsTransaction {s t : State} : (spendMove s).KeepsTransaction t ↔ s.KeepsTransaction t := by
  obtain ⟨_, _, e⟩ := spendMove_eq s
  rw [e]
  exact ⟨fun h => { h with }, fun h => { h with }⟩

theorem ChannelMoved.keepsTransaction {c : ChannelId} {u t : State} (h : ChannelMoved c u t) :
    u.KeepsTransaction t := by
  cases h with
  | held => exact .refl u
  | marked => exact { State.KeepsTransaction.refl u with }
  | toFifo | toMem => constructor <;> simp

theorem SuMoved.keepsTransaction {u t : State} (h : SuMoved u t) : u.KeepsTransaction t := by
  cases h <;> exact { State.KeepsTransaction.refl u with }

theorem State.KeepsTransaction.portRequest {s : State} (r : Request) (empty : s.reqPort = none) :
    s.KeepsTransaction { s with reqPort := some r } :=
  { State.KeepsTransaction.refl s with request := fun waits => absurd empty waits }

theorem hostPut_keepsTransaction (r : Request) (s : State) : s.KeepsTransaction (hostPut r s) := by
  rcases hostPut_cases r s with e | ⟨_, empty, e⟩ <;> rw [e]
  · exact .refl s
  · exact .portRequest r empty

theorem presentRequest_keepsTransaction (r : Request) (s : State) : s.KeepsTransaction (presentRequest r s) := by
  rcases presentRequest_cases r s with e | ⟨_, empty, e⟩ <;> rw [e]
  · exact .refl s
  · exact .portRequest r empty

theorem hostTake_keepsTransaction (s : State) : s.KeepsTransaction (hostTake s) := by
  unfold hostTake
  split
  · exact { State.KeepsTransaction.refl s with response := .inr rfl }
  · exact .refl s

theorem hostWrite_keepsTransaction (a v : Word) (s : State) : s.KeepsTransaction (hostWrite a v s) := by
  unfold hostWrite
  split
  · exact { State.KeepsTransaction.refl s with }
  · exact .refl s

theorem platformBoot_keepsTransaction (s : State) : s.KeepsTransaction (platformBoot s) := by
  unfold platformBoot
  split
  · exact { State.KeepsTransaction.refl s with }
  · exact .refl s

/-- All a step can do to the transaction: only the orchestrator's own moves and reset change it. -/
theorem step_keepsTransaction {P : State → Prop} {s t : State} (h : step s = .next t)
    (others : ∀ t, s.KeepsTransaction t → P t)
    (take : nextMove s = .orcTake → ∀ r, s.reqPort = some r → ∀ t, Taken (spendMove s) r t → P t)
    (advance : nextMove s = .orcAdvance → ∀ t, Advanced (spendMove s) t → P t)
    (reset : nextMove s = .reset → P (applyReset (spendMove s))) : P t := by
  have keep : ∀ t, (spendMove s).KeepsTransaction t → P t := fun t ht => others t (spendMove_keepsTransaction.1 ht)
  apply step_cases h
  case hold => exact keep _ (.refl _)
  case take => exact take
  case adv => exact fun hm t _ ht => advance hm t ht
  case chan => exact fun _ _ t ht => keep t ht.keepsTransaction
  case su => exact fun _ t ht => keep t ht.keepsTransaction
  case put => exact fun r _ => keep _ (hostPut_keepsTransaction r _)
  case prs => exact fun r _ => keep _ (presentRequest_keepsTransaction r _)
  case tk => exact fun _ => keep _ (hostTake_keepsTransaction _)
  case hw => exact fun a v _ => keep _ (hostWrite_keepsTransaction a v _)
  case rs => exact reset
  case bt => exact fun _ => keep _ (platformBoot_keepsTransaction _)

/-- In ABANDONED no request is taken (42_orchestrator.md R133). -/
theorem Taken.eq_of_abandoned {u t : State} {r : Request} (h : Taken u r t) (hp : u.orc.phase = .abandoned) :
    t = u := by
  have not_ready : ¬ u.Ready := fun ready => nomatch hp.symm.trans ready.idle
  cases h with
  | held => rfl
  | abandon _ _ inflight => exact nomatch hp.symm.trans inflight
  | invalid _ hr | reserved hr | overlap hr | marked hr | checksum _ _ _ hr | encode _ hr | read _ _ _ _ hr
  | write _ _ _ _ hr => exact absurd hr not_ready

/-- In ABANDONED there is no step of the transaction (42_orchestrator.md R133). -/
theorem Advanced.eq_of_abandoned {u t : State} (h : Advanced u t) (hp : u.orc.phase = .abandoned) : t = u := by
  cases h with
  | held => rfl
  | marked f hf => rw [transactionStep, hp] at hf; cases hf
  | busyA hp' | busyB hp' | armedRead _ _ hp' | armedWrite _ hp' | startedRead _ _ hp' | startedWrite _ hp'
  | finished _ hp' | answeredRead _ _ hp' | answeredWrite _ hp' => exact nomatch hp.symm.trans hp'

/-! ## The events of the phase and of chip select -/

/-- What a step does to ORC.phase and CS_N, by its event (42_orchestrator.md R137, R138). -/
inductive PhaseEvent (s t : State) : Prop
  | still (hp : t.orc.phase = s.orc.phase) (hc : t.csN = s.csN)
  | accepted (r : Request) (hm : nextMove s = .orcTake) (hr : s.reqPort = some r) (hop : r.op = 3 ∨ r.op = 4)
      (from_idle : s.orc.phase = .idle) (to_selected : t.orc.phase = .selected) (hc : t.csN = false)
  | configured (hm : nextMove s = .orcAdvance) (from_selected : s.orc.phase = .selected)
      (to_armed : t.orc.phase = .armed) (hc : t.csN = s.csN)
  | started (hm : nextMove s = .orcAdvance) (from_armed : s.orc.phase = .armed)
      (to_inflight : t.orc.phase = .inflight) (hc : t.csN = s.csN)
  | finished (d : Direction) (hm : nextMove s = .orcAdvance) (ho : s.orc.op = .holds d)
      (hf : (s.channel (watchedChannel d)).finish = true) (from_inflight : s.orc.phase = .inflight)
      (to_completed : t.orc.phase = .completed) (hc : t.csN = s.csN)
  | abandoned (r : Request) (hm : nextMove s = .orcTake) (hr : s.reqPort = some r) (hop : r.op = 5)
      (from_inflight : s.orc.phase = .inflight) (to_abandoned : t.orc.phase = .abandoned) (hc : t.csN = true)
  | answered (hm : nextMove s = .orcAdvance) (from_completed : s.orc.phase = .completed)
      (to_idle : t.orc.phase = .idle) (hc : t.csN = true)
  | reset (hm : nextMove s = .reset) (to_idle : t.orc.phase = .idle) (hc : t.csN = true)

/-- A request taken opens a transaction (READ, WRITE), abandons one, or leaves phase and chip select. -/
theorem Taken.phaseEvent {s t : State} {r : Request} (hm : nextMove s = .orcTake) (hr : s.reqPort = some r)
    (h : Taken (spendMove s) r t) : PhaseEvent s t := by
  obtain ⟨_, _, e⟩ := spendMove_eq s
  rw [e] at h
  cases h with
  | read a wc buf hop ready => exact .accepted r hm hr (.inl hop) ready.idle rfl rfl
  | write a wc buf hop ready => exact .accepted r hm hr (.inr hop) ready.idle rfl rfl
  | abandon hop _ hp => exact .abandoned r hm hr hop hp rfl rfl
  | held | invalid | reserved | overlap | marked | checksum | encode => exact .still rfl rfl

/-- A step of the transaction moves the phase on by one, or is stopped or marked and leaves it. -/
theorem Advanced.phaseEvent {s t : State} (hm : nextMove s = .orcAdvance) (h : Advanced (spendMove s) t) :
    PhaseEvent s t := by
  obtain ⟨_, _, e⟩ := spendMove_eq s
  rw [e] at h
  cases h with
  | held | marked | busyA | busyB => exact .still rfl rfl
  | armedRead _ _ hp | armedWrite _ hp => exact .configured hm hp rfl rfl
  | startedRead _ _ hp | startedWrite _ hp => exact .started hm hp rfl rfl
  | finished d hp ho hf => exact .finished d hm ho hf hp rfl rfl
  | answeredRead _ _ hp | answeredWrite _ hp => exact .answered hm hp rfl rfl

/-- Every step of the machine is one of the events. -/
theorem step_phaseEvent {s t : State} (h : step s = .next t) : PhaseEvent s t := by
  apply step_keepsTransaction h
  case others => exact fun _ ht => .still ht.phase ht.csN
  case take => exact fun hm _ hr _ ht => ht.phaseEvent hm hr
  case advance => exact fun hm _ ht => ht.phaseEvent hm
  case reset => exact fun hm => .reset hm rfl rfl

/-! ## The statements -/

/-- Settles O35: a step that changes the phase is an event that is not `still`, and each is a row of the table. -/
theorem phaseTransitionsAreTheTable : Obligations.PhaseTransitionsAreTheTable := by
  intro s t h changed
  cases step_phaseEvent h with
  | still hp => exact absurd hp changed
  | accepted r hm hr hop hp hp' => exact .inl ⟨hm, hp, hp', r, hr, hop⟩
  | configured hm hp hp' => exact .inr (.inl ⟨hm, hp, hp'⟩)
  | started hm hp hp' => exact .inr (.inr (.inl ⟨hm, hp, hp'⟩))
  | finished d hm ho hf hp hp' => exact .inr (.inr (.inr (.inl ⟨hm, hp, hp', d, ho, hf⟩)))
  | abandoned r hm hr hop hp hp' => exact .inr (.inr (.inr (.inr (.inl ⟨hm, hp, hp', r, hr, hop⟩))))
  | answered hm hp hp' => exact .inr (.inr (.inr (.inr (.inr (.inl ⟨hm, hp, hp'⟩)))))
  | reset hm hp' => exact .inr (.inr (.inr (.inr (.inr (.inr ⟨hm, hp'⟩)))))

/-- Settles O36: of the events, acceptance alone lowers CS_N, and step 5, ABANDON and reset alone raise it. -/
theorem chipSelectIsFramed : Obligations.ChipSelectIsFramed := by
  intro s t h
  refine ⟨fun high low => ?_, fun low high => ?_⟩
  · cases step_phaseEvent h with
    | accepted r hm hr hop hp hp' => exact ⟨hm, hp, hp', r, hr, hop⟩
    | still _ hc | configured _ _ _ hc | started _ _ _ hc | finished _ _ _ _ _ _ hc =>
      rw [hc, high] at low; cases low
    | abandoned _ _ _ _ _ _ hc | answered _ _ _ hc | reset _ _ hc => rw [hc] at low; cases low
  · cases step_phaseEvent h with
    | answered hm hp hp' => exact .inl ⟨hm, hp, hp'⟩
    | abandoned _ hm _ _ hp hp' => exact .inr (.inl ⟨hm, hp, hp'⟩)
    | reset hm => exact .inr (.inr hm)
    | still _ hc | configured _ _ _ hc | started _ _ _ hc | finished _ _ _ _ _ _ hc =>
      rw [hc, low] at high; cases high
    | accepted _ _ _ _ _ _ hc => rw [hc] at high; cases high

/-- Settles O37: in ABANDONED the orchestrator's moves hold, and no other agent's but reset touches the transaction. -/
theorem abandonedIsTerminalUntilReset : Obligations.AbandonedIsTerminalUntilReset := by
  intro s t hp h hm
  have hu : (spendMove s).orc.phase = .abandoned := by rw [spendMove_orc]; exact hp
  have spent : s.KeepsTransaction (spendMove s) := spendMove_keepsTransaction.1 (.refl _)
  have kept : s.KeepsTransaction t := by
    apply step_keepsTransaction h
    case others => exact fun _ ht => ht
    case take => exact fun _ _ _ t ht => by rw [ht.eq_of_abandoned hu]; exact spent
    case advance => exact fun _ t ht => by rw [ht.eq_of_abandoned hu]; exact spent
    case reset => exact fun e => absurd e hm
  exact ⟨kept.phase.trans hp, kept.buf, kept.n, kept.ck, kept.csN, kept.request, kept.response⟩

/-- Settles O22: past the checks and with TXBUF admitted, READ leaves `afterReadStep1`, which holds the packet. -/
theorem readIsAccepted : Obligations.ReadIsAccepted := by
  intro s address wc rxbuf ready hw hb clear txbuf
  exact ⟨afterReadStep1 address wc rxbuf s, execRead_of_admitted address ready hw hb clear txbuf, rfl,
    afterReadStep1_wordsAt address wc rxbuf s, fun _ outside => afterReadStep1_byteAt address wc rxbuf s outside,
    rfl, rfl, ready.no_response, rfl, rfl⟩

/-- Settles O23: WRITE leaves `afterWriteStep1`, whose packet and sums are over the same payload words. -/
theorem writeIsAccepted : Obligations.WriteIsAccepted := by
  intro s address wc srcbuf ready hw hb fits clear source txbuf
  exact ⟨afterWriteStep1 address wc srcbuf s, execWrite_of_admitted address ready hw hb fits clear source txbuf, rfl,
    rfl, afterWriteStep1_wordsAt address wc srcbuf s,
    fun _ outside => afterWriteStep1_byteAt address wc srcbuf s outside, rfl, rfl, ready.no_response, rfl⟩

/-- Settles O26: each request asks first whether ORC accepts, and ABANDON besides whether a transaction is in flight. -/
theorem requestsAreHeldElsewhere : Obligations.RequestsAreHeldElsewhere := by
  intro s not_ready
  have held := State.accepting_of_not_ready not_ready
  refine ⟨fun base count seed => ?_, fun read rs lin address wc wait er ew => ?_, fun address wc buf => ?_,
    fun address wc buf => ?_, fun not_inflight => ?_⟩
  · rw [exec, execChecksum, held]; rfl
  · rw [exec, execEncode, held]; rfl
  · rw [exec, execRead, held]; rfl
  · rw [exec, execWrite, held]; rfl
  · rw [exec, execAbandon, State.abandonable_of_not_inflight not_inflight, held]; rfl

/-- Settles O30: with the channels free, step 2 is enabled and configures them. -/
theorem stepTwoConfigures : Obligations.StepTwoConfigures := by
  intro s rest n ha hg hp hn hA
  refine ⟨fun buf ho hbuf hB => ?_, fun ho => ?_⟩
  · exact step_orcAdvance_ok ha hg (transactionStep_armedRead hp ho hn hbuf hA hB)
  · exact step_orcAdvance_ok ha hg (transactionStep_armedWrite hp ho hn hA)

/-- Settles O32: with their counts written, step 3 starts the transaction's channels. -/
theorem stepThreeStarts : Obligations.StepThreeStarts := by
  intro s rest a ha hg hp cA rA
  refine ⟨fun b ho cB rB => ?_, fun ho => ?_⟩
  · exact step_orcAdvance_ok ha hg (transactionStep_startedRead hp ho cA cB rA rB)
  · exact step_orcAdvance_ok ha hg (transactionStep_startedWrite hp ho cA rA)

/-- Settles O33: step 4 is enabled just when the watched channel has finished. -/
theorem stepFourWaitsForTheWatchedChannel : Obligations.StepFourWaitsForTheWatchedChannel := by
  intro s rest d ha hg hp ho watched
  have test : (State.channel { s with agenda := rest } (watchedChannel d)).finish = true ↔
      watched.started = true ∧ watched.busy = false := by
    rw [State.channel_watchedChannel]; exact Channel.finish_iff
  have step4 := transactionStep_inflight (u := { s with agenda := rest }) hp ho
  refine ⟨fun done => ?_, fun pending => ?_⟩
  · rw [if_pos (test.2 done)] at step4
    exact step_orcAdvance_ok ha hg step4
  · rw [if_neg (mt test.1 pending)] at step4
    exact step_orcAdvance_stuck ha hg step4

/-- Settles O34: step 5 of a READ reads the admitted words of its buffer, that of a WRITE the latched checksum. -/
theorem stepFiveResponds : Obligations.StepFiveResponds := by
  intro s rest ha hg hp
  refine ⟨fun n buf ho hn hbuf admitted => ?_, fun r ho hr => ?_⟩
  · exact step_orcAdvance_ok ha hg (transactionStep_answeredRead hp ho hn hbuf admitted)
  · exact step_orcAdvance_ok ha hg (transactionStep_answeredWrite hp ho hr)

/-- Settles O60: what `execRead_frame` and `execWrite_frame` say, field by field. -/
theorem transfersFrame : Obligations.TransfersFrame := by
  intro s t address wc buf
  refine ⟨fun h => ?_, fun h => ?_⟩
  · obtain ⟨outside, result, _, _, _, _, _, _, rfl⟩ := execRead_frame h
    exact ⟨outside, rfl, result, rfl, rfl, rfl, rfl, rfl, ⟨rfl, rfl, rfl⟩, rfl, rfl, rfl⟩
  · obtain ⟨outside, _, _, _, _, _, _, rfl⟩ := execWrite_frame h
    exact ⟨outside, rfl, rfl, rfl, rfl, rfl, rfl, ⟨rfl, rfl, rfl⟩, rfl, rfl, rfl⟩

/-- Settles O20: the move spent, the fetch reads the port as it stood. -/
theorem stepRunsTheRequestOnThePort : Obligations.StepRunsTheRequestOnThePort := by
  intro s rest r i ha hr hd
  refine step_run ?_
  rw [nextMove_of_agenda ha, spendMove_of_agenda ha]
  exact fetchRequest_of_decode hr hd

/-- Settles O28: in INFLIGHT with no stopping mark ABANDON is taken. -/
theorem abandonReleasesTheDevice : Obligations.AbandonReleasesTheDevice :=
  fun _ hg hp => execAbandon_of_inflight hg hp

end Sys2Proof.Machine
end

section
/-! The hardware channels (43_external_interfaces.md R147 to R154): `configure`, the move of one word, where there is
none, and how long a finish flag stands. -/

namespace Sys2Proof.Machine

/-! ## A channel's move from an agenda -/

theorem step_channel_of_agenda {s : State} {rest : List Move} {c : ChannelId} (ha : s.agenda = .channel c :: rest) :
    step s = .next (channelStep c { s with agenda := rest }) := by
  rw [step_channel (nextMove_of_agenda ha), spendMove_of_agenda ha]

theorem channelStep_of_not_busy {s : State} {c : ChannelId} (hb : (s.channel c).busy = false) :
    channelStep c s = s := by
  rw [channelStep, hb]; rfl

/-- The descriptor after a move with words left: the last of them clears `busy` (43_external_interfaces.md R150). -/
theorem Channel.moved_of_pos (x : Channel) (m : Nat) {r : Nat} (hr : 0 < r) : x.moved m r =
    { x with mem := .holds (m + 4), remaining := .holds (r - 1), busy := decide (r ≠ 1) } := by
  have left : (0 < r - 1) ↔ r ≠ 1 := by omega
  rw [Channel.moved, decide_eq_decide.2 left]

/-- A channel with its FIFO full or empty, or its address not admitted, has no step. -/
theorem moveWord_held {s : State} {c : ChannelId} {d : ChannelDir} {m : Nat} {f : FifoName}
    (hd : (s.channel c).dir = .holds d) (hm : (s.channel c).mem = .holds m) (hf : (s.channel c).fifo = .holds f)
    (h : (d = .memToFifo ∧ fifoDepth s.cfg f ≤ (s.fifo f).length) ∨ (d = .fifoToMem ∧ s.fifo f = []) ∨
      (m % 4 = 0 ∧ admits s.cfg m = false)) : moveWord s c = .stuck := by
  by_cases en : FifoEnables s d f
  · rcases h with ⟨to_fifo, full⟩ | ⟨to_mem, empty⟩ | ⟨aligned, out⟩
    · exact absurd (en.1 to_fifo) (Nat.not_lt.2 full)
    · exact absurd empty (en.2 to_mem)
    · exact moveWord_unadmitted hd hf en hm aligned out
  · exact moveWord_of_not_enabled hd hf en

/-! ## Which moves leave a channel's descriptor -/

@[simp] theorem spendMove_channel (s : State) (c : ChannelId) : (spendMove s).channel c = s.channel c := by
  obtain ⟨_, _, e⟩ := spendMove_eq s
  rw [e]; cases c <;> rfl

theorem State.channel_congr {s t : State} (ha : t.chA = s.chA) (hb : t.chB = s.chB) (c : ChannelId) :
    t.channel c = s.channel c := by
  cases c with
  | chA => exact ha
  | chB => exact hb

theorem Taken.channel_eq {u t : State} {r : Request} (h : Taken u r t) (c : ChannelId) :
    t.channel c = u.channel c := by
  cases h <;> exact State.channel_congr rfl rfl c

theorem SuMoved.channel_eq {u t : State} (h : SuMoved u t) (c : ChannelId) : t.channel c = u.channel c := by
  cases h <;> exact State.channel_congr rfl rfl c

theorem hostPut_channel (r : Request) (s : State) (c : ChannelId) : (hostPut r s).channel c = s.channel c := by
  unfold hostPut; split <;> exact State.channel_congr rfl rfl c

theorem presentRequest_channel (r : Request) (s : State) (c : ChannelId) :
    (presentRequest r s).channel c = s.channel c := by
  unfold presentRequest; split <;> exact State.channel_congr rfl rfl c

theorem hostTake_channel (s : State) (c : ChannelId) : (hostTake s).channel c = s.channel c := by
  unfold hostTake; split <;> exact State.channel_congr rfl rfl c

theorem hostWrite_channel (a v : Word) (s : State) (c : ChannelId) : (hostWrite a v s).channel c = s.channel c := by
  unfold hostWrite; split <;> exact State.channel_congr rfl rfl c

theorem platformBoot_channel (s : State) (c : ChannelId) : (platformBoot s).channel c = s.channel c := by
  unfold platformBoot; split <;> exact State.channel_congr rfl rfl c

/-- A channel's move changes its own descriptor alone, and that only while it is busy. -/
theorem ChannelMoved.channel_eq {c d : ChannelId} {u t : State} (h : ChannelMoved c u t)
    (still : (u.channel d).busy = false) : t.channel d = u.channel d := by
  have other : (u.channel c).busy = true → d ≠ c := by
    rintro busy rfl
    exact Bool.false_ne_true (still.symm.trans busy)
  cases h with
  | held => rfl
  | marked => exact State.channel_congr rfl rfl d
  | toFifo _ _ _ hb | toMem _ _ _ _ _ hb => simp [other hb]

/-- Of ORC's steps only step 2 touches the descriptor of a finished channel: step 3 starts channels that have not
started, as step 2 left them (42_orchestrator.md R118, R119). -/
theorem Advanced.channel_eq {u t : State} {c : ChannelId} (h : Advanced u t) (inv : u.Inv)
    (started : (u.channel c).started = true)
    (not_step2 : ¬ (u.orc.phase = .selected ∧ (c = .chA ∨ u.orc.op = .holds .read))) :
    t.channel c = u.channel c := by
  have not_started : ∀ d, u.orc.phase = .armed → u.orc.op = .holds d → c ∉ startedChannels d := by
    intro d hp ho hc
    exact Bool.false_ne_true ((inv.armed_configured hp d ho c hc).2.symm.trans started)
  cases h with
  | busyB hp ho | armedRead _ _ hp ho => exact absurd ⟨hp, .inr ho⟩ not_step2
  | startedRead _ _ hp ho => exact absurd (by cases c <;> decide) (not_started _ hp ho)
  | armedWrite _ hp =>
    cases c with
    | chA => exact absurd ⟨hp, .inl rfl⟩ not_step2
    | chB => rfl
  | startedWrite _ hp ho =>
    cases c with
    | chA => exact absurd (by decide) (not_started _ hp ho)
    | chB => rfl
  | held | marked | busyA | finished | answeredRead | answeredWrite => exact State.channel_congr rfl rfl c

/-- A finished channel's descriptor stands through every step but its configuration and reset. -/
theorem step_keeps_finished_channel {s t : State} {c : ChannelId} (h : step s = .next t) (inv : s.Inv)
    (finished : (s.channel c).finish = true) (not_reset : nextMove s ≠ .reset)
    (not_step2 : ¬ (nextMove s = .orcAdvance ∧ s.orc.phase = .selected ∧ (c = .chA ∨ s.orc.op = .holds .read))) :
    t.channel c = s.channel c := by
  obtain ⟨started, still⟩ := Channel.finish_iff.1 finished
  rw [← spendMove_channel s] at started still ⊢
  apply step_cases h
  case hold => rfl
  case take => exact fun _ _ _ _ ht => ht.channel_eq c
  case adv =>
    intro hm t _ ht
    refine ht.channel_eq (spendMove_inv inv) started fun step2 => not_step2 ⟨hm, ?_⟩
    rwa [spendMove_orc] at step2
  case chan => exact fun _ _ _ ht => ht.channel_eq still
  case su => exact fun _ _ ht => ht.channel_eq c
  case put => exact fun r _ => hostPut_channel r _ c
  case prs => exact fun r _ => presentRequest_channel r _ c
  case tk => exact fun _ => hostTake_channel _ c
  case hw => exact fun a v _ => hostWrite_channel a v _ c
  case rs => exact fun e => absurd e not_reset
  case bt => exact fun _ => platformBoot_channel _ c

/-! ## The statements -/

/-- Settles O31: the busy chA decides before a latch but ORC.op is read. -/
theorem busyChannelStopsStepTwo : Obligations.BusyChannelStopsStepTwo :=
  fun _ _ _ _ _ ha hg hp _ ho _ hb => step_orcAdvance_busyA ha hg hp ho hb

/-- Settles O41: a free channel is written, and started where `autoStart` is set. -/
theorem configureSetsTheDescriptor : Obligations.ConfigureSetsTheDescriptor := by
  intro s c dir mem fifo count auto
  refine ⟨configure_of_busy, fun free => ?_⟩
  rw [configure, free]
  cases auto <;> rfl

/-- Settles O42: with room and an admitted address the move is enabled. -/
theorem channelMovesAWordToItsFifo : Obligations.ChannelMovesAWordToItsFifo := by
  intro s rest c m r f ha hb hd hm hf hr hpos room adm
  rw [step_channel_of_agenda ha, channelStep_toFifo (u := { s with agenda := rest }) hb hd hm hf hr room adm,
    Channel.moved_of_pos _ m hpos]
  rfl

/-- Settles O43: the entry is stored as `pokeWord` does, whose word reads back and whose frame is four bytes. -/
theorem channelMovesAWordToMemory : Obligations.ChannelMovesAWordToMemory := by
  intro s rest c m r f v vs ha hb hd hm hf hr hpos hv adm
  rw [step_channel_of_agenda ha, channelStep_toMem (u := { s with agenda := rest }) hb hd hm hf hr hv adm,
    Channel.moved_of_pos _ m hpos]
  refine ⟨_, rfl, by simp, fun b outside => ?_, by simp, ?_, ?_⟩
  · rw [State.setChannel_byteAt, State.byteAt_pokeWord _ _ _ _ outside, State.setFifo_byteAt]
    rfl
  · rw [State.setChannel_channel, if_pos rfl]
    rfl
  · cases f <;> cases c <;> rfl

/-- Settles O44: a channel that is not busy is not asked, and a busy one is held by its FIFO or by its address. -/
theorem channelsHold : Obligations.ChannelsHold := by
  intro s rest c ha
  have still : (s.channel c).busy = false → step s = .next { s with agenda := rest } := fun hb => by
    rw [step_channel_of_agenda ha, channelStep_of_not_busy (by exact hb)]
  refine ⟨still, fun m r f d hd hm hf _ h => ?_⟩
  by_cases hb : (s.channel c).busy = true
  · exact step_channel_stuck ha hb (moveWord_held (s := { s with agenda := rest }) hd hm hf h)
  · exact still (Bool.eq_false_iff.2 hb)

/-- Settles O45: the whole descriptor of a finished channel stands. -/
theorem finishFlagsStay : Obligations.FinishFlagsStay := by
  intro s t c inv finished h not_reset not_step2
  rw [step_keeps_finished_channel h inv finished not_reset not_step2]
  exact finished

end Sys2Proof.Machine
end

section
/-! The signalling unit and the device behind it (43_external_interfaces.md R142 to R145, R157): words and beats, the
weak contract, what each pop of a command leaves, and the data phase. -/

namespace Sys2Proof.Machine

/-! ## Words and beats (43_external_interfaces.md R157) -/

theorem pack_unpack (o : BeatOrder) (w : Word) : pack o (unpack o w).1 (unpack o w).2 = w := by
  cases o <;> exact BitVec.extractLsb'_append_extractLsb' (w := 16) (len := 16)

theorem unpack_pack (o : BeatOrder) (b0 b1 : Beat) : unpack o (pack o b0 b1) = (b0, b1) := by
  cases o with
  | lowFirst => exact Prod.ext BitVec.extractLsb'_append_eq_right BitVec.extractLsb'_append_eq_left
  | highFirst => exact Prod.ext BitVec.extractLsb'_append_eq_left BitVec.extractLsb'_append_eq_right

theorem toNat_append_beats (high low : Beat) : (high ++ low).toNat = high.toNat * 2 ^ 16 + low.toNat := by
  rw [BitVec.toNat_append, ← Nat.shiftLeft_add_eq_or_of_lt low.isLt, Nat.shiftLeft_eq]

/-! ## The device -/

/-- A stored word changes its own two beats and no other. -/
theorem State.beatAt_storeBeats (s : State) (a b : Nat) (w : Word) : (s.storeBeats a w).beatAt b =
    if b = a + 1 then (unpack s.cfg.beatOrder w).2
    else if b = a then (unpack s.cfg.beatOrder w).1 else s.beatAt b := by
  simp only [State.beatAt, State.storeBeats_dev, State.storeBeats_devEpoch, Table.read?_write]
  split_ifs <;> rfl

/-- A word read where it was stored is the word stored, in either beat order. -/
theorem State.deviceWord_storeBeats (s : State) (a : Nat) (w : Word) : (s.storeBeats a w).deviceWord a = w := by
  rw [State.deviceWord, State.beatAt_storeBeats, State.beatAt_storeBeats, if_neg (by omega), if_pos rfl, if_pos rfl]
  exact pack_unpack _ w

/-! ## The weak contract (43_external_interfaces.md R143) -/

theorem SuMoved.sameBlock {u t : State} (h : SuMoved u t) : u.SameBlock t := by
  cases h <;> constructor <;> rfl

/-- CMD_FIFO is as it was, or its oldest entry has gone. -/
theorem SuMoved.cmdFifo {u t : State} (h : SuMoved u t) :
    t.cmdFifo = u.cmdFifo ∨ ∃ w, u.cmdFifo = w :: t.cmdFifo := by
  cases h with
  | quiet | pushed => exact .inl rfl
  | popped _ _ w _ hc | stored _ _ w _ hc => exact .inr ⟨w, hc⟩

/-- DATA_FIFO is as it was, or has one entry more where there was room. -/
theorem SuMoved.dataFifo {u t : State} (h : SuMoved u t) :
    t.dataFifo = u.dataFifo ∨ ∃ v, t.dataFifo = u.dataFifo ++ [v] ∧ u.dataFifo.length < u.cfg.fifoDepthData := by
  cases h with
  | quiet | popped | stored => exact .inl rfl
  | pushed _ _ v room => exact .inr ⟨v, rfl, room⟩

/-! ## The SU's move from an agenda -/

/-- A move that fetches no instruction, from an agenda. -/
theorem step_of_fetch {s t : State} {m : Move} {rest : List Move} (ha : s.agenda = m :: rest)
    (h : fetch m { s with agenda := rest } = .done t) : step s = .next t := by
  refine step_done ?_
  rw [nextMove_of_agenda ha, spendMove_of_agenda ha, h]

/-- The SU's move where what it pops is an instruction (log 27). -/
theorem step_su_run {s u : State} {i : Instr} {rest : List Move} (ha : s.agenda = .su :: rest)
    (h : fetchSu { s with agenda := rest } = .run i u) : step s = exec i u := by
  refine step_run ?_
  rw [nextMove_of_agenda ha, spendMove_of_agenda ha]
  exact h

section
variable {u : State} {w : Word} {ws : List Word}

theorem fetchSu_of_header {got : List Word} (hp : u.su.phase = .header got) (hc : u.cmdFifo = w :: ws) :
    fetchSu u = fetchCa got w { u with cmdFifo := ws } := by
  simp only [fetchSu, hp, hc]

theorem fetchSu_of_command {ca : CaFields} (hp : u.su.phase = .command ca) (hc : u.cmdFifo = w :: ws) :
    fetchSu u = fetchCtrl w { u with cmdFifo := ws } := by
  simp only [fetchSu, hp, hc]

/-- An empty CMD_FIFO holds the SU before a header word (43_external_interfaces.md R145(d)). -/
theorem fetchSu_of_empty (hp : (∃ got, u.su.phase = .header got) ∨ ∃ ca, u.su.phase = .command ca)
    (hc : u.cmdFifo = []) : fetchSu u = .done u := by
  rcases hp with ⟨_, hp⟩ | ⟨_, hp⟩ <;> simp only [fetchSu, hp, hc]

theorem fetchSu_of_pushing {a left : Nat} (hp : u.su.phase = .pushing a left) :
    fetchSu u = .done (suPushWord a left u) := by
  simp only [fetchSu, hp]

theorem fetchSu_of_popping {a left : Nat} (hp : u.su.phase = .popping a left) :
    fetchSu u = .done (suPopWord a left u) := by
  simp only [fetchSu, hp]

theorem fetchCa_of_short {got : List Word} (short : got.length < 3) :
    fetchCa got w u = .done (u.setSuPhase (.header (got ++ [w]))) := by
  rw [fetchCa, if_pos short]

theorem fetchCa_of_decode {w0 w1 w2 : Word} {i : Instr} (hd : decode .packetCa [w0, w1, w2, w] = .ok i) :
    fetchCa [w0, w1, w2] w u = .run i u := by
  have hd : decode .packetCa ([w0, w1, w2] ++ [w]) = .ok i := hd
  rw [fetchCa, if_neg (show ¬ [w0, w1, w2].length < 3 from Nat.lt_irrefl 3), hd]

theorem fetchCa_of_error {w0 w1 w2 : Word} {e : DecodeError} (hd : decode .packetCa [w0, w1, w2, w] = .error e) :
    fetchCa [w0, w1, w2] w u = .done (u.setSuPhase .free) := by
  have hd : decode .packetCa ([w0, w1, w2] ++ [w]) = .error e := hd
  rw [fetchCa, if_neg (show ¬ [w0, w1, w2].length < 3 from Nat.lt_irrefl 3), hd]

theorem fetchCtrl_of_decode {i : Instr} (hd : decode .packetCtrl [w] = .ok i) : fetchCtrl w u = .run i u := by
  rw [fetchCtrl, hd]

theorem fetchCtrl_of_error {e : DecodeError} (hd : decode .packetCtrl [w] = .error e) :
    fetchCtrl w u = .done (u.setSuPhase .free) := by
  rw [fetchCtrl, hd]

theorem suPushWord_of_room (a left : Nat) (room : u.dataFifo.length < u.cfg.fifoDepthData) :
    suPushWord a left u =
      State.setSuPhase (dataPhaseNext .pushing a left) { u with dataFifo := u.dataFifo ++ [u.deviceWord a] } := by
  rw [suPushWord, (fifoPush_eq_ok (s := u) (f := .data)).2 ⟨room, rfl⟩]
  rfl

theorem suPushWord_of_full (a left : Nat) (full : u.cfg.fifoDepthData ≤ u.dataFifo.length) :
    suPushWord a left u = u := by
  rw [suPushWord, fifoPush_of_full (s := u) (f := .data) _ full]
  rfl

theorem suPopWord_of_entry (a left : Nat) (hc : u.cmdFifo = w :: ws) :
    suPopWord a left u = State.setSuPhase (dataPhaseNext .popping a left)
      (State.storeBeats { u with cmdFifo := ws } a w) := by
  rw [suPopWord, (fifoPop_eq_ok (s := u) (f := .cmd)).2 ⟨w, ws, hc, rfl⟩]
  rfl

theorem suPopWord_of_empty (a left : Nat) (hc : u.cmdFifo = []) : suPopWord a left u = u := by
  rw [suPopWord, fifoPop_of_empty (s := u) (f := .cmd) hc]
  rfl

end

/-- A command's last word leaves the SU before the next header. -/
theorem dataPhaseNext_of_pos (mk : Nat → Nat → SuPhase) (a : Nat) {left : Nat} (h : 0 < left) :
    dataPhaseNext mk a left = if left = 1 then .header [] else mk (a + 2) (left - 1) :=
  if_congr (by omega) rfl rfl

/-! ## Malformed headers (30_encoding.md R75) -/

theorem decode_header_error {w0 w1 w3 : Word} (w2 : Word)
    (h : w0.extractLsb' 16 16 ≠ 0xFF00#16 ∨ w1.extractLsb' 3 13 ≠ 0#13 ∨ w3 = 0xFFFFFFFF#32) :
    ∃ e, decode .packetCa [w0, w1, w2, w3] = .error e := by
  rw [decode, decodeCa]
  simpa only [exists_error_ite, reduceCtorEq, exists_false, or_false] using h

theorem decode_header_ok {w0 w1 w3 : Word} (w2 : Word)
    (h : ¬ (w0.extractLsb' 16 16 ≠ 0xFF00#16 ∨ w1.extractLsb' 3 13 ≠ 0#13 ∨ w3 = 0xFFFFFFFF#32)) :
    decode .packetCa [w0, w1, w2, w3] = .ok (caInstr (caFields w0 w1 w2 w3)) := by
  rw [not_or, not_or] at h
  obtain ⟨marker, reserved, count⟩ := h
  rw [decode, decodeCa, if_neg marker, if_neg reserved, if_neg count]

theorem decode_ctrl_error {w4 : Word}
    (h : w4.extractLsb' 8 8 ≠ 0#8 ∨ (w4.extractLsb' 0 8 ≠ 0x00#8 ∧ w4.extractLsb' 0 8 ≠ 0xFF#8)) :
    ∃ e, decode .packetCtrl [w4] = .error e := by
  rw [decode, decodeCtrl]
  rcases h with reserved | ⟨inputs, outputs⟩
  · exact ⟨_, if_pos reserved⟩
  · rw [if_neg inputs, if_neg outputs]
    simp only [exists_error_ite, Except.error.injEq, exists_eq', or_true]

/-! ## The control words (43_external_interfaces.md R144, R145) -/

/-- Each control word's meaning: the jump target, the pin direction, and the data phase. -/
theorem exec_ctrlInstr (read : Bool) (entry : BitVec 16) (s : State) :
    exec (ctrlInstr read entry) s = .next { s with su := { s.su with
      jump := .holds entry, pinDir := .holds (pinMask read), phase := dataPhase s.cfg read s.su.phase } } := by
  cases read <;> rfl

/-- The commands R145 defines the ideal SU for. -/
theorem idealFor_iff {c : Cfg} {read : Bool} {ca : CaFields} : idealFor c read ca = true ↔
    ca.read = read ∧ ca.wordCount.toNat % 2 = 0 ∧ ca.wordCount ≠ 0 ∧ ca.registerSpace = false ∧
      ca.linearBurst = true ∧ ca.address.toNat + ca.wordCount.toNat ≤ c.deviceWords := by
  simp [idealFor, and_assoc]

theorem idealFor_eq_false_iff {c : Cfg} {read : Bool} {ca : CaFields} : idealFor c read ca = false ↔
    ca.read = !read ∨ ca.wordCount.toNat % 2 = 1 ∨ ca.wordCount = 0 ∨ ca.registerSpace = true ∨
      ca.linearBurst = false ∨ c.deviceWords < ca.address.toNat + ca.wordCount.toNat := by
  rw [← Bool.not_eq_true, idealFor_iff]
  simp only [not_and_or, Bool.eq_not, Nat.mod_two_not_eq_zero, not_not, Bool.not_eq_false, Bool.not_eq_true, not_le,
    ne_eq]

theorem dataPhase_of_ideal {c : Cfg} {read : Bool} {ca : CaFields} (h : idealFor c read ca = true) :
    dataPhase c read (.command ca) =
      if read then .pushing ca.address.toNat (ca.wordCount.toNat / 2)
      else .popping ca.address.toNat (ca.wordCount.toNat / 2) := if_pos h

theorem dataPhase_of_not_ideal {c : Cfg} {read : Bool} {ca : CaFields} (h : idealFor c read ca = false) :
    dataPhase c read (.command ca) = .free := by
  rw [dataPhase, h]; rfl

/-! ## The statements -/

/-- Settles O40: what the relation of all the SU's moves says, field by field. -/
theorem suKeepsTheWeakContract : Obligations.SuKeepsTheWeakContract := by
  intro s t hm h
  obtain ⟨t', e, moved⟩ := su_move_cases hm
  obtain rfl := Host.Outcome.next.inj (h.symm.trans e)
  obtain ⟨_, _, spent⟩ := spendMove_eq s
  rw [spent] at moved
  exact ⟨{ moved.sameBlock with }, moved.cmdFifo, moved.dataFifo⟩

/-- Settles O21: what the SU pops completes the words of an instruction. -/
theorem stepRunsTheCommandTheSuPops : Obligations.StepRunsTheCommandTheSuPops := by
  intro s rest w ws i ha hc
  refine ⟨fun w0 w1 w2 hp hd => step_su_run ha ?_, fun ca hp hd => step_su_run ha ?_⟩
  · rw [fetchSu_of_header (by exact hp) (by exact hc)]
    exact fetchCa_of_decode hd
  · rw [fetchSu_of_command (by exact hp) (by exact hc)]
    exact fetchCtrl_of_decode hd

/-- Settles O47: the data phase follows exactly the commands the ideal SU is defined for. -/
theorem controlWordsComplete : Obligations.ControlWordsComplete := by
  intro s entry ca hp
  have completes := fun read => exec_ctrlInstr read entry s
  rw [hp] at completes
  refine ⟨⟨_, completes true, fun ideal => ?_, fun other => ?_⟩,
    ⟨_, completes false, fun ideal => ?_, fun other => ?_⟩⟩
  · exact dataPhase_of_ideal (idealFor_iff.2 ideal)
  · exact dataPhase_of_not_ideal (idealFor_eq_false_iff.2 other)
  · exact dataPhase_of_ideal (idealFor_iff.2 ideal)
  · exact dataPhase_of_not_ideal (idealFor_eq_false_iff.2 other)

/-- Settles O48: the pops before W3 are kept, and W3 and W4 decode or leave the SU outside R145. -/
theorem suPopsTheHeader : Obligations.SuPopsTheHeader := by
  intro s rest ha
  refine ⟨fun got hp => ⟨fun empty => ?_, fun w ws hc short => ?_⟩, fun w0 w1 w2 w3 ws hp hc =>
    ⟨fun malformed => ?_, fun formed => ?_⟩, fun ca hp => ⟨fun empty => ?_, fun w4 ws hc malformed => ?_⟩⟩
  · exact step_of_fetch ha (fetchSu_of_empty (u := { s with agenda := rest }) (.inl ⟨got, hp⟩) empty)
  · exact step_of_fetch ha
      ((fetchSu_of_header (u := { s with agenda := rest }) hp hc).trans (fetchCa_of_short short))
  · obtain ⟨e, he⟩ := decode_header_error w2 malformed
    exact step_of_fetch ha ((fetchSu_of_header (u := { s with agenda := rest }) hp hc).trans (fetchCa_of_error he))
  · have decodes := fetchCa_of_decode (u := { s with agenda := rest, cmdFifo := ws }) (decode_header_ok w2 formed)
    rw [step_su_run ha ((fetchSu_of_header (u := { s with agenda := rest }) hp hc).trans decodes), exec_caInstr]
    rfl
  · exact step_of_fetch ha (fetchSu_of_empty (u := { s with agenda := rest }) (.inr ⟨ca, hp⟩) empty)
  · obtain ⟨e, he⟩ := decode_ctrl_error malformed
    exact step_of_fetch ha ((fetchSu_of_command (u := { s with agenda := rest }) hp hc).trans (fetchCtrl_of_error he))

/-- Settles O49: room in DATA_FIFO enables the push. -/
theorem idealSuPushesTheNextDeviceWord : Obligations.IdealSuPushesTheNextDeviceWord := by
  intro s rest a left ha hp hleft
  have push := step_of_fetch ha (fetchSu_of_pushing (u := { s with agenda := rest }) hp)
  refine ⟨fun room => ?_, fun full => ?_⟩
  · rw [push, suPushWord_of_room a left (by exact room), dataPhaseNext_of_pos _ a hleft]
    rfl
  · rw [push, suPushWord_of_full a left (by exact full)]

/-- Settles O50: an entry of CMD_FIFO enables the pop, and its beats are stored as `storeBeats` does. -/
theorem idealSuStoresTheNextPayloadWord : Obligations.IdealSuStoresTheNextPayloadWord := by
  intro s rest a left ha hp hleft
  have pop := step_of_fetch ha (fetchSu_of_popping (u := { s with agenda := rest }) hp)
  refine ⟨fun w ws hc => ?_, fun empty => ?_⟩
  · rw [pop, suPopWord_of_entry a left (by exact hc), dataPhaseNext_of_pos _ a hleft]
    refine ⟨_, rfl, rfl, ?_, fun b other other' => ?_⟩
    · exact State.deviceWord_storeBeats { s with agenda := rest, cmdFifo := ws } a w
    · have kept := State.beatAt_storeBeats { s with agenda := rest, cmdFifo := ws } a b w
      rw [if_neg other', if_neg other] at kept
      exact kept
  · rw [pop, suPopWord_of_empty a left (by exact empty)]

/-- Settles O51: the two beats are the word's halves, in the order's own order. -/
theorem packAndUnpackAreInverse : Obligations.PackAndUnpackAreInverse :=
  ⟨pack_unpack, unpack_pack, fun b0 b1 => toNat_append_beats b1 b0, fun b0 b1 => toNat_append_beats b0 b1⟩

end Sys2Proof.Machine
end

section
/-! The host's moves (43_external_interfaces.md R158), row by row. -/

namespace Sys2Proof.Machine

/-- The records a request that reaches the port outside the table may be: one of the five, or one with a reserved op
(30_encoding.md R63; log 17). -/
theorem Request.puttable_iff_known_or_reserved {r : Request} : r.puttable = true ↔
    (∃ i, decode .request r.words = .ok i) ∨ r.op = 0 ∨ 6 ≤ r.op.toNat := by
  rw [Request.puttable_iff, decode_words]
  refine or_congr_right ⟨fun ⟨op, h⟩ => decodeRequest_eq_reservedOp h, fun h => ⟨r.op, ?_⟩⟩
  exact decodeRequest_of_reserved r.operands h

theorem State.presentEnabled_iff_known_or_reserved {s : State} {r : Request} : s.presentEnabled r = true ↔
    ((∃ i, decode .request r.words = .ok i) ∨ r.op = 0 ∨ 6 ≤ r.op.toNat) ∧ s.reqPort = none ∧
      s.respPort = none ∧ (s.orc.phase = .idle ∨ s.orc.phase = .abandoned) := by
  rw [State.presentEnabled_iff, Request.puttable_iff_known_or_reserved]

/-- A write of a word the host has is a store of that word; of any other there is none (log 4). -/
theorem hostWrite_of_own {s : State} {a : Word} (v : Word) (own : s.HostsWord a) :
    hostWrite a v s = s.pokeWord a.toNat v := if_pos (State.hostMayAccess_iff.2 own)

theorem hostWrite_of_not_own {s : State} {a : Word} (v : Word) (not_own : ¬ s.HostsWord a) :
    hostWrite a v s = s := if_neg (mt State.hostMayAccess_iff.1 not_own)

/-- Which words are the host's rests on the configuration, the window and the port. -/
theorem State.hostsWord_agenda {s : State} {a : Word} (g : List Move) :
    State.HostsWord { s with agenda := g } a ↔ s.HostsWord a :=
  ⟨fun h => { h with }, fun h => { h with }⟩

/-- Settles O54: each move asks for its row's condition, and leaves the state where it does not hold. -/
theorem hostMovesFollowTheTable : Obligations.HostMovesFollowTheTable := by
  intro s rest
  refine ⟨fun r ha => ⟨fun on => ?_, fun off => ?_⟩, fun ha => ⟨fun waits => ?_, fun none_waits => ?_⟩,
    fun a v ha => ⟨fun own => ?_, fun not_own => ?_⟩, fun a ha => step_of_fetch ha rfl,
    fun r ha => ⟨fun on => ?_, fun off => ?_⟩⟩
  · exact step_of_fetch ha (congrArg Fetched.done (if_pos (State.putEnabled_iff.2 on)))
  · exact step_of_fetch ha (congrArg Fetched.done (if_neg (mt State.putEnabled_iff.1 off)))
  · exact step_of_fetch ha (congrArg Fetched.done (if_pos (Option.isSome_iff_ne_none.2 waits)))
  · exact step_of_fetch ha (congrArg Fetched.done (if_neg (mt Option.isSome_iff_ne_none.1 (not_not.2 none_waits))))
  · refine ⟨_, step_of_fetch ha (congrArg Fetched.done (hostWrite_of_own v ((State.hostsWord_agenda rest).2 own))),
      State.wordAt_pokeWord_same _ _ _, fun b outside => ?_, rfl⟩
    exact State.byteAt_pokeWord { s with agenda := rest } _ _ _ outside
  · exact step_of_fetch ha
      (congrArg Fetched.done (hostWrite_of_not_own v (mt (State.hostsWord_agenda rest).1 not_own)))
  · exact step_of_fetch ha (congrArg Fetched.done (if_pos (State.presentEnabled_iff_known_or_reserved.2 on)))
  · exact step_of_fetch ha (congrArg Fetched.done (if_neg (mt State.presentEnabled_iff_known_or_reserved.1 off)))

end Sys2Proof.Machine
end

section
/-! The round trip of 43_external_interfaces.md R157: an ideal SU fed a command's words, the channels that feed it and
that it feeds in turn, and the WRITE and the READ they carry from the host's put to the response. -/

namespace Sys2Proof.Machine

/-! ## Moves in a row -/

/-- The machine makes the moves `ms` from `s` to `t`, whatever the agenda holds after them; the agendas of `s` and `t`
themselves play no part. -/
def Plays (ms : List Move) (s t : State) : Prop :=
  ∀ rest, core.run ms.length ({ s with agenda := ms ++ rest } : State) = .next ({ t with agenda := rest } : State)

theorem Plays.nil (s : State) : Plays [] s s := fun _ => rfl

theorem Plays.single {m : Move} {s t : State}
    (h : ∀ rest, step { s with agenda := m :: rest } = .next { t with agenda := rest }) : Plays [m] s t :=
  fun rest => run_succ (h rest)

theorem Plays.append {ms ns : List Move} {s t u : State} (h : Plays ms s t) (h' : Plays ns t u) :
    Plays (ms ++ ns) s u := by
  intro rest
  rw [List.length_append, List.append_assoc, run_add (h (ns ++ rest))]
  exact h' rest

/-- A move that fetches no instruction. -/
theorem Plays.of_fetch {m : Move} {s t : State}
    (h : ∀ g, fetch m { s with agenda := g } = .done { t with agenda := g }) : Plays [m] s t :=
  .single fun g => step_of_fetch rfl (h g)

/-- A move of the SU that pops the last word of an instruction. -/
theorem Plays.su_run {i : Instr} {s u t : State}
    (h : ∀ g, fetchSu { s with agenda := g } = .run i { u with agenda := g })
    (he : ∀ g, exec i { u with agenda := g } = .next { t with agenda := g }) : Plays [.su] s t :=
  .single fun g => (step_su_run (s := { s with agenda := .su :: g }) rfl (h g)).trans (he g)

theorem Plays.orcAdvance {s t : State} (hg : s.going)
    (h : ∀ g, transactionStep { s with agenda := g } = .ok { t with agenda := g }) : Plays [.orcAdvance] s t :=
  .single fun g => step_orcAdvance_ok rfl (by exact hg) (h g)

theorem Plays.channel {c : ChannelId} {s t : State}
    (h : ∀ g, channelStep c { s with agenda := g } = { t with agenda := g }) : Plays [.channel c] s t :=
  .of_fetch fun g => congrArg Fetched.done (h g)

/-- The host puts a request, and ORC takes it. -/
theorem Plays.request {s t : State} {r : Request} {i : Instr} (hd : decode .request r.words = .ok i)
    (free : s.reqPort = none) (ready : s.Ready)
    (h : ∀ g, exec i { s with agenda := g, reqPort := some r } = .next { t with agenda := g }) :
    Plays [.put r, .orcTake] s t := by
  obtain ⟨_, idle, no_response⟩ := ready
  have put : Plays [.put r] s { s with reqPort := some r } := .of_fetch fun g =>
    congrArg Fetched.done (if_pos (State.putEnabled_iff.2 ⟨⟨i, hd⟩, free, .inr ⟨no_response, idle⟩⟩))
  exact put.append (.single fun g => (stepRunsTheRequestOnThePort _ g r i rfl rfl hd).trans (h g))

theorem Plays.run {ms rest : List Move} {s t : State} (h : Plays ms s t) (ha : s.agenda = ms ++ rest) :
    core.run ms.length s = .next ({ t with agenda := rest } : State) := by
  have run := h rest
  rwa [← ha] at run

/-! ## Words of the device -/

/-- The words of `n` pairs of beats from `a` on. -/
def State.deviceWordsAt (s : State) : Nat → Nat → List Word
  | _, 0 => []
  | a, n + 1 => s.deviceWord a :: s.deviceWordsAt (a + 2) n

@[simp] theorem State.deviceWordsAt_length (s : State) (a n : Nat) : (s.deviceWordsAt a n).length = n := by
  induction n generalizing a with
  | zero => rfl
  | succ n ih => rw [State.deviceWordsAt, List.length_cons, ih]

/-- What the device's words are rests on the configuration, the device and its draw alone. -/
theorem State.deviceWordsAt_congr {s t : State} (hc : t.cfg = s.cfg) (hd : t.dev = s.dev)
    (he : t.devEpoch = s.devEpoch) (a n : Nat) : t.deviceWordsAt a n = s.deviceWordsAt a n := by
  induction n generalizing a with
  | zero => rfl
  | succ n ih => simp only [State.deviceWordsAt, ih, State.deviceWord, State.beatAt, hc, hd, he]

/-- A table of beats with a word's two stored, as `storeBeats` leaves the device. -/
def storeWord (o : BeatOrder) (d : List (Nat × Beat)) (a : Nat) (w : Word) : List (Nat × Beat) :=
  Table.write (Table.write d a (unpack o w).1) (a + 1) (unpack o w).2

/-- The same of words in order. -/
def storeWords (o : BeatOrder) : List (Nat × Beat) → Nat → List Word → List (Nat × Beat)
  | d, _, [] => d
  | d, a, w :: ws => storeWords o (storeWord o d a w) (a + 2) ws

theorem read?_storeWords_of_lt {o : BeatOrder} {d : List (Nat × Beat)} {a b : Nat} (ws : List Word) (h : b < a) :
    Table.read? (storeWords o d a ws) b = Table.read? d b := by
  induction ws generalizing d a with
  | nil => rfl
  | cons w ws ih =>
    rw [storeWords, ih (by omega), storeWord, Table.read?_write, Table.read?_write, if_neg (by omega),
      if_neg (by omega)]

/-- Stored words read back, in either beat order and whatever the device held. -/
theorem State.deviceWordsAt_of_stored {s : State} {d : List (Nat × Beat)} {a : Nat} {ws : List Word}
    (h : s.dev = storeWords s.cfg.beatOrder d a ws) : s.deviceWordsAt a ws.length = ws := by
  induction ws generalizing d a with
  | nil => rfl
  | cons w ws ih =>
    have low : s.beatAt a = (unpack s.cfg.beatOrder w).1 := by
      rw [State.beatAt, h, storeWords, read?_storeWords_of_lt ws (by omega), storeWord, Table.read?_write,
        Table.read?_write, if_neg (by omega), if_pos rfl]
    have high : s.beatAt (a + 1) = (unpack s.cfg.beatOrder w).2 := by
      rw [State.beatAt, h, storeWords, read?_storeWords_of_lt ws (by omega), storeWord, Table.read?_write, if_pos rfl]
    rw [List.length_cons, State.deviceWordsAt, ih h, State.deviceWord, low, high, pack_unpack]

/-! ## An SU that is fed words -/

/-- A count of words and an address as R157 has them: beats in pairs, all of them on the device. -/
structure OnDevice (c : Cfg) (address wc : Word) : Prop where
  nonzero : wc ≠ 0
  even : wc.toNat % 2 = 0
  below : address.toNat + wc.toNat ≤ c.deviceWords

theorem OnDevice.some_words {c : Cfg} {address wc : Word} (h : OnDevice c address wc) : 0 < wc.toNat / 2 := by
  have := h.even
  have : wc.toNat ≠ 0 := fun e => h.nonzero (BitVec.eq_of_toNat_eq e)
  omega

/-- A linear command of such beats, in either direction, is one R145 defines the ideal SU for. -/
theorem OnDevice.ideal {c : Cfg} {address wc : Word} (h : OnDevice c address wc) (read : Bool) (wait : Word) :
    idealFor c read ⟨read, false, true, address, wait, wc⟩ = true :=
  idealFor_iff.2 ⟨rfl, h.even, h.nonzero, rfl, rfl, h.below⟩

/-- What an SU moves beside the FIFOs: its own state and the device. -/
structure Environment where
  su : Su
  dev : List (Nat × Beat)

def Environment.setPhase (p : SuPhase) (x : Environment) : Environment := { x with su := { x.su with phase := p } }

/-- The phase with `n` words of a command's data to go. -/
def streamPhase (mk : Nat → Nat → SuPhase) (a n : Nat) : SuPhase := if n = 0 then .header [] else mk a n

theorem streamPhase_of_pos {mk : Nat → Nat → SuPhase} {a n : Nat} (h : 0 < n) : streamPhase mk a n = mk a n :=
  if_neg (by omega)

/-- The SU's move takes `w`, the oldest entry of CMD_FIFO, from `x` to `y`. -/
def Takes (c : Cfg) (x : Environment) (w : Word) (y : Environment) : Prop :=
  ∀ (s : State) (ws : List Word), s.cfg = c → s.su = x.su → s.dev = x.dev → s.cmdFifo = w :: ws →
    Plays [.su] s { s with cmdFifo := ws, su := y.su, dev := y.dev }

/-- The SU, fed the words in order, comes from `x` to `y`. -/
inductive Fed (c : Cfg) : Environment → List Word → Environment → Prop
  | nil (x : Environment) : Fed c x [] x
  | cons {x y z : Environment} {w : Word} {ws : List Word} (first : Takes c x w y) (others : Fed c y ws z) :
    Fed c x (w :: ws) z

section
variable {c : Cfg} {x y z : Environment}

theorem Fed.append {vs ws : List Word} (h : Fed c x vs y) (h' : Fed c y ws z) : Fed c x (vs ++ ws) z := by
  induction h with
  | nil => exact h'
  | cons first _ ih => exact .cons first (ih h')

theorem takes_header {got : List Word} (w : Word) (hp : x.su.phase = .header got) (short : got.length < 3) :
    Takes c x w (x.setPhase (.header (got ++ [w]))) := by
  obtain ⟨su, dev⟩ := x
  rintro s ws rfl rfl rfl hc
  exact .of_fetch fun g =>
    (fetchSu_of_header (u := { s with agenda := g }) hp hc).trans (fetchCa_of_short short)

theorem takes_ca {w0 w1 w2 w3 : Word} {ca : CaFields} (hp : x.su.phase = .header [w0, w1, w2])
    (hd : decode .packetCa [w0, w1, w2, w3] = .ok (caInstr ca)) : Takes c x w3 (x.setPhase (.command ca)) := by
  obtain ⟨su, dev⟩ := x
  rintro s ws rfl rfl rfl hc
  exact .su_run (u := { s with cmdFifo := ws })
    (fun g => (fetchSu_of_header (u := { s with agenda := g }) hp hc).trans (fetchCa_of_decode hd))
    fun g => exec_caInstr ca _

theorem takes_ctrl {w : Word} {ca : CaFields} {read : Bool} {entry : BitVec 16} (hp : x.su.phase = .command ca)
    (hd : decode .packetCtrl [w] = .ok (ctrlInstr read entry)) :
    Takes c x w { x with su := { x.su with
      jump := .holds entry, pinDir := .holds (pinMask read), phase := dataPhase c read (.command ca) } } := by
  obtain ⟨su, dev⟩ := x
  rintro s ws rfl rfl rfl hc
  rw [← hp]
  exact .su_run (u := { s with cmdFifo := ws })
    (fun g => (fetchSu_of_command (u := { s with agenda := g }) hp hc).trans (fetchCtrl_of_decode hd))
    fun g => exec_ctrlInstr read entry _

theorem takes_payload {a left : Nat} (w : Word) (hp : x.su.phase = .popping a left) :
    Takes c x w
      ⟨{ x.su with phase := streamPhase .popping (a + 2) (left - 1) }, storeWord c.beatOrder x.dev a w⟩ := by
  obtain ⟨su, dev⟩ := x
  rintro s ws rfl rfl rfl hc
  exact .of_fetch fun g => (fetchSu_of_popping (u := { s with agenda := g }) hp).trans
    (congrArg Fetched.done (suPopWord_of_entry a left hc))

/-- The four words of a header leave the SU with its fields. -/
theorem fed_encodeCa {ca : CaFields} (hp : x.su.phase = .header []) (h : ca.wordCount ≠ 0) :
    Fed c x (encodeCa ca) (x.setPhase (.command ca)) := by
  have hd := decode_encodeCa h
  obtain ⟨w0, w1, w2, w3, e⟩ : ∃ w0 w1 w2 w3, encodeCa ca = [w0, w1, w2, w3] := ⟨_, _, _, _, rfl⟩
  rw [e] at hd ⊢
  exact .cons (takes_header w0 hp (by decide)) (.cons (takes_header w1 rfl (by simp))
    (.cons (takes_header w2 rfl (by simp)) (.cons (takes_ca rfl hd) (.nil _))))

/-- The five words of a command leave the ideal SU at the start of its data phase. -/
theorem fed_command (read : Bool) {address wc : Word} (wait er ew : Word) (on : OnDevice c address wc)
    (hp : x.su.phase = .header []) :
    ∃ y, Fed c x (buildCommand read false true address wc wait er ew).toList y ∧ y.dev = x.dev ∧
      y.su.phase = streamPhase (if read then .pushing else .popping) address.toNat (wc.toNat / 2) := by
  rw [buildCommand_toList, encode_ctrlInstr]
  have control := (LaidOut.ctrl read ((if read then er else ew).extractLsb' 0 16)).decode
  refine ⟨_, (fed_encodeCa hp on.nonzero).append (.cons (takes_ctrl rfl control) (.nil _)), rfl, ?_⟩
  rw [streamPhase_of_pos on.some_words, dataPhase_of_ideal (on.ideal read wait)]
  cases read <;> rfl

/-- The payload of a write, whole, is stored and leaves the SU before the next header. -/
theorem fed_payload {a : Nat} {ws : List Word} (hp : x.su.phase = streamPhase .popping a ws.length) :
    ∃ y, Fed c x ws y ∧ y.su.phase = .header [] ∧ y.dev = storeWords c.beatOrder x.dev a ws := by
  induction ws generalizing x a with
  | nil => exact ⟨x, .nil x, hp, rfl⟩
  | cons w ws ih =>
    rw [List.length_cons, streamPhase_of_pos (Nat.succ_pos _)] at hp
    obtain ⟨y, fed, ready, stored⟩ := ih (a := a + 2)
      (x := ⟨{ x.su with phase := streamPhase .popping (a + 2) ws.length }, storeWord c.beatOrder x.dev a w⟩) rfl
    exact ⟨y, .cons (takes_payload w hp) fed, ready, stored⟩

/-- An SU whose words are all in CMD_FIFO. -/
theorem Fed.plays_su {ws : List Word} (h : Fed c x ws y) {s : State} {more : List Word} (hcfg : s.cfg = c)
    (hsu : s.su = x.su) (hdev : s.dev = x.dev) (hc : s.cmdFifo = ws ++ more) :
    Plays (List.replicate ws.length .su) s { s with cmdFifo := more, su := y.su, dev := y.dev } := by
  induction h generalizing s with
  | nil x =>
    rw [List.nil_append] at hc
    rw [← hsu, ← hdev, ← hc]
    exact .nil s
  | cons first _ ih => exact (first s _ hcfg hsu hdev hc).append (ih hcfg rfl rfl rfl)

end

/-- An ideal SU in a read's data phase, with room for all its words in DATA_FIFO. -/
theorem plays_pushes {s : State} {a n : Nat} (hp : s.su.phase = streamPhase .pushing a n)
    (room : s.dataFifo.length + n ≤ s.cfg.fifoDepthData) :
    Plays (List.replicate n .su) s { s with
      dataFifo := s.dataFifo ++ s.deviceWordsAt a n, su := { s.su with phase := .header [] } } := by
  induction n generalizing s a with
  | zero =>
    have hp : s.su.phase = .header [] := hp
    rw [← hp, State.deviceWordsAt, List.append_nil]
    exact .nil s
  | succ n ih =>
    rw [streamPhase_of_pos (Nat.succ_pos n)] at hp
    have push : Plays [.su] s { s with
        dataFifo := s.dataFifo ++ [s.deviceWord a], su := { s.su with phase := streamPhase .pushing (a + 2) n } } :=
      .of_fetch fun g => (fetchSu_of_pushing (u := { s with agenda := g }) hp).trans
        (congrArg Fetched.done (suPushWord_of_room a (n + 1) (by simp only; omega)))
    have others := push.append (ih rfl (by simp only [List.length_append, List.length_singleton]; omega))
    have same_device : State.deviceWordsAt { s with
        dataFifo := s.dataFifo ++ [s.deviceWord a], su := { s.su with phase := streamPhase .pushing (a + 2) n } }
        (a + 2) n = s.deviceWordsAt (a + 2) n := State.deviceWordsAt_congr (by rfl) (by rfl) (by rfl) _ _
    rw [same_device, List.append_assoc] at others
    exact others

/-! ## The SU alone -/

/-- Settles O52: fed the WRITE's stream and the READ's header, the SU has the payload on the device and pushes it. -/
theorem idealSuReadsBackWhatItWrote : Obligations.IdealSuReadsBackWhatItWrote := by
  intro s address wc wait wait' er ew er' ew' payload nonzero even length below fits hp empty hc ha
  have on : OnDevice s.cfg address wc := ⟨nonzero, even, below⟩
  obtain ⟨x1, fed1, dev1, hp1⟩ := fed_command false wait er ew on (x := ⟨s.su, s.dev⟩) hp
  rw [← length] at hp1
  obtain ⟨x2, fed2, hp2, dev2⟩ := fed_payload (c := s.cfg) hp1
  obtain ⟨x3, fed3, dev3, hp3⟩ := fed_command true wait' er' ew' on hp2
  have taken := ((fed1.append fed2).append fed3).plays_su (s := s) (more := []) rfl rfl rfl
    (hc.trans (List.append_nil _).symm)
  have stored : State.deviceWordsAt { s with cmdFifo := [], su := x3.su, dev := x3.dev } address.toNat payload.length =
      payload := State.deviceWordsAt_of_stored (d := x1.dev) (dev3.trans dev2)
  rw [← length] at hp3
  have played := taken.append (plays_pushes (n := payload.length) hp3 (by simp only [empty, List.length_nil]; omega))
  rw [stored, empty, List.replicate_append_replicate, List.length_append, List.length_append] at played
  have moves : 10 + 2 * payload.length = 5 + payload.length + 5 + payload.length := by omega
  rw [moves] at ha ⊢
  have run := played.run (rest := []) (by rw [ha, List.append_nil]; rfl)
  rw [List.length_replicate] at run
  exact ⟨_, run, rfl, rfl, rfl, by constructor <;> rfl⟩

end Sys2Proof.Machine
end

section
/-! The round trip of the whole block (43_external_interfaces.md R157): the channels take turns with the SU, and a WRITE
and a READ run from the host's put to the response. -/

namespace Sys2Proof.Machine

/-! ## A channel under way -/

/-- A started channel with `n` words to move, the next one's memory end at `m` (43_external_interfaces.md R149 to
R152). -/
structure Channel.Streams (x : Channel) (dir : ChannelDir) (fifo : FifoName) (m n : Nat) : Prop where
  dir_written : x.dir = .holds dir
  mem_written : x.mem = .holds m
  fifo_written : x.fifo = .holds fifo
  remaining_written : x.remaining = .holds n
  busy : x.busy = decide (0 < n)
  started : x.started = true

theorem Channel.streams_started (dir : ChannelDir) (fifo : FifoName) (m n : Nat) :
    ((Machine.configured dir m fifo n false).startWith n).Streams dir fifo m n := ⟨rfl, rfl, rfl, rfl, rfl, rfl⟩

section
variable {x : Channel} {dir : ChannelDir} {fifo : FifoName} {m n : Nat}

theorem Channel.Streams.busy_of_succ (h : x.Streams dir fifo m (n + 1)) : x.busy = true :=
  h.busy.trans (decide_eq_true (Nat.succ_pos n))

theorem Channel.Streams.moved (h : x.Streams dir fifo m (n + 1)) : (x.moved m (n + 1)).Streams dir fifo (m + 4) n :=
  ⟨h.dir_written, rfl, h.fifo_written, rfl, rfl, h.started⟩

theorem Channel.Streams.finish (h : x.Streams dir fifo m 0) : x.finish = true :=
  Channel.finish_iff.2 ⟨h.started, h.busy⟩

theorem Channel.Streams.still (h : x.Streams dir fifo m 0) : x.busy = false := h.busy

end

/-- What memory holds after stores rests on the configuration and the memory alone. -/
theorem State.pokeWords_mem_congr {s t : State} (hc : t.cfg = s.cfg) (hm : t.mem = s.mem) (a : Nat) (vs : List Word) :
    (t.pokeWords a vs).mem = (s.pokeWords a vs).mem := by
  induction vs generalizing s t a with
  | nil => exact hm
  | cons v vs ih =>
    have first : (t.pokeWord a v).mem = (s.pokeWord a v).mem := by
      rw [State.pokeWord_mem, State.pokeWord_mem, hc, hm]
    exact ih (by exact hc) first (a + 4)

/-- chA and the SU taking turns: every word chA moves to CMD_FIFO, from `m` on, is the next the SU takes. -/
theorem Fed.plays_turns {c : Cfg} {x y : Environment} {ws : List Word} (h : Fed c x ws y) {s : State} {m : Nat}
    (hcfg : s.cfg = c) (hsu : s.su = x.su) (hdev : s.dev = x.dev) (empty : s.cmdFifo = []) (depth : 0 < c.fifoDepthCmd)
    (chan : s.chA.Streams .memToFifo .cmd m ws.length) (adm : AdmittedWords c m ws.length)
    (hw : s.wordsAt m ws.length = ws) :
    ∃ ch k, ch.Streams .memToFifo .cmd k 0 ∧
      Plays (List.replicate ws.length [Move.channel .chA, .su]).flatten s
        { s with cmdFifo := [], su := y.su, dev := y.dev, chA := ch } := by
  induction h generalizing s m with
  | nil x =>
    refine ⟨s.chA, m, chan, ?_⟩
    change Plays ([] : List Move) s { s with cmdFifo := [], su := x.su, dev := x.dev }
    rw [← hsu, ← hdev, ← empty]
    exact .nil s
  | @cons x y z w ws first others ih =>
    rw [List.length_cons] at chan adm hw
    obtain ⟨adm0, adms⟩ := (forall_lt_succ_words (P := (admits c · = true))).1 adm
    rw [State.wordsAt_succ, List.cons.injEq] at hw
    obtain ⟨hw0, hws⟩ := hw
    have room : s.cmdFifo.length < s.cfg.fifoDepthCmd := by rw [empty, hcfg]; exact depth
    have feed : Plays [.channel .chA] s
        { s with cmdFifo := s.cmdFifo ++ [s.wordAt m], chA := s.chA.moved m (ws.length + 1) } :=
      .channel fun g => channelStep_toFifo (u := { s with agenda := g }) (c := .chA) chan.busy_of_succ
        chan.dir_written chan.mem_written chan.fifo_written chan.remaining_written
        room (by rw [hcfg]; exact adm0)
    rw [hw0, empty, List.nil_append] at feed
    have take := first { s with cmdFifo := [w], chA := s.chA.moved m (ws.length + 1) } [] hcfg hsu hdev rfl
    obtain ⟨ch, k, done, turns⟩ := ih (s := { s with
      cmdFifo := [], su := y.su, dev := y.dev, chA := s.chA.moved m (ws.length + 1) }) hcfg rfl rfl rfl chan.moved adms
      ((State.wordsAt_congr (by rfl) (by rfl) (by rfl) _ _).trans hws)
    exact ⟨ch, k, done, (feed.append take).append turns⟩

/-- The SU and chB taking turns: every word the SU pushes to DATA_FIFO is the next chB stores, from `m` on. -/
theorem plays_stores {s : State} {a m n : Nat} (hp : s.su.phase = streamPhase .pushing a n)
    (empty : s.dataFifo = []) (depth : 0 < s.cfg.fifoDepthData) (chan : s.chB.Streams .fifoToMem .data m n)
    (adm : AdmittedWords s.cfg m n) :
    ∃ ch k, ch.Streams .fifoToMem .data k 0 ∧
      Plays (List.replicate n [Move.su, .channel .chB]).flatten s { s with
        dataFifo := [], su := { s.su with phase := .header [] }, chB := ch
        mem := (s.pokeWords m (s.deviceWordsAt a n)).mem } := by
  induction n generalizing s a m with
  | zero =>
    have hp : s.su.phase = .header [] := hp
    refine ⟨s.chB, m, chan, ?_⟩
    change Plays ([] : List Move) s { s with dataFifo := [], su := { s.su with phase := .header [] } }
    rw [← hp, ← empty]
    exact .nil s
  | succ n ih =>
    rw [streamPhase_of_pos (Nat.succ_pos n)] at hp
    obtain ⟨adm0, adms⟩ := (forall_lt_succ_words (P := (admits s.cfg · = true))).1 adm
    have push : Plays [.su] s { s with
        dataFifo := s.dataFifo ++ [s.deviceWord a], su := { s.su with phase := streamPhase .pushing (a + 2) n } } :=
      .of_fetch fun g => (fetchSu_of_pushing (u := { s with agenda := g }) hp).trans
        (congrArg Fetched.done (suPushWord_of_room a (n + 1) (by simpa [empty] using depth)))
    rw [empty, List.nil_append] at push
    have store : Plays [.channel .chB]
        { s with dataFifo := [s.deviceWord a], su := { s.su with phase := streamPhase .pushing (a + 2) n } }
        { s with
          dataFifo := [], su := { s.su with phase := streamPhase .pushing (a + 2) n }
          chB := s.chB.moved m (n + 1), mem := (s.pokeWord m (s.deviceWord a)).mem } :=
      .channel fun g => channelStep_toMem (u := { s with
          agenda := g, dataFifo := [s.deviceWord a], su := { s.su with phase := streamPhase .pushing (a + 2) n } })
        (c := .chB) chan.busy_of_succ chan.dir_written chan.mem_written chan.fifo_written chan.remaining_written
        (by rfl) adm0
    obtain ⟨ch, k, done, turns⟩ := ih (s := { s with
      dataFifo := [], su := { s.su with phase := streamPhase .pushing (a + 2) n }
      chB := s.chB.moved m (n + 1), mem := (s.pokeWord m (s.deviceWord a)).mem }) rfl rfl depth chan.moved adms
    rw [State.deviceWordsAt_congr (s := s) (by rfl) (by rfl) (by rfl),
      State.pokeWords_mem_congr (s := s.pokeWord m (s.deviceWord a)) (by rfl) (by rfl)] at turns
    exact ⟨ch, k, done, (push.append store).append turns⟩

/-- The words received read back where chB stored them. -/
theorem plays_receives {s : State} {a m n : Nat} (hp : s.su.phase = streamPhase .pushing a n)
    (empty : s.dataFifo = []) (depth : 0 < s.cfg.fifoDepthData) (chan : s.chB.Streams .fifoToMem .data m n)
    (adm : AdmittedWords s.cfg m n) :
    ∃ ch mem, ch.finish = true ∧ State.wordsAt { s with mem := mem } m n = s.deviceWordsAt a n ∧
      Plays (List.replicate n [Move.su, .channel .chB]).flatten s
        { s with dataFifo := [], su := { s.su with phase := .header [] }, chB := ch, mem := mem } := by
  obtain ⟨ch, _, done, plays⟩ := plays_stores hp empty depth chan adm
  have stored := s.wordsAt_pokeWords m (s.deviceWordsAt a n)
  rw [State.deviceWordsAt_length, State.pokeWords_eq_mem] at stored
  exact ⟨ch, _, done.finish, stored, plays⟩

/-! ## Between transactions -/

/-- A state in which a transaction of R157 may be put: memory space and linear bursts configured, nothing going on, and
an ideal SU before a header. -/
structure State.AtRest (s : State) : Prop where
  cfg_wf : s.cfg.Wf
  memory_space : s.cfg.regSpace = false
  linear : s.cfg.linearBurst = true
  going : s.going
  idle : s.orc.phase = .idle
  no_request : s.reqPort = none
  chA_still : s.chA.busy = false
  chB_still : s.chB.busy = false
  su_ready : s.su.phase = .header []
  cmd_empty : s.cmdFifo = []
  data_empty : s.dataFifo = []

theorem transactionHeader_eq {c : Cfg} (memory_space : c.regSpace = false) (linear : c.linearBurst = true)
    (read : Bool) (address wc : Word) : transactionHeader c read address wc =
      buildCommand read false true address wc c.waitCycles c.entryRead c.entryWrite := by
  rw [transactionHeader, memory_space, linear]

theorem admitted_txbuf {c : Cfg} (h : c.Wf) {n : Nat} (fits : n ≤ c.txbufWords) :
    AdmittedWords c c.txbufBase.toNat n := fun i hi => h.txbuf_admitted i (by omega)

/-! ## A WRITE from the put to the response -/

theorem afterWriteStep1_of_port (address wc srcbuf : Word) (s : State) (g : List Move) (q : Option Request) :
    afterWriteStep1 address wc srcbuf { s with agenda := g, reqPort := q } =
      { afterWriteStep1 address wc srcbuf s with agenda := g } := by
  have words : State.wordsAt { s with agenda := g, reqPort := q } srcbuf.toNat (payloadWords wc) =
      s.wordsAt srcbuf.toNat (payloadWords wc) := State.wordsAt_congr (by rfl) (by rfl) (by rfl) _ _
  rw [afterWriteStep1, words, State.pokeWords_mem_congr (s := s) (by rfl) (by rfl)]
  rfl

/-- The state in which a WRITE's channel has started. -/
def writeInFlight (address wc srcbuf : Word) (s : State) : State :=
  { afterWriteStep1 address wc srcbuf s with
    chA := (writeChA s.cfg (payloadWords wc)).startWith (5 + payloadWords wc)
    orc := { (afterWriteStep1 address wc srcbuf s).orc with phase := .inflight } }

/-- The host's put and steps 1 to 3. -/
theorem plays_writeInFlight {s : State} {address wc srcbuf : Word} (rest : s.AtRest) (no_response : s.respPort = none)
    (nonzero : wc ≠ 0) (fits : 5 + wc.toNat / 2 ≤ s.cfg.txbufWords) (aligned : srcbuf.toNat % 4 = 0)
    (source : AdmittedWords s.cfg srcbuf.toNat (wc.toNat / 2))
    (clear : ClearOfTxbuf s.cfg srcbuf (wc.toNat / 2) (5 + wc.toNat / 2)) :
    Plays [.put ⟨4, [address, wc, srcbuf]⟩, .orcTake, .orcAdvance, .orcAdvance] s
      (writeInFlight address wc srcbuf s) := by
  have ready : s.Ready := ⟨rest.going, rest.idle, no_response⟩
  have accepted : Plays [.put ⟨4, [address, wc, srcbuf]⟩, .orcTake] s (afterWriteStep1 address wc srcbuf s) :=
    .request (i := .write address wc srcbuf) (by rw [decode_words]; rfl) rest.no_request ready fun g =>
      (execWrite_of_admitted (s := { s with agenda := g, reqPort := some ⟨4, [address, wc, srcbuf]⟩ }) address ready
        nonzero aligned fits clear source (admitted_txbuf rest.cfg_wf fits)).trans
        (congrArg Host.Outcome.next (afterWriteStep1_of_port address wc srcbuf s g _))
  have armed : Plays [.orcAdvance] (afterWriteStep1 address wc srcbuf s)
      (State.setPhase .armed { afterWriteStep1 address wc srcbuf s with chA := writeChA s.cfg (payloadWords wc) }) :=
    .orcAdvance rest.going fun g => transactionStep_armedWrite (n := payloadWords wc) rfl rfl rfl rest.chA_still
  have started : Plays [.orcAdvance]
      (State.setPhase .armed { afterWriteStep1 address wc srcbuf s with chA := writeChA s.cfg (payloadWords wc) })
      (writeInFlight address wc srcbuf s) :=
    .orcAdvance rest.going fun g => transactionStep_startedWrite (a := 5 + payloadWords wc) rfl rfl rfl rfl
  exact (accepted.append armed).append started

/-- Steps 4 and 5. -/
theorem plays_writeResponse {s : State} {r : Dword} (hg : s.going) (hp : s.orc.phase = .inflight)
    (ho : s.orc.op = .holds .write) (hr : s.orc.result = .holds r) (finished : s.chA.finish = true) :
    Plays [.orcAdvance, .orcAdvance] s { s with
      csN := true, orc := { s.orc with phase := .idle }, respPort := some ⟨statusOk, .checksum r⟩ } := by
  have completed : Plays [.orcAdvance] s (s.setPhase .completed) := .orcAdvance hg fun g =>
    (transactionStep_inflight (u := { s with agenda := g }) hp ho).trans (if_pos finished)
  exact completed.append (.orcAdvance hg fun g => transactionStep_answeredWrite rfl ho hr)

/-- A WRITE leaves the block at rest, the payload on the device, and the payload's checksum in the response. -/
theorem plays_write {s : State} {address wc srcbuf : Word} (rest : s.AtRest) (no_response : s.respPort = none)
    (on : OnDevice s.cfg address wc) (fits : 5 + wc.toNat / 2 ≤ s.cfg.txbufWords) (aligned : srcbuf.toNat % 4 = 0)
    (source : AdmittedWords s.cfg srcbuf.toNat (wc.toNat / 2))
    (clear : ClearOfTxbuf s.cfg srcbuf (wc.toNat / 2) (5 + wc.toNat / 2)) :
    ∃ u, Plays (writeMoves address wc srcbuf) s u ∧ u.AtRest ∧ u.cfg = s.cfg ∧
      u.respPort = some ⟨statusOk,
        .checksum (fletcher64 (s.wordsAt srcbuf.toNat (wc.toNat / 2)) s.cfg.xferSeed)⟩ ∧
      u.deviceWordsAt address.toNat (wc.toNat / 2) = s.wordsAt srcbuf.toNat (wc.toNat / 2) := by
  have begun := plays_writeInFlight (address := address) rest no_response on.nonzero fits aligned source clear
  have staged := afterWriteStep1_wordsAt address wc srcbuf s
  rw [transactionHeader_eq rest.memory_space rest.linear] at staged
  have length : (s.wordsAt srcbuf.toNat (wc.toNat / 2)).length = wc.toNat / 2 := State.wordsAt_length _ _ _
  obtain ⟨x, fed_header, dev, hp⟩ := fed_command false s.cfg.waitCycles s.cfg.entryRead s.cfg.entryWrite on
    (x := ⟨s.su, s.dev⟩) rest.su_ready
  rw [← length] at hp
  obtain ⟨y, fed_words, ready, stored⟩ := fed_payload (c := s.cfg) hp
  obtain ⟨ch, k, done, turns⟩ := (fed_header.append fed_words).plays_turns
    (s := writeInFlight address wc srcbuf s) (m := s.cfg.txbufBase.toNat) rfl rfl rfl rest.cmd_empty
    rest.cfg_wf.depth_cmd
    (by rw [List.length_append, length]; exact Channel.streams_started _ _ _ _)
    (by rw [List.length_append, length]; exact admitted_txbuf rest.cfg_wf fits)
    (by rw [List.length_append, length]; exact staged)
  rw [List.length_append, length] at turns
  refine ⟨_, (begun.append turns).append (plays_writeResponse (by exact rest.going) rfl rfl rfl done.finish),
    { rest with idle := rfl, no_request := rfl, chA_still := done.still, su_ready := ready, cmd_empty := rfl },
    rfl, rfl, ?_⟩
  have read_back := State.deviceWordsAt_of_stored (s := { s with dev := y.dev }) stored
  rw [length] at read_back
  exact (State.deviceWordsAt_congr (by rfl) (by rfl) (by rfl) _ _).trans read_back

/-! ## A READ from the put to the response -/

theorem afterReadStep1_of_port (address wc rxbuf : Word) (s : State) (g : List Move) (q : Option Request) :
    afterReadStep1 address wc rxbuf { s with agenda := g, reqPort := q } =
      { afterReadStep1 address wc rxbuf s with agenda := g } := by
  rw [afterReadStep1, State.pokeWords_mem_congr (s := s) (by rfl) (by rfl)]
  rfl

/-- The state in which a READ's channels have started. -/
def readInFlight (address wc rxbuf : Word) (s : State) : State :=
  { afterReadStep1 address wc rxbuf s with
    chA := (readChA s.cfg).startWith 5
    chB := (readChB (payloadWords wc) rxbuf).startWith (payloadWords wc)
    orc := { (afterReadStep1 address wc rxbuf s).orc with phase := .inflight } }

/-- The host's put and steps 1 to 3. -/
theorem plays_readInFlight {s : State} {address wc rxbuf : Word} (rest : s.AtRest) (no_response : s.respPort = none)
    (nonzero : wc ≠ 0) (aligned : rxbuf.toNat % 4 = 0) (clear : ClearOfTxbuf s.cfg rxbuf (wc.toNat / 2) 5) :
    Plays [.put ⟨3, [address, wc, rxbuf]⟩, .orcTake, .orcAdvance, .orcAdvance] s
      (readInFlight address wc rxbuf s) := by
  have ready : s.Ready := ⟨rest.going, rest.idle, no_response⟩
  have accepted : Plays [.put ⟨3, [address, wc, rxbuf]⟩, .orcTake] s (afterReadStep1 address wc rxbuf s) :=
    .request (i := .read address wc rxbuf) (by rw [decode_words]; rfl) rest.no_request ready fun g =>
      (execRead_of_admitted (s := { s with agenda := g, reqPort := some ⟨3, [address, wc, rxbuf]⟩ }) address ready
        nonzero aligned clear (admitted_txbuf rest.cfg_wf rest.cfg_wf.header_fits)).trans
        (congrArg Host.Outcome.next (afterReadStep1_of_port address wc rxbuf s g _))
  have armed : Plays [.orcAdvance] (afterReadStep1 address wc rxbuf s)
      (State.setPhase .armed { afterReadStep1 address wc rxbuf s with
        chA := readChA s.cfg, chB := readChB (payloadWords wc) rxbuf }) :=
    .orcAdvance rest.going fun g => transactionStep_armedRead (n := payloadWords wc) (buf := rxbuf) rfl rfl rfl rfl
      rest.chA_still rest.chB_still
  have started : Plays [.orcAdvance]
      (State.setPhase .armed { afterReadStep1 address wc rxbuf s with
        chA := readChA s.cfg, chB := readChB (payloadWords wc) rxbuf })
      (readInFlight address wc rxbuf s) :=
    .orcAdvance rest.going fun g =>
      transactionStep_startedRead (a := 5) (b := payloadWords wc) rfl rfl rfl rfl rfl rfl
  exact (accepted.append armed).append started

/-- Steps 4 and 5. -/
theorem plays_readResponse {s : State} {n : Nat} {buf : Word} {ws : List Word} (hg : s.going)
    (hp : s.orc.phase = .inflight) (ho : s.orc.op = .holds .read) (hn : s.orc.n = .holds n)
    (hbuf : s.orc.buf = some buf) (finished : s.chB.finish = true) (adm : AdmittedWords s.cfg buf.toNat n)
    (hw : s.wordsAt buf.toNat n = ws) :
    Plays [.orcAdvance, .orcAdvance] s { s with
      csN := true
      ck := Ck.ofSums (finalSums ws s.cfg.xferSeed)
      orc := { s.orc with result := .holds (fletcher64 ws s.cfg.xferSeed), buf := none, phase := .idle }
      respPort := some ⟨statusOk, .checksum (fletcher64 ws s.cfg.xferSeed)⟩ } := by
  subst hw
  have completed : Plays [.orcAdvance] s (s.setPhase .completed) := .orcAdvance hg fun g =>
    (transactionStep_inflight (u := { s with agenda := g }) hp ho).trans (if_pos finished)
  exact completed.append (.orcAdvance hg fun g => transactionStep_answeredRead rfl ho hn hbuf adm)

/-- A READ stores the device's words at its buffer, with their checksum in the response. -/
theorem plays_read {s : State} {address wc rxbuf : Word} (rest : s.AtRest) (no_response : s.respPort = none)
    (on : OnDevice s.cfg address wc) (aligned : rxbuf.toNat % 4 = 0)
    (target : AdmittedWords s.cfg rxbuf.toNat (wc.toNat / 2)) (clear : ClearOfTxbuf s.cfg rxbuf (wc.toNat / 2) 5) :
    ∃ t, Plays (readMoves address wc rxbuf).tail s t ∧
      t.respPort = some ⟨statusOk,
        .checksum (fletcher64 (s.deviceWordsAt address.toNat (wc.toNat / 2)) s.cfg.xferSeed)⟩ ∧
      t.wordsAt rxbuf.toNat (wc.toNat / 2) = s.deviceWordsAt address.toNat (wc.toNat / 2) ∧
      t.orc.phase = .idle ∧ t.csN = true ∧ t.cmdFifo = [] ∧ t.dataFifo = [] ∧ t.su.phase = .header [] := by
  have begun := plays_readInFlight (address := address) rest no_response on.nonzero aligned clear
  have staged := afterReadStep1_wordsAt address wc rxbuf s
  rw [transactionHeader_eq rest.memory_space rest.linear] at staged
  obtain ⟨y, fed, dev, hp⟩ := fed_command true s.cfg.waitCycles s.cfg.entryRead s.cfg.entryWrite on
    (x := ⟨s.su, s.dev⟩) rest.su_ready
  obtain ⟨chA, _, _, turns⟩ := fed.plays_turns (s := readInFlight address wc rxbuf s) (m := s.cfg.txbufBase.toNat)
    rfl rfl rfl rest.cmd_empty rest.cfg_wf.depth_cmd (Channel.streams_started _ _ _ _)
    (admitted_txbuf rest.cfg_wf rest.cfg_wf.header_fits) staged
  obtain ⟨chB, mem, finished, stored, receives⟩ := plays_receives (s := { readInFlight address wc rxbuf s with
      cmdFifo := [], su := y.su, dev := y.dev, chA := chA }) hp rest.data_empty rest.cfg_wf.depth_data
    (Channel.streams_started _ _ rxbuf.toNat _) target
  rw [State.deviceWordsAt_congr (s := s) (by rfl) dev (by rfl)] at stored
  have received := (begun.append turns).append receives
  have answered := received.append
    (plays_readResponse (by exact rest.going) rfl rfl rfl rfl finished target stored)
  exact ⟨_, answered, rfl, stored, rfl, rfl, rfl, rfl, rfl⟩

/-- The host takes the response between two transactions. -/
theorem plays_takeResponse {s : State} (idle : s.orc.phase = .idle) (waits : s.respPort ≠ none) :
    Plays [.takeResponse] s { s with respPort := none, owned := none } := by
  have frees : (if s.orc.phase = .abandoned then s.owned else none) = none := if_neg (by rw [idle]; decide)
  refine .of_fetch fun g => congrArg Fetched.done ?_
  rw [hostTake, if_pos (Option.isSome_iff_ne_none.2 waits), frees]

/-! ## The statement -/

/-- Settles O53: the WRITE leaves the payload on the device, and the READ stores the device's words at `rxbuf`. -/
theorem writeThenReadReturnsThePayload : Obligations.WriteThenReadReturnsThePayload := by
  intro s address wc srcbuf rxbuf n payload cfg_wf memory_space linear ready no_request stillA stillB su_ready
    cmd_empty data_empty nonzero even below fits aligned source clear aligned' target clear' ha
  obtain ⟨going, idle, no_response⟩ := ready
  have rest : s.AtRest :=
    ⟨cfg_wf, memory_space, linear, going, idle, no_request, stillA, stillB, su_ready, cmd_empty, data_empty⟩
  have on : OnDevice s.cfg address wc := ⟨nonzero, even, below⟩
  obtain ⟨u, write, rest', cfg, answer, on_device⟩ := plays_write rest no_response on fits aligned source clear
  have take := plays_takeResponse rest'.idle (by rw [answer]; exact Option.some_ne_none _)
  rw [← cfg] at on target clear'
  obtain ⟨t, read, answer', received, done⟩ := plays_read (s := { u with respPort := none, owned := none })
    { rest' with } rfl on aligned' target clear'
  have device : State.deviceWordsAt { u with respPort := none, owned := none } address.toNat (wc.toNat / 2) =
      payload := (State.deviceWordsAt_congr (by rfl) (by rfl) (by rfl) _ _).trans on_device
  rw [device] at answer' received
  refine ⟨_, _, write.run ha,
    Plays.run (s := { u with agenda := readMoves address wc rxbuf }) (take.append read)
      (List.append_nil _).symm, answer, ?_, ?_, done⟩
  · rw [← cfg]
    exact answer'
  · exact (State.wordsAt_congr (by rfl) (by rfl) (by rfl) _ _).trans received

end Sys2Proof.Machine
end

section
/-! Errors and marks (60_exceptions.md): the one request ORC refuses, the answer to each cause of INVALID_REQUEST, and
the frame of the requests that move no data. -/

namespace Sys2Proof.Machine

/-! ## Refusals -/

@[simp] theorem spendMove_reqPort (s : State) : (spendMove s).reqPort = s.reqPort := by
  obtain ⟨_, _, e⟩ := spendMove_eq s; rw [e]

theorem step_ne_fault (s : State) (f : Fault) : step s ≠ .fault f := by
  intro h
  rw [step] at h
  cases hf : fetch (nextMove s) (spendMove s) with
  | run i u =>
    obtain ⟨t, e⟩ := exec_answers i u
    rw [hf] at h
    cases e.symm.trans h
  | done t => rw [hf] at h; cases h
  | refuse r => rw [hf] at h; cases h

/-- A step is refused just when its fetch refuses: no instruction is. -/
theorem step_eq_refused {s : State} {r : Refusal} :
    step s = .refused r ↔ fetch (nextMove s) (spendMove s) = .refuse r := by
  rw [step]
  cases fetch (nextMove s) (spendMove s) with
  | run i u =>
    obtain ⟨t, e⟩ := exec_answers i u
    simp only [e, reduceCtorEq]
  | done t => simp only [reduceCtorEq]
  | refuse r' => simp only [Host.Outcome.refused.injEq, Fetched.refuse.injEq]

/-- No agent but ORC, looking at its port, is refused. -/
theorem orcTake_of_refused {s : State} {r : Refusal} (h : step s = .refused r) :
    nextMove s = .orcTake ∧ fetchRequest (spendMove s) = .refuse r := by
  have refuse := step_eq_refused.1 h
  cases hm : nextMove s with
  | orcTake => exact ⟨rfl, by rwa [hm] at refuse⟩
  | su =>
    obtain ⟨t, e, _⟩ := su_move_cases (.inl hm)
    cases e.symm.trans h
  | _ => rw [hm] at refuse; cases refuse

/-- ORC, ready, refuses a record that is neither a request nor one with a reserved op (log 26). -/
theorem fetchRequest_of_malformed {s : State} {q : Request} (hq : s.reqPort = some q) (bad : q.puttable = false) :
    fetchRequest s = if s.accepting then .refuse (.malformedRequest q.op) else .done s := by
  have neither := mt Request.puttable_iff.2 (Bool.eq_false_iff.1 bad)
  rw [fetchRequest, hq]
  cases hd : decode .request q.words with
  | ok i => exact absurd (.inl ⟨i, hd⟩) neither
  | error e =>
    cases e with
    | reservedOp op => exact absurd (.inr ⟨op, hd⟩) neither
    | _ => simp only [hd]

theorem malformed_of_fetchRequest_refuse {s : State} {r : Refusal} (h : fetchRequest s = .refuse r) :
    ∃ q, s.reqPort = some q ∧ q.puttable = false ∧ r = .malformedRequest q.op := by
  have not_all : ¬ ∀ q, s.reqPort = some q → q.puttable = true := fun all => by
    rcases fetchRequest_answers all with ⟨i, e⟩ | ⟨t, e⟩ <;> cases e.symm.trans h
  push Not at not_all
  obtain ⟨q, hq, not_puttable⟩ := not_all
  have bad := Bool.eq_false_iff.2 not_puttable
  rw [fetchRequest_of_malformed hq bad] at h
  split at h <;> cases h
  exact ⟨q, hq, bad, rfl⟩

/-! ## The checks that answer INVALID_REQUEST (R162, R166) -/

theorem validateRead_zero (c : Cfg) (buf : Word) : validateRead c 0 buf = .reject reasonZeroWordcount := if_pos rfl

theorem validateWrite_zero (c : Cfg) (buf : Word) : validateWrite c 0 buf = .reject reasonZeroWordcount := if_pos rfl

section
variable {s : State} (ready : s.Ready)
include ready

theorem execRead_of_reject {wc buf : Word} {reason : Byte} (address : Word)
    (hv : validateRead s.cfg wc buf = .reject reason) :
    execRead address wc buf s = .next (s.raiseInvalid reason) := by
  rw [execRead, State.accepting_iff.2 ready, hv]; rfl

theorem execWrite_of_reject {wc buf : Word} {reason : Byte} (address : Word)
    (hv : validateWrite s.cfg wc buf = .reject reason) :
    execWrite address wc buf s = .next (s.raiseInvalid reason) := by
  rw [execWrite, State.accepting_iff.2 ready, hv]; rfl

theorem execEncode_of_zero (read rs lin : Bool) (address wait er ew : Word) :
    execEncode read rs lin address 0 wait er ew s = .next (s.raiseInvalid reasonZeroWordcount) := by
  rw [execEncode, State.accepting_iff.2 ready]; rfl

theorem execChecksum_of_misaligned {base : Word} (count : Word) (seed : Dword) (hb : base.toNat % 4 ≠ 0) :
    execChecksum base count seed s = .next (s.raiseInvalid reasonMisalignedBuffer) := by
  rw [execChecksum, State.accepting_iff.2 ready, Bool.eq_false_iff.2 (mt aligned_iff.1 hb)]; rfl

theorem execAbandon_of_ready : execAbandon s = .next (s.raiseInvalid reasonNotInFlight) := by
  have not_inflight : ¬ (s.going ∧ s.orc.phase = .inflight) := fun ⟨_, hp⟩ => by cases ready.idle.symm.trans hp
  rw [execAbandon, State.abandonable_of_not_inflight not_inflight, State.accepting_iff.2 ready]; rfl

end

/-! ## The frame of the requests that move no data -/

/-- CHECKSUM writes the sums, the ports and the window alone. -/
theorem execChecksum_frame {base count : Word} {seed : Dword} {s t : State}
    (h : execChecksum base count seed s = .next t) :
    ∃ ck req resp owned, t = { s with ck := ck, reqPort := req, respPort := resp, owned := owned } := by
  rcases execChecksum_cases base count seed s with e | ⟨_, _, e⟩ | ⟨_, _, _, e⟩ <;>
    obtain rfl := Host.Outcome.next.inj (h.symm.trans e) <;>
    exact ⟨_, _, _, _, rfl⟩

/-- ENCODE writes the ports alone. -/
theorem execEncode_frame {read rs lin : Bool} {address wc wait er ew : Word} {s t : State}
    (h : execEncode read rs lin address wc wait er ew s = .next t) :
    ∃ req resp, t = { s with reqPort := req, respPort := resp } := by
  rcases execEncode_cases read rs lin address wc wait er ew s with e | ⟨_, _, e⟩ | ⟨_, _, e⟩ <;>
    obtain rfl := Host.Outcome.next.inj (h.symm.trans e) <;>
    exact ⟨_, _, rfl⟩

/-- ABANDON writes the phase, chip select and the ports alone. -/
theorem execAbandon_frame {s t : State} (h : execAbandon s = .next t) :
    ∃ phase csN req resp, t = { s with
      orc := { s.orc with phase := phase }, csN := csN, reqPort := req, respPort := resp } := by
  rcases execAbandon_cases s with e | ⟨_, _, e⟩ | ⟨_, e⟩ <;>
    obtain rfl := Host.Outcome.next.inj (h.symm.trans e) <;>
    exact ⟨_, _, _, _, rfl⟩

/-- What the three may write between them: chip select and the phase are ABANDON's, the sums and the window
CHECKSUM's. -/
theorem exec_dataless_frame {s t : State} {i : Instr} (h : exec i s = .next t)
    (kind : (∃ base count seed, i = .checksum base count seed) ∨
      (∃ read rs lin a wc wait er ew, i = .encode read rs lin a wc wait er ew) ∨ i = .abandon) :
    ∃ ck phase csN req resp owned, t = { s with
        ck := ck, orc := { s.orc with phase := phase }, csN := csN, reqPort := req, respPort := resp,
        owned := owned } ∧
      (i ≠ .abandon → csN = s.csN ∧ phase = s.orc.phase) ∧
      ((∀ base count seed, i ≠ .checksum base count seed) → ck = s.ck ∧ owned = s.owned) := by
  rcases kind with ⟨base, count, seed, rfl⟩ | ⟨_, _, _, _, _, _, _, _, rfl⟩ | rfl
  · obtain ⟨_, _, _, _, rfl⟩ := execChecksum_frame h
    exact ⟨_, _, _, _, _, _, rfl, fun _ => ⟨rfl, rfl⟩, fun other => absurd rfl (other base count seed)⟩
  · obtain ⟨_, _, rfl⟩ := execEncode_frame h
    exact ⟨_, _, _, _, _, _, rfl, fun _ => ⟨rfl, rfl⟩, fun _ => ⟨rfl, rfl⟩⟩
  · obtain ⟨_, _, _, _, rfl⟩ := execAbandon_frame h
    exact ⟨_, _, _, _, _, _, rfl, fun other => absurd rfl other, fun _ => ⟨rfl, rfl⟩⟩

/-! ## The statements -/

/-- Settles O6: an instruction always answers, so only a fetch stops the machine, and only ORC's at a malformed
record. -/
theorem onlyMalformedRequestsStopTheMachine : Obligations.OnlyMalformedRequestsStopTheMachine := by
  intro s
  refine ⟨step_ne_fault s, fun r h => ?_⟩
  obtain ⟨hm, refuse⟩ := orcTake_of_refused h
  obtain ⟨q, hq, bad, e⟩ := malformed_of_fetchRequest_refuse refuse
  rw [spendMove_reqPort] at hq
  exact ⟨hm, q, hq, bad, e⟩

/-- Settles O24: each cause is the first check that fails, and its answer is `raiseInvalid` of its code. -/
theorem invalidRequestsAreAnswered : Obligations.InvalidRequestsAreAnswered := by
  intro s ready
  refine ⟨fun address buf => ?_, fun address buf => ?_, fun read rs lin address wait er ew => ?_,
    fun address wc buf hw hb => ?_, fun address wc buf hw hb => ?_, fun base count seed hb => ?_,
    fun address wc buf hw hb long => ?_, ?_⟩
  · exact execRead_of_reject ready address (validateRead_zero s.cfg buf)
  · exact execWrite_of_reject ready address (validateWrite_zero s.cfg buf)
  · exact execEncode_of_zero ready read rs lin address wait er ew
  · exact execRead_of_reject ready address (validateRead_misaligned hw hb)
  · exact execWrite_of_reject ready address (validateWrite_misaligned hw hb)
  · exact execChecksum_of_misaligned ready count seed hb
  · exact execWrite_of_reject ready address (validateWrite_tooLong hw hb long)
  · exact execAbandon_of_ready ready

/-- Settles O59: what `exec_dataless_frame` says, field by field. -/
theorem requestsThatMoveNoDataFrame : Obligations.RequestsThatMoveNoDataFrame := by
  intro s t i h kind
  obtain ⟨_, _, _, _, _, _, rfl, device, sums⟩ := exec_dataless_frame h kind
  exact ⟨rfl, State.byteAt_congr rfl rfl rfl, rfl, rfl, rfl, rfl, rfl, ⟨rfl, rfl, rfl⟩, rfl, rfl, rfl, rfl, rfl, rfl,
    rfl, rfl, rfl, ⟨rfl, rfl, rfl, rfl⟩, device, sums⟩

end Sys2Proof.Machine
end

section
/-! Reset and boot (70_reset_and_hazards.md R176, R178, R179): what each leaves of the block, of memory and of the
environment. -/

namespace Sys2Proof.Machine

/-! ## Reset -/

/-- Outside TXBUF a byte reads as before reset: the table lists it as before, and the fresh draw stands behind TXBUF
alone. -/
theorem applyReset_byteAt {s : State} {a : Nat} (outside : inTxbuf s.cfg a = false) :
    (applyReset s).byteAt a = s.byteAt a := by
  have listed : Table.read? (applyReset s).mem a = Table.read? s.mem a :=
    (Table.read?_erase _ _ _ a).trans (if_neg (by simpa [inTxbuf] using outside))
  have unlisted : (applyReset s).unlistedByte a = s.unlistedByte a := by
    rw [State.unlistedByte, State.unlistedByte, show (applyReset s).cfg = s.cfg from rfl, outside]
    rfl
  rw [State.byteAt, State.byteAt, listed, unlisted]

/-! ## Boot -/

/-- The model's test for boot is R179's: IDLE, no request on the port, both channels still. -/
theorem State.bootEnabled_iff {s : State} : s.bootEnabled = true ↔
    s.orc.phase = .idle ∧ s.reqPort = none ∧ s.chA.busy = false ∧ s.chB.busy = false := by
  rw [State.bootEnabled]
  simp [and_assoc]

/-! ## The statements -/

/-- Settles O2: every field is R31's or the one before, the FIFOs are cut to capacity, and memory is
`applyReset_byteAt`. -/
theorem resetMoveFromEveryState : Obligations.ResetMoveFromEveryState := fun _ _ ha =>
  ⟨_, step_of_fetch ha rfl, rfl, rfl, rfl, rfl, rfl, List.length_take_le _ _, List.length_take_le _ _, rfl, rfl, rfl,
    rfl, ⟨rfl, rfl, rfl⟩, rfl, fun _ outside => applyReset_byteAt outside⟩

/-- Settles O56: `platformBoot` where its test holds, and where it does not. -/
theorem bootPreparesTheEnvironment : Obligations.BootPreparesTheEnvironment := by
  intro s rest ha
  refine ⟨fun still => ?_, fun hindered => ?_⟩
  · exact step_of_fetch ha (congrArg Fetched.done (if_pos (State.bootEnabled_iff.2 still)))
  · exact step_of_fetch ha (congrArg Fetched.done (if_neg (mt State.bootEnabled_iff.1 hindered)))

end Sys2Proof.Machine
end
